-- ==== Sys2Proof/Word.lean ====
section
/-! DEFINITION. The two word widths of the engine (spec/00_scope.md R9, 30_encoding.md R80, 20_memory.md R54). -/

namespace Sys2Proof

/-- One bus datum, and one engine byte register (20_memory.md R54). -/
abbrev Byte := BitVec 8

/-- One command word or one response word (30_encoding.md R80, R81). -/
abbrev Word := BitVec 16

end Sys2Proof
end

