-- ==== Sys2Proof/Config.lean ====
section
/-! DEFINITION. The implementation parameters of an engine (00_scope.md R6, 10_state.md R20) and the free values the
spec leaves open. -/

namespace Sys2Proof

/-- Which transport the register capability uses (00_scope.md R6, `BACKEND`). -/
inductive Backend
  | pio
  | mmio
deriving DecidableEq, Repr

/-- The address space of a bus transaction (00_scope.md R10, 20_memory.md R50). -/
inductive Space
  | io
  | mem
deriving DecidableEq, Repr

/-- The construction premises of 40_register_access.md R104 that speak of the platform. A field is true when its premise
holds. The engine checks none of them; where one fails the model gives no meaning (R105; DESIGN CHOICE, log 12, safe). -/
structure Premises where
  /-- (a) the six addresses are the device's six registers. -/
  genuine : Bool
  /-- (b) correctly aligned for the platform (20_memory.md R56). -/
  aligned : Bool
  /-- (c) exclusively owned for the life of the engine (20_memory.md R67). -/
  exclusive : Bool
  /-- (d) the caller holds the platform privilege (60_exceptions.md R219). -/
  privileged : Bool
  /-- (f) the range was reserved and mapped before construction. -/
  mapped : Bool
deriving DecidableEq, Repr

/-- The parameters of an engine (00_scope.md R6). They never change (10_state.md R20); State carries them so that one
step function serves every engine (DESIGN CHOICE, log 1, safe). Addresses are natural numbers (R9). -/
structure Cfg where
  backend : Backend
  base : Nat
  stride : Nat
  /-- `AW_PIO`, bits of a port number. -/
  awPio : Nat
  /-- `AW_MMIO`, bits of a memory address. -/
  awMmio : Nat
  /-- `LSR_DR_BIT`. -/
  drBit : Fin 8
  /-- `LSR_THRE_BIT`. -/
  threBit : Fin 8
  premises : Premises
deriving DecidableEq, Repr

namespace Config

/-- Every platform premise of R104 holds. -/
def premisesHold : Premises :=
  { genuine := true, aligned := true, exclusive := true, privileged := true, mapped := true }

/-- The parameters of the engine in `State.reset`: the spec's defaults (00_scope.md R6) with the port backend at the
spec's illustrative base 0x3F8 (40_register_access.md R103; DESIGN CHOICE, log 2, unsafe). -/
def standard : Cfg :=
  { backend := .pio, base := 0x3F8, stride := 1, awPio := 16, awMmio := 64, drBit := 0, threBit := 5,
    premises := premisesHold }

/-! Device registers at power-on: unspecified (10_state.md R40), so nothing is known of these constants (log 3, safe). -/

opaque powerOnLsr : Byte
opaque powerOnRbr : Byte
opaque powerOnThr : Byte
opaque powerOnIer : Byte
opaque powerOnFcr : Byte
opaque powerOnLcr : Byte
opaque powerOnMcr : Byte
opaque powerOnDll : Byte
opaque powerOnDlm : Byte

/-! What the device answers where no move of it is planned: any byte (20_memory.md R65), one per use, by a counter
(log 4, safe). -/

/-- The line-status byte of the device's n-th unplanned move. -/
opaque freeLsr : Nat → Byte
/-- The byte a read of index 0 returns after the device's n-th unplanned move. -/
opaque freeRbr : Nat → Byte
/-- What a read of register index i returns, for the four registers the engine never reads (10_state.md R28, R41). -/
opaque freeUnread : (i : Nat) → (n : Nat) → Byte

end Config

end Sys2Proof
end

