-- ==== Sys2Proof/Syntax.lean ====
section
/-! DEFINITION. The seven commands (30_encoding.md R82) and the lines of a host program (R87, R88). -/

namespace Sys2Proof

/-- One constructor per row of spec/opcode_table.json. The operand is the byte to transmit (R83). -/
inductive Instr
  | init
  | lsts
  | send (b : Byte)
  | sendr (b : Byte)
  | tsendr (b : Byte)
  | recv
  | trecv
deriving DecidableEq, Repr

/-- The mnemonics of R82, as a host program writes them. -/
inductive Mnemonic
  | INIT
  | LSTS
  | SEND
  | SENDR
  | TSENDR
  | RECV
  | TRECV
deriving DecidableEq, Repr

/-- The operand forms of a host program's line (R87). -/
inductive AsmOperand
  /-- `0xHH` or a decimal number. -/
  | byte (n : Nat)
  /-- A character in single quotes, standing for its code. -/
  | char (code : Nat)
  /-- `$name`: the DATA byte of the k-th response of the program, counted from 0. -/
  | resp (k : Nat)
deriving DecidableEq, Repr

/-- One line of a host program: a command (R87), or the pseudo-instruction WSTR with its bytes (R88). -/
inductive AsmLine
  | cmd (m : Mnemonic) (operand : Option AsmOperand)
  | wstr (text : List Nat)
deriving DecidableEq, Repr

end Sys2Proof
end

