-- ==== Sys2Proof/Machine/State.lean ====
section
/-! DEFINITION. The state of the engine, of the device as the engine sees it, and of the host's side of the two ports. -/

namespace Sys2Proof.Machine

/-- The sequencer's phase (10_state.md R23). -/
inductive Phase
  | idle
  | init
  | poll
  | access
  | done
deriving DecidableEq, Repr

/-- The six registers of the register set, by name (10_state.md R28, 40_register_access.md R102). -/
inductive RegIndex
  | data
  | ier
  | fcr
  | lcr
  | mcr
  | lsr
deriving DecidableEq, Repr

/-- The events of a trace (00_scope.md R11). -/
inductive Event
  | cmd (w : Word)
  | read (space : Space) (addr : Nat) (v : Byte)
  | write (space : Space) (addr : Nat) (v : Byte)
  | hint
  | resp (status data : Byte)
  | reset
deriving DecidableEq, Repr

/-- What the device does on its own between two steps (42_sequencer.md R150, 20_memory.md R65): the line-status byte and
the byte a read of index 0 returns become any bytes. The two truth values say whether it consumed the transmitted byte and
produced a received one; only the named premises of R66 (Safety.lean) read them. -/
structure DeviceMove where
  lsr : Byte
  rbr : Byte
  consumed : Bool
  produced : Bool
deriving DecidableEq, Repr

/-- The device as far as the spec describes it (10_state.md R28 to R38): what its two readable registers answer now, and
what was last written to its writable ones (R41). -/
structure Device where
  /-- LSR, index 5: the byte a read returns now (R34). -/
  lsr : Byte
  /-- DATA, read side: the byte a read of index 0 returns now (R29). -/
  rbr : Byte
  /-- DATA, write side: the last byte handed over for transmission (R29). -/
  thr : Byte
  /-- IER (R30). -/
  ier : Byte
  /-- FCR (R31). -/
  fcr : Byte
  /-- LCR (R32); bit 7 is DLAB. -/
  lcr : Byte
  /-- MCR (R33). -/
  mcr : Byte
  /-- Divisor low byte (R35). -/
  dll : Byte
  /-- Divisor high byte (R35). -/
  dlm : Byte
  /-- The model's own: the moves to come, one after every step; free bytes when it is empty (log 4). -/
  moves : List DeviceMove
  /-- The model's own: how many free moves there have been (log 4). -/
  tick : Nat
deriving DecidableEq, Repr

/-- One act of the host at the ports of 10_state.md R26. -/
inductive HostAct
  /-- Let one step pass. -/
  | wait
  /-- Present a command word until it is accepted. -/
  | present (w : Word)
  /-- Present `opc` with the DATA byte of the k-th response taken, from 0 (30_encoding.md R87, `$r`; log 18). -/
  | presentData (opc : Byte) (k : Nat)
  /-- Take the response as soon as there is one. -/
  | take
  /-- Assert RST for the next step. -/
  | reset
deriving DecidableEq, Repr

/-- The host: its acts to come, in order, and the response words it has taken, oldest first (log 6). -/
structure HostSide where
  acts : List HostAct
  taken : List Word
deriving DecidableEq, Repr

/-- The whole machine. Registers are those of 10_state.md R21 to R24; the trace is that of 00_scope.md R11, which the
engine never reads. -/
structure State where
  cfg : Cfg
  phase : Phase
  idx : BitVec 3
  opr : Byte
  argr : Byte
  rstat : Byte
  rdata : Byte
  dev : Device
  host : HostSide
  trace : List Event
deriving DecidableEq, Repr

/-- The engine has no fault state and no trap (00_scope.md R12, 60_exceptions.md R210): nothing raises a fault. -/
inductive Fault
deriving DecidableEq, Repr

/-- Where the model gives no meaning (00_scope.md R12c). -/
inductive Refusal
  /-- An instruction without a meaning; raised by `exec` alone, and by no arm of it. Safe. -/
  | notModelled (mnemonic : String)
  /-- Raised by `step`: the construction premise of 40_register_access.md R104 does not hold (R105). Safe. -/
  | preconditionViolated
  /-- Raised by a meaning or by `step` in a pair of PHASE and OPR, or of SEND and IDX, for which 42_sequencer.md R154, R155
  and R159 have no arm. No run reaches one (log 11). Safe. -/
  | noSuchStep
deriving DecidableEq, Repr

/-- The device at power-on: nothing is known of any register (10_state.md R40; log 3). -/
def Device.powerOn : Device :=
  { lsr := Config.powerOnLsr, rbr := Config.powerOnRbr, thr := Config.powerOnThr, ier := Config.powerOnIer,
    fcr := Config.powerOnFcr, lcr := Config.powerOnLcr, mcr := Config.powerOnMcr, dll := Config.powerOnDll,
    dlm := Config.powerOnDlm, moves := [], tick := 0 }

/-- Right after reset (10_state.md R39), with nothing offered by the host and an engine of standard parameters (log 2). -/
def State.reset : State :=
  { cfg := Config.standard, phase := .idle, idx := 0, opr := 0x00, argr := 0x00, rstat := 0x00, rdata := 0x00,
    dev := Device.powerOn, host := { acts := [], taken := [] }, trace := [.reset] }

end Sys2Proof.Machine
end

