-- ==== Sys2Proof/Machine/Flags.lean ====
section
/-! DEFINITION. The flag decoders and the divisor-latch table (41_flag_decoders.md). Bit positions are the spec's, which
takes them from general knowledge of the 16550 where it says so (93_implementation_defined.md G1, G3, G4, G5; PRESUMED,
log 13 and log 14). -/

namespace Sys2Proof.Machine

/-- The byte with bit n set where the flag holds. -/
def flagBit (n : Nat) (f : Bool) : Byte := if f then BitVec.twoPow 8 n else 0

/-- Bit n of a byte, after its unknown bits are dropped (R120). -/
def knownBit (known b : Byte) (n : Nat) : Bool := (b &&& known).getLsbD n

/-! ## Line status (R122) -/

def knownLsr : Byte := 0xFF

structure LsrFlags where
  dataReady : Bool
  overrun : Bool
  parityError : Bool
  framingError : Bool
  breakFlag : Bool
  outputEmpty : Bool
  outputEmptyIdle : Bool
  fifoError : Bool
deriving DecidableEq, Repr

def decodeLsr (b : Byte) : LsrFlags :=
  { dataReady := knownBit knownLsr b 0, overrun := knownBit knownLsr b 1, parityError := knownBit knownLsr b 2,
    framingError := knownBit knownLsr b 3, breakFlag := knownBit knownLsr b 4, outputEmpty := knownBit knownLsr b 5,
    outputEmptyIdle := knownBit knownLsr b 6, fifoError := knownBit knownLsr b 7 }

def encodeLsr (f : LsrFlags) : Byte :=
  flagBit 0 f.dataReady ||| flagBit 1 f.overrun ||| flagBit 2 f.parityError ||| flagBit 3 f.framingError
    ||| flagBit 4 f.breakFlag ||| flagBit 5 f.outputEmpty ||| flagBit 6 f.outputEmptyIdle ||| flagBit 7 f.fifoError

/-- Can DATA take a byte to transmit (R131)? -/
def txReady (c : Cfg) (v : Byte) : Bool := v.getLsbD c.threBit.val

/-- Does DATA hold a received byte (R131)? -/
def rxReady (c : Cfg) (v : Byte) : Bool := v.getLsbD c.drBit.val

/-! ## FIFO control (R123) -/

def knownFcr : Byte := 0xCF

structure FcrFlags where
  enable : Bool
  clearRx : Bool
  clearTx : Bool
  dmaMode : Bool
  /-- Receive watermark: 0, 1, 2, 3 for 1, 4, 8, 14 bytes. -/
  trigger : BitVec 2
deriving DecidableEq, Repr

def decodeFcr (b : Byte) : FcrFlags :=
  { enable := knownBit knownFcr b 0, clearRx := knownBit knownFcr b 1, clearTx := knownBit knownFcr b 2,
    dmaMode := knownBit knownFcr b 3, trigger := (b &&& knownFcr).extractLsb' 6 2 }

def encodeFcr (f : FcrFlags) : Byte :=
  flagBit 0 f.enable ||| flagBit 1 f.clearRx ||| flagBit 2 f.clearTx ||| flagBit 3 f.dmaMode
    ||| (f.trigger ++ (0 : BitVec 6))

/-- The watermark in bytes that a trigger code stands for (10_state.md R31). -/
def triggerBytes (t : BitVec 2) : Nat :=
  match t.toNat with
  | 0 => 1
  | 1 => 4
  | 2 => 8
  | _ => 14

/-! ## Interrupt enable (R124) -/

def knownIer : Byte := 0x0F

structure IerFlags where
  rxAvail : Bool
  txEmpty : Bool
  lineStatus : Bool
  modemStatus : Bool
deriving DecidableEq, Repr

def decodeIer (b : Byte) : IerFlags :=
  { rxAvail := knownBit knownIer b 0, txEmpty := knownBit knownIer b 1, lineStatus := knownBit knownIer b 2,
    modemStatus := knownBit knownIer b 3 }

def encodeIer (f : IerFlags) : Byte :=
  flagBit 0 f.rxAvail ||| flagBit 1 f.txEmpty ||| flagBit 2 f.lineStatus ||| flagBit 3 f.modemStatus

/-! ## Modem control (R125) -/

def knownMcr : Byte := 0x1F

structure McrFlags where
  dtr : Bool
  rts : Bool
  out1 : Bool
  out2 : Bool
  loop : Bool
deriving DecidableEq, Repr

def decodeMcr (b : Byte) : McrFlags :=
  { dtr := knownBit knownMcr b 0, rts := knownBit knownMcr b 1, out1 := knownBit knownMcr b 2,
    out2 := knownBit knownMcr b 3, loop := knownBit knownMcr b 4 }

def encodeMcr (f : McrFlags) : Byte :=
  flagBit 0 f.dtr ||| flagBit 1 f.rts ||| flagBit 2 f.out1 ||| flagBit 3 f.out2 ||| flagBit 4 f.loop

/-! ## Modem status (R126): a pure function with no register behind it (10_state.md R36, 90_conflicts.md C2) -/

def knownMsr : Byte := 0xFF

structure MsrFlags where
  deltaCts : Bool
  deltaDsr : Bool
  trailingRi : Bool
  deltaDcd : Bool
  cts : Bool
  dsr : Bool
  ri : Bool
  dcd : Bool
deriving DecidableEq, Repr

def decodeMsr (b : Byte) : MsrFlags :=
  { deltaCts := knownBit knownMsr b 0, deltaDsr := knownBit knownMsr b 1, trailingRi := knownBit knownMsr b 2,
    deltaDcd := knownBit knownMsr b 3, cts := knownBit knownMsr b 4, dsr := knownBit knownMsr b 5,
    ri := knownBit knownMsr b 6, dcd := knownBit knownMsr b 7 }

def encodeMsr (f : MsrFlags) : Byte :=
  flagBit 0 f.deltaCts ||| flagBit 1 f.deltaDsr ||| flagBit 2 f.trailingRi ||| flagBit 3 f.deltaDcd
    ||| flagBit 4 f.cts ||| flagBit 5 f.dsr ||| flagBit 6 f.ri ||| flagBit 7 f.dcd

/-! ## Line control: no decoder (R127), the field reading of 10_state.md R32 -/

/-- The divisor-latch-access bit, bit 7 (R32). -/
def lcrDlab (v : Byte) : Bool := v.getLsbD 7

/-- The number of data bits: 5, 6, 7, 8 for the codes 0 to 3 of bits 1:0 (R32). -/
def lcrDataBits (v : Byte) : Nat := 5 + (v.extractLsb' 0 2).toNat

/-- One stop bit (bit 2 clear, R32). -/
def lcrOneStop (v : Byte) : Bool := !v.getLsbD 2

/-- Parity enabled (bit 3, R32). -/
def lcrParity (v : Byte) : Bool := v.getLsbD 3

/-- Parity select, bits 5:4 (R32). -/
def lcrParitySel (v : Byte) : BitVec 2 := v.extractLsb' 4 2

/-- Force a break (bit 6, R32). -/
def lcrBreak (v : Byte) : Bool := v.getLsbD 6

/-! ## Divisor latch (R128 to R130) -/

/-- The 16-bit divisor of a pair (R128). -/
def divisor (low high : Byte) : Nat := 256 * high.toNat + low.toNat

/-- The ten rows of R129: baud rate, low byte, high byte (low bytes DEDUCED by the spec, log 15). -/
def divisorTable : List (Nat × Byte × Byte) :=
  [(50, 0x00, 0x09), (300, 0x80, 0x01), (1200, 0x60, 0x00), (2400, 0x30, 0x00), (4800, 0x18, 0x00),
   (9600, 0x0C, 0x00), (19200, 0x06, 0x00), (38400, 0x03, 0x00), (57600, 0x02, 0x00), (115200, 0x01, 0x00)]

/-- Is the pair one of the ten (R130)? -/
def validate (low high : Byte) : Bool := divisorTable.any fun row => row.2.1 == low && row.2.2 == high

end Sys2Proof.Machine
end

