-- ==== Sys2Proof/WellFormed.lean ====
section
/-! DEFINITION. What makes a command, a line of a host program and an engine's parameters well formed. -/

namespace Sys2Proof

/-- Does the command carry an operand byte (30_encoding.md R82)? -/
def Mnemonic.takesOperand : Mnemonic → Bool
  | .SEND | .SENDR | .TSENDR => true
  | .INIT | .LSTS | .RECV | .TRECV => false

/-- Every command of the type is well formed: its operand is a byte, the width of ARG, and any byte is legal (R83). -/
def Instr.wf : Instr → Bool
  | .init | .lsts | .recv | .trecv => true
  | .send _ | .sendr _ | .tsendr _ => true

/-- An operand form that fits ARG: a byte value, or a character of 7-bit code (R87). -/
def AsmOperand.wf : AsmOperand → Bool
  | .byte n => n < 256
  | .char c => c < 128
  | .resp _ => true

/-- A line has an operand exactly when its command takes one (R87), and a text is bytes (R88). -/
def AsmLine.wf : AsmLine → Bool
  | .cmd m none => !m.takesOperand
  | .cmd m (some o) => m.takesOperand && o.wf
  | .wstr text => text.all (· < 256)

/-- The width of this engine's bus addresses (00_scope.md R6, `AW`). -/
def Cfg.aw (c : Cfg) : Nat :=
  match c.backend with
  | .pio => c.awPio
  | .mmio => c.awMmio

/-- The platform's premises, items (a), (b), (c), (d), (f) of R104. -/
def Premises.ok (p : Premises) : Bool :=
  p.genuine && p.aligned && p.exclusive && p.privileged && p.mapped

/-- The construction premise of 40_register_access.md R104: the platform's items, item (e) on BASE and STRIDE, and two
distinct line-status bits (00_scope.md R6). -/
def Cfg.ok (c : Cfg) : Bool :=
  c.premises.ok
    && decide (1 ≤ c.stride)
    && (c.backend != .pio || c.stride == 1)
    && decide (c.base + 5 * c.stride < 2 ^ c.aw)
    && c.drBit != c.threBit

end Sys2Proof
end

