-- ==== Sys2Proof/Decode.lean ====
section
/-! DEFINITION. Command words to commands and back (30_encoding.md R80 to R85, R91). -/

namespace Sys2Proof

/-! ## Fields of a word (R80, R81) -/

/-- Bits 15:8: OPC of a command word, STATUS of a response word. -/
def highByte (w : Word) : Byte := w.extractLsb' 8 8

/-- Bits 7:0: ARG of a command word, DATA of a response word. -/
def lowByte (w : Word) : Byte := w.extractLsb' 0 8

/-- The word with the given two bytes. -/
def wordOf (hi lo : Byte) : Word := hi ++ lo

/-! ## The opcode map (R82) -/

/-- OPC of a command. -/
def Mnemonic.opcode : Mnemonic → Byte
  | .INIT => 0x01
  | .LSTS => 0x02
  | .SEND => 0x10
  | .SENDR => 0x11
  | .TSENDR => 0x13
  | .RECV => 0x20
  | .TRECV => 0x22

/-- Which command an instruction is. -/
def Instr.mnemonic : Instr → Mnemonic
  | .init => .INIT
  | .lsts => .LSTS
  | .send _ => .SEND
  | .sendr _ => .SENDR
  | .tsendr _ => .TSENDR
  | .recv => .RECV
  | .trecv => .TRECV

def Instr.opcode (i : Instr) : Byte := i.mnemonic.opcode

/-- ARG of an instruction's word; 0x00 where it has no operand (R84). -/
def Instr.operand : Instr → Byte
  | .send b | .sendr b | .tsendr b => b
  | .init | .lsts | .recv | .trecv => 0x00

/-- The command that an opcode selects, with `arg` for its operand where it takes one (R82). The whole byte is matched. -/
def ofOpcode (opc arg : Byte) : Option Instr :=
  if opc = Mnemonic.INIT.opcode then some .init
  else if opc = Mnemonic.LSTS.opcode then some .lsts
  else if opc = Mnemonic.SEND.opcode then some (.send arg)
  else if opc = Mnemonic.SENDR.opcode then some (.sendr arg)
  else if opc = Mnemonic.TSENDR.opcode then some (.tsendr arg)
  else if opc = Mnemonic.RECV.opcode then some .recv
  else if opc = Mnemonic.TRECV.opcode then some .trecv
  else none

/-! ## Decode (R91) -/

/-- Why a word is illegal (R85). The engine answers both alike (60_exceptions.md R212). -/
inductive Illegal
  /-- OPC is none of the seven opcodes. -/
  | undefinedOpcode (opc : Byte)
  /-- A command without operand, with ARG not 0x00 (R84). -/
  | reservedArg (opc arg : Byte)
deriving DecidableEq, Repr

/-- What a command word is: one of the seven commands, or illegal (R91). -/
inductive Decoded
  | cmd (i : Instr)
  | illegal (why : Illegal)
deriving DecidableEq, Repr

/-- The total decoder of R91. -/
def decode (w : Word) : Decoded :=
  match ofOpcode (highByte w) (lowByte w) with
  | none => .illegal (.undefinedOpcode (highByte w))
  | some i =>
    if i.operand = lowByte w then .cmd i
    else .illegal (.reservedArg (highByte w) (lowByte w))

/-- The command of a legal word. -/
def Decoded.instr? : Decoded → Option Instr
  | .cmd i => some i
  | .illegal _ => none

/-! ## Encode (R80, R82, R84) -/

/-- The command word of an instruction. -/
def encode (i : Instr) : Word := wordOf i.opcode i.operand

/-! ## The opcode table's numbering -/

/-- The 16-bit word whose low `nbits` bits are those of `w` and whose other bits are 0. -/
def tableWord (nbits w : Nat) : Word := BitVec.ofNat 16 (w % 2 ^ nbits)

/-- The instruction the decoder reads from a table row's bits. A command is one word of 16 bits that crosses the port
whole (20_memory.md R55), so the table's numbering is the word's own. -/
def decodeTableWord (nbits w : Nat) : Option Instr :=
  if nbits ≤ 16 then (decode (tableWord nbits w)).instr? else none

end Sys2Proof
end

