-- ==== Sys2Proof/Machine/Operands.lean ====
section
/-! DEFINITION. Register indices and addresses (40_register_access.md R102, R103), the operand byte of a transmit command
(42_sequencer.md R159) and the bring-up table (43_init.md R171). -/

namespace Sys2Proof.Machine

/-! ## Addresses -/

/-- The register index, 0 to 5 (10_state.md R28). -/
def RegIndex.toNat : RegIndex → Nat
  | .data => 0
  | .ier => 1
  | .fcr => 2
  | .lcr => 3
  | .mcr => 4
  | .lsr => 5

/-- The register set, in the order of its indices (R28). -/
def RegIndex.all : List RegIndex := [.data, .ier, .fcr, .lcr, .mcr, .lsr]

/-- `Addr(i) = BASE + i*STRIDE` over the natural numbers (R103). -/
def addr (c : Cfg) (i : RegIndex) : Nat := c.base + i.toNat * c.stride

/-- The space of every transaction of an engine (R100, 20_memory.md R50). -/
def space (c : Cfg) : Space :=
  match c.backend with
  | .pio => .io
  | .mmio => .mem

/-- The register at a bus address, if it is one of the six (20_memory.md R51). -/
def regAt (c : Cfg) (a : Nat) : Option RegIndex := RegIndex.all.find? fun i => addr c i == a

/-! ## The transmit byte (R159) -/

/-- Does the command expand to the erase sequence? Only SEND of 0x08 or 0x7F does. -/
def expands (opr argr : Byte) : Bool :=
  opr == Mnemonic.SEND.opcode && (argr == 0x08 || argr == 0x7F)

/-- The bytes an expanding SEND emits (45_transmit.md R187). -/
def eraseSequence : List Byte := [0x08, 0x20, 0x08]

/-- How many raw sends the command makes. -/
def txCount (opr argr : Byte) : Nat := if expands opr argr then 3 else 1

/-- The byte of the next raw send; none where an expanding SEND would index past its three bytes, which no run does. -/
def txByte (opr argr : Byte) (idx : BitVec 3) : Option Byte :=
  if expands opr argr then eraseSequence[idx.toNat]? else some argr

/-- The bytes a SEND of b puts on the line, in order (45_transmit.md R187). -/
def sendBytes (b : Byte) : List Byte := if b = 0x08 ∨ b = 0x7F then eraseSequence else [b]

/-! ## The bring-up table (R171) -/

/-- Row k of the bring-up table: register and value. -/
def initRow (k : BitVec 3) : RegIndex × Byte :=
  match k.toNat with
  | 0 => (.ier, 0x00)
  | 1 => (.lcr, 0x80)
  | 2 => (.data, 0x03)
  | 3 => (.ier, 0x00)
  | 4 => (.lcr, 0x03)
  | 5 => (.fcr, 0xC7)
  | 6 => (.mcr, 0x0B)
  | _ => (.ier, 0x01)

end Sys2Proof.Machine
end

