-- ==== Sys2Proof/Machine/Ops.lean ====
section
/-! DEFINITION. The named operations over the register bus and the engine's registers: the register capability
(40_register_access.md), the device's side of it (10_state.md), responses (00_scope.md R10, 60_exceptions.md R217) and the
steps of 42_sequencer.md that several commands share. -/

namespace Sys2Proof.Machine

/-! ## The device's side of the bus -/

/-- The divisor-latch-access bit as last written (10_state.md R32, R37). -/
def Device.dlab (d : Device) : Bool := lcrDlab d.lcr

/-- What a read of register i returns: any byte (20_memory.md R65). The engine reads indices 0 and 5 only (R28). With
DLAB = 1 the byte at index 0 is the divisor's (R35); `rbr`, being arbitrary, allows it (log 9). -/
def Device.answer (d : Device) : RegIndex → Byte
  | .data => d.rbr
  | .lsr => d.lsr
  | .ier => Config.freeUnread 1 d.tick
  | .fcr => Config.freeUnread 2 d.tick
  | .lcr => Config.freeUnread 3 d.tick
  | .mcr => Config.freeUnread 4 d.tick

/-- A write of v to register i lands in the register the index names now: indices 0 and 1 are the divisor's bytes while
DLAB = 1 (20_memory.md R63). The engine never writes index 5, and such a write has no effect the spec names (log 10). -/
def Device.write (d : Device) (i : RegIndex) (v : Byte) : Device :=
  match i with
  | .data => if d.dlab then { d with dll := v } else { d with thr := v }
  | .ier => if d.dlab then { d with dlm := v } else { d with ier := v }
  | .fcr => { d with fcr := v }
  | .lcr => { d with lcr := v }
  | .mcr => { d with mcr := v }
  | .lsr => d

/-- The device's own step between two engine steps: the next planned move, or free bytes (42_sequencer.md R150; log 4). -/
def Device.move (d : Device) : Device :=
  match d.moves with
  | m :: ms => { d with lsr := m.lsr, rbr := m.rbr, moves := ms }
  | [] => { d with lsr := Config.freeLsr d.tick, rbr := Config.freeRbr d.tick, tick := d.tick + 1 }

/-- The state of one of the two readiness machines of 10_state.md R38. -/
inductive Readiness
  | idle
  | ready
deriving DecidableEq, Repr

def readinessOf (set : Bool) : Readiness := if set then .ready else .idle

/-- The transmit machine: the current value of OUTPUT_EMPTY (R38). -/
def txMachine (s : State) : Readiness := readinessOf (txReady s.cfg s.dev.lsr)

/-- The receive machine: the current value of DATA_READY (R38). -/
def rxMachine (s : State) : Readiness := readinessOf (rxReady s.cfg s.dev.lsr)

/-! ## The register capability (R100, R101) -/

/-- Append an event to the trace (00_scope.md R11). -/
def log (e : Event) (s : State) : State := { s with trace := s.trace ++ [e] }

/-- `RegRead(i)`: one bus read at `Addr(i)`; the value and the state after it (R100). -/
def regRead (i : RegIndex) (s : State) : Byte × State :=
  (s.dev.answer i, log (.read (space s.cfg) (addr s.cfg i) (s.dev.answer i)) s)

/-- `RegWrite(i, v)`: one bus write of all eight bits at `Addr(i)` (R101). -/
def regWrite (i : RegIndex) (v : Byte) (s : State) : State :=
  log (.write (space s.cfg) (addr s.cfg i) v) { s with dev := s.dev.write i v }

/-! ## Responses (00_scope.md R10; 30_encoding.md R81, R86) -/

def statusOk : Byte := 0x00
def statusWouldBlock : Byte := 0x01
def statusIllegal : Byte := 0x02

/-- `respond(S, D)` (00_scope.md R10). -/
def respond (status data : Byte) (s : State) : State :=
  log (.resp status data) { s with rstat := status, rdata := data, phase := .done }

/-- Taking an exception: a response whose status is not OK and whose data byte is 0x00; nothing is saved and control goes
nowhere (60_exceptions.md R217). -/
def raise (status : Byte) (s : State) : State := respond status 0x00 s

/-- The WOULD_BLOCK condition (R211). -/
def wouldBlock (s : State) : State := raise statusWouldBlock s

/-- The response word on the response port (10_state.md R26, 30_encoding.md R81). -/
def respWord (s : State) : Word := wordOf s.rstat s.rdata

/-- `CMD_READY` (R26). -/
def cmdReady (s : State) : Bool := s.phase == .idle

/-- `RESP_VALID` (R26). -/
def respValid (s : State) : Bool := s.phase == .done

/-- Return from an exception, and from every command: the take step (42_sequencer.md R156, 60_exceptions.md R218). The
host reads the response word; nothing is restored. -/
def take (s : State) : State :=
  { s with phase := .idle, host := { s.host with taken := s.host.taken ++ [respWord s] } }

/-- The spin hint (42_sequencer.md R158): one event, no state (log 16). -/
def hint (s : State) : State := log .hint s

/-! ## Accept (R151) -/

/-- The registers and the trace of the accept step, before its dispatch. -/
def latchCommand (w : Word) (s : State) : State :=
  log (.cmd w) { s with opr := highByte w, argr := lowByte w, idx := 0 }

/-- Accept of a legal command, whose first phase is INIT for INIT and POLL for the others (R151). -/
def accept (i : Instr) (first : Phase) (s : State) : State := { latchCommand (encode i) s with phase := first }

/-- Accept of an illegal word: the ILLEGAL condition (R151, 60_exceptions.md R212). -/
def acceptIllegal (w : Word) (s : State) : State := raise statusIllegal (latchCommand w s)

/-! ## The engine's own steps -/

/-- The INIT step (R153). -/
def initStep (s : State) : State :=
  let t := regWrite (initRow s.idx).1 (initRow s.idx).2 s
  if s.idx.toNat < 7 then { t with idx := s.idx + 1 } else respond statusOk 0x00 t

/-- The poll step of LSTS (R154, 44_line_status.md R180). -/
def pollStatus (s : State) : State :=
  let r := regRead .lsr s
  respond statusOk (encodeLsr (decodeLsr r.1)) r.2

/-- The poll step of a transfer command (R154): one read of LSR, one bit of it tested. -/
def pollTransfer (ready : Cfg → Byte → Bool) (notReady : State → State) (s : State) : State :=
  let r := regRead .lsr s
  if ready s.cfg r.1 then { r.2 with phase := .access } else notReady r.2

/-- The access step of a transmit command (R155): one write of DATA, then the next poll loop or the response. -/
def accessTransmit (s : State) : Host.Outcome State Fault Refusal :=
  match txByte s.opr s.argr s.idx with
  | none => .refused .noSuchStep
  | some b =>
    let t := regWrite .data b s
    if s.idx.toNat + 1 < txCount s.opr s.argr then .next { t with idx := s.idx + 1, phase := .poll }
    else .next (respond statusOk 0x00 t)

/-- The access step of a receive command (R155): one read of DATA, and the response. -/
def accessReceive (s : State) : State :=
  let r := regRead .data s
  respond statusOk r.1 r.2

/-- The life of a transfer command, by PHASE (R150): accept, poll, access, and its response held until the host takes it.
PHASE is INIT in INIT alone (R151). -/
def transferCommand (i : Instr) (pollStep : State → State)
    (accessStep : State → Host.Outcome State Fault Refusal) (s : State) : Host.Outcome State Fault Refusal :=
  match s.phase with
  | .idle => .next (accept i .poll s)
  | .init => .refused .noSuchStep
  | .poll => .next (pollStep s)
  | .access => accessStep s
  | .done => .next s

/-! ## Reset and construction -/

/-- The reset step: engine registers to their reset values, the device and CFG untouched (10_state.md R39,
42_sequencer.md R157, 70_reset_and_hazards.md R240, R241). -/
def resetEngine (s : State) : State :=
  log .reset { s with phase := .idle, idx := 0, opr := 0x00, argr := 0x00, rstat := 0x00, rdata := 0x00 }

/-- An engine with the given parameters in its reset state (40_register_access.md R106, R107). -/
def construct (c : Cfg) : State := { State.reset with cfg := c }

/-- `new(base)`: either backend, stride 1 (R106). -/
def newEngine (c : Cfg) (backend : Backend) (base : Nat) : State :=
  construct { c with backend := backend, base := base, stride := 1 }

/-- `new_with_stride(base, stride)`: the memory backend (R107). -/
def newWithStride (c : Cfg) (base stride : Nat) : State :=
  construct { c with backend := .mmio, base := base, stride := stride }

end Sys2Proof.Machine
end

