-- ==== Sys2Proof/Machine/Init.lean ====
section
/-! DEFINITION. INIT, the bring-up sequence (43_init.md). -/

namespace Sys2Proof.Machine

/-- INIT: eight writes, one a step, no test of any device state, then (OK, 0x00) (R170, 42_sequencer.md R153). INIT never
polls and never makes a data access. -/
def execInit (s : State) : Host.Outcome State Fault Refusal :=
  match s.phase with
  | .idle => .next (accept .init .init s)
  | .init => .next (initStep s)
  | .poll => .refused .noSuchStep
  | .access => .refused .noSuchStep
  | .done => .next s

end Sys2Proof.Machine
end

