-- ==== Sys2Proof/Machine/LineStatus.lean ====
section
/-! DEFINITION. LSTS, the line-status query (44_line_status.md). -/

namespace Sys2Proof.Machine

/-- LSTS: one read of LSR, then (OK, the byte) (R180). It has no access step. -/
def execLsts (s : State) : Host.Outcome State Fault Refusal :=
  transferCommand .lsts pollStatus (fun _ => .refused .noSuchStep) s

end Sys2Proof.Machine
end

