-- ==== Sys2Proof/Machine/Receive.lean ====
section
/-! DEFINITION. RECV, TRECV (46_receive.md). -/

namespace Sys2Proof.Machine

/-- RECV: blocking; one read of DATA, returned unchanged; error bits ignored (R200, R202). -/
def execRecv (s : State) : Host.Outcome State Fault Refusal :=
  transferCommand .recv (pollTransfer rxReady hint) (fun t => .next (accessReceive t)) s

/-- TRECV: one poll; the read, or WOULD_BLOCK (R201). -/
def execTrecv (s : State) : Host.Outcome State Fault Refusal :=
  transferCommand .trecv (pollTransfer rxReady wouldBlock) (fun t => .next (accessReceive t)) s

end Sys2Proof.Machine
end

