-- ==== Sys2Proof/Machine/Transmit.lean ====
section
/-! DEFINITION. SEND, SENDR, TSENDR (45_transmit.md). The byte sent is the one latched in ARGR, through 42_sequencer.md
R159. -/

namespace Sys2Proof.Machine

/-- SEND b: blocking; 0x08 and 0x7F become three raw sends, each with its own poll loop; no line-feed translation
(R187, R188). -/
def execSend (b : Byte) (s : State) : Host.Outcome State Fault Refusal :=
  transferCommand (.send b) (pollTransfer txReady hint) accessTransmit s

/-- SENDR b: blocking, no transform (R185). -/
def execSendr (b : Byte) (s : State) : Host.Outcome State Fault Refusal :=
  transferCommand (.sendr b) (pollTransfer txReady hint) accessTransmit s

/-- TSENDR b: one poll; the write, or WOULD_BLOCK (R186). -/
def execTsendr (b : Byte) (s : State) : Host.Outcome State Fault Refusal :=
  transferCommand (.tsendr b) (pollTransfer txReady wouldBlock) accessTransmit s

end Sys2Proof.Machine
end

