-- ==== Sys2Proof/Machine/Dispatch.lean ====
section
/-! DEFINITION. One arm per instruction: the step that instruction takes at the current PHASE (42_sequencer.md). -/

namespace Sys2Proof.Machine

def exec (i : Instr) (s : State) : Host.Outcome State Fault Refusal :=
  match i with
  | .init => Sys2Proof.Machine.execInit s
  | .lsts => Sys2Proof.Machine.execLsts s
  | .send b => Sys2Proof.Machine.execSend b s
  | .sendr b => Sys2Proof.Machine.execSendr b s
  | .tsendr b => Sys2Proof.Machine.execTsendr b s
  | .recv => Sys2Proof.Machine.execRecv s
  | .trecv => Sys2Proof.Machine.execTrecv s

end Sys2Proof.Machine
end

