-- ==== Sys2Proof/Machine/Sequencer.lean ====
section
/-! DEFINITION. Which step is taken (42_sequencer.md R150): the host's side of the two ports, the command the next step
runs, and the device's move after it. -/

namespace Sys2Proof.Machine

/-! ## The host's side (10_state.md R26) -/

/-- The word on the command port, if the host presents one (R151). `presentData` waits for the response it names, by its
number among all that the host has taken, from 0 (30_encoding.md R87; DESIGN CHOICE, log 18, safe). -/
def HostSide.offered (h : HostSide) : Option Word :=
  match h.acts with
  | .present w :: _ => some w
  | .presentData opc k :: _ => h.taken[k]?.map fun r => wordOf opc (lowByte r)
  | .wait :: _ | .take :: _ | .reset :: _ | [] => none

/-- Does the host assert RST for this step (R157)? -/
def HostSide.assertsReset (h : HostSide) : Bool := h.acts.head? == some .reset

/-- Does the host acknowledge the response (R156)? -/
def HostSide.takes (h : HostSide) : Bool := h.acts.head? == some .take

/-- The acts left after a step taken at phase p: `wait` and `reset` are spent by any step, a word by its acceptance, a take
by the take step; an act that is not enabled waits (R151, R156; log 6). -/
def HostSide.actsAfter (h : HostSide) (p : Phase) : List HostAct :=
  match h.acts with
  | [] => []
  | .wait :: rest => rest
  | .reset :: rest => rest
  | .take :: rest => if p = .done then rest else h.acts
  | .present _ :: rest => if p = .idle then rest else h.acts
  | .presentData _ _ :: rest => if p = .idle ∧ h.offered.isSome then rest else h.acts

/-! ## The command a step runs -/

/-- The command that the next step runs, if it runs one: at IDLE the legal word on the command port, in the phases INIT,
POLL and ACCESS the command in execution. Phase INIT is enabled by PHASE alone (R150, R153); POLL and ACCESS select by OPR
(R154, R155). -/
def fetch (s : State) : Option Instr :=
  if s.host.assertsReset then none
  else
    match s.phase with
    | .idle => s.host.offered.bind fun w => (decode w).instr?
    | .init => some .init
    | .poll => ofOpcode s.opr s.argr
    | .access => ofOpcode s.opr s.argr
    | .done => none

/-- The step of engine and host: reset first (60_exceptions.md R216), else by PHASE (R150). Where no word is offered at
IDLE, or no take at DONE, the engine waits unchanged (R151, R156; log 7). -/
def engineStep (s : State) : Host.Outcome State Fault Refusal :=
  if s.host.assertsReset then .next (resetEngine s)
  else
    match fetch s with
    | some i => exec i s
    | none =>
      match s.phase with
      | .idle =>
        match s.host.offered with
        | some w => .next (acceptIllegal w s)
        | none => .next s
      | .done => if s.host.takes then .next (take s) else .next s
      | .init => .refused .noSuchStep
      | .poll => .refused .noSuchStep
      | .access => .refused .noSuchStep

/-- What follows every step: the host goes on from the state `s` the step was taken in, and the device moves (R150). -/
def settle (s t : State) : State :=
  { t with host := { t.host with acts := s.host.actsAfter s.phase }, dev := t.dev.move }

/-- Apply a function to the next state, if there is one. -/
def mapNext (f : State → State) : Host.Outcome State Fault Refusal → Host.Outcome State Fault Refusal
  | .next t => .next (f t)
  | .fault e => .fault e
  | .refused r => .refused r

/-- The host presents a command word to an engine that is ready for it. -/
def offerWord (w : Word) (s : State) : State :=
  { s with phase := .idle, host := { s.host with acts := .present w :: s.host.acts } }

end Sys2Proof.Machine
end

