-- ==== Sys2Proof/Machine/Step.lean ====
section
/-! DEFINITION. One step of the whole machine, and the host's hook that presents an instruction. -/

namespace Sys2Proof.Machine

/-- One step: refused where the construction premise does not hold (40_register_access.md R105), else one step of engine
and host, and then the device's move (42_sequencer.md R150). -/
def step (s : State) : Host.Outcome State Fault Refusal :=
  if s.cfg.ok then mapNext (settle s) (engineStep s) else .refused .preconditionViolated

/-- k steps; it stops at the first refusal. -/
def steps : Nat → State → Host.Outcome State Fault Refusal
  | 0, s => .next s
  | k + 1, s =>
    match step s with
    | .next t => steps k t
    | .fault e => .fault e
    | .refused r => .refused r

/-- A program is not fetched: the host presents its words (log 21). The very next step accepts this one. -/
def State.withFetchWord (s : State) (nbits w : Nat) : State := offerWord (tableWord nbits w) s

end Sys2Proof.Machine
end

