-- ==== Sys2Proof/Machine/Assembler.lean ====
section
/-! DEFINITION. Host programs: the syntax of 30_encoding.md R87 and R88, and the host's acts that a program stands for. A
line is the list of its characters' codes. What R87 leaves open of the syntax is fixed here (DESIGN CHOICE, log 18, safe):
spaces separate, both cases of hexadecimal digits, `0x` takes two digits, `$name` is any name. -/

namespace Sys2Proof.Machine

/-! ## From lines to the host's acts -/

/-- The command word of a command with operand byte b. -/
def commandWord (m : Mnemonic) (b : Byte) : Word := wordOf m.opcode b

/-- The SEND commands of a text, in order (R88, 45_transmit.md R190). -/
def wstrWords (text : List Byte) : List Word := text.map fun b => encode (.send b)

/-- Issue one command, then take its response before anything else (R88, 42_sequencer.md R151). -/
def issue (w : Word) : List HostAct := [.present w, .take]

/-- The host's acts for a text (R88). -/
def wstrActs (text : List Byte) : List HostAct := (wstrWords text).flatMap issue

/-- The host's acts for a line; none for an ill-formed one. -/
def lineActs (l : AsmLine) : Option (List HostAct) :=
  if !l.wf then none
  else
    match l with
    | .cmd m none => some (issue (commandWord m 0x00))
    | .cmd m (some (.byte n)) => some (issue (commandWord m (BitVec.ofNat 8 n)))
    | .cmd m (some (.char c)) => some (issue (commandWord m (BitVec.ofNat 8 c)))
    | .cmd m (some (.resp k)) => some [.presentData m.opcode k, .take]
    | .wstr text => some (wstrActs (text.map (BitVec.ofNat 8)))

/-- How many commands, and so responses, a line makes. -/
def lineCommands : AsmLine → Nat
  | .cmd _ _ => 1
  | .wstr text => text.length

/-- The host's acts for a program. -/
def assemble : List AsmLine → Option (List HostAct)
  | [] => some []
  | l :: ls =>
    match lineActs l, assemble ls with
    | some a, some as => some (a ++ as)
    | _, _ => none

/-! ## From text to lines -/

/-- The value of a hexadecimal digit's code. -/
def hexDigit (c : Nat) : Option Nat :=
  if 0x30 ≤ c ∧ c ≤ 0x39 then some (c - 0x30)
  else if 0x41 ≤ c ∧ c ≤ 0x46 then some (c - 0x41 + 10)
  else if 0x61 ≤ c ∧ c ≤ 0x66 then some (c - 0x61 + 10)
  else none

/-- Two hexadecimal digits. -/
def hexPair (h l : Nat) : Option Nat :=
  match hexDigit h, hexDigit l with
  | some a, some b => some (16 * a + b)
  | _, _ => none

/-- A decimal number, read onto `acc`. -/
def decimalOnto (acc : Nat) : List Nat → Option Nat
  | [] => some acc
  | c :: cs => if 0x30 ≤ c ∧ c ≤ 0x39 then decimalOnto (10 * acc + (c - 0x30)) cs else none

/-- Drop leading spaces. -/
def skipSpaces (cs : List Nat) : List Nat := cs.dropWhile (· == 0x20)

/-- The first word of a line, and what follows its spaces. -/
def splitWord (cs : List Nat) : List Nat × List Nat :=
  (cs.takeWhile (· != 0x20), skipSpaces (cs.dropWhile (· != 0x20)))

/-- The mnemonics of R82 by their letters' codes. -/
def parseMnemonic (w : List Nat) : Option Mnemonic :=
  if w = [73, 78, 73, 84] then some .INIT
  else if w = [76, 83, 84, 83] then some .LSTS
  else if w = [83, 69, 78, 68] then some .SEND
  else if w = [83, 69, 78, 68, 82] then some .SENDR
  else if w = [84, 83, 69, 78, 68, 82] then some .TSENDR
  else if w = [82, 69, 67, 86] then some .RECV
  else if w = [84, 82, 69, 67, 86] then some .TRECV
  else none

/-- Which command's response each name stands for, latest first. -/
abbrev Names := List (List Nat × Nat)

/-- An operand (R87): `0xHH`, a character in single quotes, `$name`, or a decimal number. -/
def parseOperand (names : Names) : List Nat → Option AsmOperand
  | [0x30, 0x78, h, l] => (hexPair h l).map .byte
  | [0x27, c, 0x27] => some (.char c)
  | 0x24 :: name => (names.find? fun e => e.1 == name).map fun e => .resp e.2
  | [] => none
  | c :: cs => (decimalOnto 0 (c :: cs)).map .byte

/-- Is a raw code in a quoted text a character that stands for itself (R88)? The spec fixes no character encoding and sends
a multi-byte text byte by byte as given (45_transmit.md R190): 0x20 to 0x7E, and every byte from 0x80 up, count as printable;
control codes and 0x7F do not (DESIGN CHOICE, log 18, safe). A backslash begins an escape. -/
def isTextChar (c : Nat) : Bool :=
  (decide (0x20 ≤ c) && decide (c ≤ 0x7E) && c != 0x5C) || (decide (0x80 ≤ c) && decide (c ≤ 0xFF))

/-- The bytes of a quoted text up to its closing quote, and what follows (R88). -/
def parseText : List Nat → Option (List Nat × List Nat)
  | [] => none
  | 0x22 :: rest => some ([], rest)
  | 0x5C :: 0x78 :: h :: l :: rest =>
    match hexPair h l, parseText rest with
    | some b, some (bs, r) => some (b :: bs, r)
    | _, _ => none
  | 0x5C :: e :: rest =>
    let code := if e = 0x6E then some 0x0A else if e = 0x72 then some 0x0D else if e = 0x62 then some 0x08
      else if e = 0x5C then some 0x5C else if e = 0x22 then some 0x22 else none
    match code, parseText rest with
    | some b, some (bs, r) => some (b :: bs, r)
    | _, _ => none
  | c :: rest =>
    if isTextChar c then (parseText rest).map fun p => (c :: p.1, p.2) else none

/-- A command or WSTR, after any name it is bound to (R87, R88). -/
def parseCommand (names : Names) (cs : List Nat) : Option AsmLine :=
  let (word, rest) := splitWord (skipSpaces cs)
  if word = [87, 83, 84, 82] then
    match rest with
    | 0x22 :: t =>
      match parseText t with
      | some (bytes, after) => if skipSpaces after = [] then some (.wstr bytes) else none
      | none => none
    | _ => none
  else
    match parseMnemonic word with
    | none => none
    | some m =>
      match rest with
      | [] => some (.cmd m none)
      | 0x27 :: c :: 0x27 :: after => if skipSpaces after = [] then some (.cmd m (some (.char c))) else none
      | _ =>
        let (o, after) := splitWord rest
        if after = [] then (parseOperand names o).map fun x => .cmd m (some x) else none

/-- A line, with the names known before it and the number of commands before it; `$name = ` binds the line's response (R87).
R88 discards a text's responses and does not say whether WSTR may be bound: here it may, to the response of its first byte,
or, for an empty text, to that of the next command (DESIGN CHOICE, log 18, safe). -/
def parseLine (names : Names) (n : Nat) (cs : List Nat) : Option (AsmLine × Names) :=
  match skipSpaces cs with
  | 0x24 :: rest =>
    let (name, after) := splitWord rest
    match splitWord after with
    | ([0x3D], command) => (parseCommand names command).map fun l => (l, (name, n) :: names)
    | _ => none
  | command => (parseCommand names command).map fun l => (l, names)

/-- The lines of a program. -/
def parseLines (names : Names) (n : Nat) : List (List Nat) → Option (List AsmLine)
  | [] => some []
  | cs :: rest =>
    match parseLine names n cs with
    | none => none
    | some (l, names') => (parseLines names' (n + lineCommands l) rest).map fun ls => l :: ls

/-- The host's acts for a program's text. R87 does not say where a program begins in what the host does: its responses are
numbered from 0, so it is the host's first (no response taken before it) and no reset drops one of its commands (DESIGN
CHOICE, log 18, safe). -/
def assembleText (program : List (List Nat)) : Option (List HostAct) :=
  (parseLines [] 0 program).bind assemble

end Sys2Proof.Machine
end

