-- ==== Sys2Proof/Machine/Sim.lean ====
section
/-! DEFINITION. The reference test environment SIM (20_memory.md R68): a device of six plain bytes and a write log. It is an
instance of the arbitrary device of R65: `simStep` runs the machine's own step. -/

namespace Sys2Proof.Machine

/-- The six bytes `sim[0..5]` and the log of writes, oldest first (R68). -/
structure Sim where
  data : Byte
  ier : Byte
  fcr : Byte
  lcr : Byte
  mcr : Byte
  lsr : Byte
  log : List (RegIndex × Byte)
deriving DecidableEq, Repr

/-- `sim[i]`, what `RegRead(i)` returns. -/
def Sim.get (m : Sim) : RegIndex → Byte
  | .data => m.data
  | .ier => m.ier
  | .fcr => m.fcr
  | .lcr => m.lcr
  | .mcr => m.mcr
  | .lsr => m.lsr

/-- The controller's `sim[i] <- v`. -/
def Sim.poke (m : Sim) (i : RegIndex) (v : Byte) : Sim :=
  match i with
  | .data => { m with data := v }
  | .ier => { m with ier := v }
  | .fcr => { m with fcr := v }
  | .lcr => { m with lcr := v }
  | .mcr => { m with mcr := v }
  | .lsr => { m with lsr := v }

/-- `RegWrite(i, v)`: the byte and the log. -/
def Sim.write (m : Sim) (i : RegIndex) (v : Byte) : Sim :=
  let n := m.poke i v
  { n with log := n.log ++ [(i, v)] }

/-- The effect on SIM of one event of a trace: a write at one of the six addresses is a register write. -/
def Sim.absorb (c : Cfg) (m : Sim) : Event → Sim
  | .write _ a v =>
    match regAt c a with
    | some i => m.write i v
    | none => m
  | .cmd _ | .read _ _ _ | .hint | .resp _ _ | .reset => m

/-- The state in which the device answers what SIM holds. -/
def Sim.answering (m : Sim) (s : State) : State := { s with dev := { s.dev with lsr := m.lsr, rbr := m.data } }

/-- One step of the machine with SIM for its device. -/
def simStep (m : Sim) (s : State) : Host.Outcome (Sim × State) Fault Refusal :=
  match step (m.answering s) with
  | .next t => .next ((t.trace.drop s.trace.length).foldl (Sim.absorb s.cfg) m, t)
  | .fault e => .fault e
  | .refused r => .refused r

/-- k steps with SIM for the device, the controller doing nothing. -/
def simSteps : Nat → Sim → State → Host.Outcome (Sim × State) Fault Refusal
  | 0, m, s => .next (m, s)
  | k + 1, m, s =>
    match simStep m s with
    | .next (m', t) => simSteps k m' t
    | .fault e => .fault e
    | .refused r => .refused r

/-- The controller's changes of SIM before one step, in order. -/
def Sim.pokes (m : Sim) (changes : List (RegIndex × Byte)) : Sim := changes.foldl (fun n c => n.poke c.1 c.2) m

/-- One step for each entry, after the controller's changes in that entry (R68). -/
def simRun : List (List (RegIndex × Byte)) → Sim → State → Host.Outcome (Sim × State) Fault Refusal
  | [], m, s => .next (m, s)
  | changes :: rest, m, s =>
    match simStep (m.pokes changes) s with
    | .next (m', t) => simRun rest m' t
    | .fault e => .fault e
    | .refused r => .refused r

end Sys2Proof.Machine
end

