-- ==== Sys2Proof/Safety.lean ====
section
/-! DEFINITION. What claims are stated in: the bus part of a trace, the invariants of a run, and the named device premises
of 20_memory.md R66. -/

namespace Sys2Proof.Machine

/-! ## Commands in execution -/

/-- Is it one of SEND, SENDR, TSENDR, by OPR? -/
def isTransmit (opr : Byte) : Bool := opr == 0x10 || opr == 0x11 || opr == 0x13

/-- Is it RECV or TRECV, by OPR? -/
def isReceive (opr : Byte) : Bool := opr == 0x20 || opr == 0x22

/-- The instruction is the one latched in OPR and ARGR. -/
def latched (i : Instr) (s : State) : Prop := s.opr = i.opcode ∧ s.argr = i.operand

/-- A command is in execution. -/
def busy (s : State) : Bool := s.phase == .init || s.phase == .poll || s.phase == .access

/-- The readiness bit that a command looks at (42_sequencer.md R154). -/
def readyFor (c : Cfg) (opr v : Byte) : Bool := if isTransmit opr then txReady c v else rxReady c v

/-! ## The bus part of a trace (00_scope.md R11) -/

/-- A read of register i that returned v. -/
abbrev readEvent (c : Cfg) (i : RegIndex) (v : Byte) : Event := .read (space c) (addr c i) v

/-- A write of v to register i. -/
abbrev writeEvent (c : Cfg) (i : RegIndex) (v : Byte) : Event := .write (space c) (addr c i) v

/-- The events of a blocking command's not-ready polls: each line-status byte read, then the hint (42_sequencer.md R154,
R158). -/
def spinEvents (c : Cfg) (answers : List Byte) : List Event :=
  answers.flatMap fun v => [readEvent c .lsr v, .hint]

def Event.isBus : Event → Bool
  | .read _ _ _ => true
  | .write _ _ _ => true
  | .cmd _ | .hint | .resp _ _ | .reset => false

/-- The bus transactions among events, in order. -/
def busEvents (es : List Event) : List Event := es.filter Event.isBus

/-- The bytes written at the address of DATA, in order. -/
def dataWrites (c : Cfg) (es : List Event) : List Byte :=
  es.filterMap fun e =>
    match e with
    | .write _ a v => if a = addr c .data then some v else none
    | _ => none

/-- The same access by an engine of other parameters (40_register_access.md R109). -/
def retarget (c c' : Cfg) : Event → Event
  | .read sp a v =>
    match regAt c a with
    | some i => .read (space c') (addr c' i) v
    | none => .read sp a v
  | .write sp a v =>
    match regAt c a with
    | some i => .write (space c') (addr c' i) v
    | none => .write sp a v
  | .cmd w => .cmd w
  | .hint => .hint
  | .resp st d => .resp st d
  | .reset => .reset

/-- A bus event of the engine: its own space, and of the six addresses only DATA and LSR for a read and all but LSR for a
write (10_state.md R28, 20_memory.md R50). -/
def confined (c : Cfg) : Event → Prop
  | .read sp a _ => sp = space c ∧ (a = addr c .data ∨ a = addr c .lsr)
  | .write sp a _ => sp = space c ∧ ∃ i, i ≠ RegIndex.lsr ∧ a = addr c i
  | .cmd _ | .hint | .resp _ _ | .reset => True

/-! ## Invariant 1: phase and registers fit (42_sequencer.md R151 to R155, 30_encoding.md R81, R86) -/

/-- A response the engine may hold: OK with a result byte only from LSTS, RECV, TRECV, WOULD_BLOCK only from TSENDR and
TRECV, ILLEGAL only for an illegal word. -/
def legalResponse (s : State) : Prop :=
  (s.rstat = 0x00 ∧ (∃ i, decode (wordOf s.opr s.argr) = .cmd i) ∧
      (s.opr = 0x02 ∨ s.opr = 0x20 ∨ s.opr = 0x22 ∨ s.rdata = 0x00)) ∨
  (s.rstat = 0x01 ∧ s.rdata = 0x00 ∧ (s.opr = 0x13 ∨ s.opr = 0x22)) ∨
  (s.rstat = 0x02 ∧ s.rdata = 0x00 ∧ ∃ why, decode (wordOf s.opr s.argr) = .illegal why)

/-- The sequencer state is one that the rules produce. -/
def Coherent (s : State) : Prop :=
  match s.phase with
  | .idle => True
  | .init => s.opr = 0x01 ∧ s.argr = 0x00
  | .poll =>
    (isTransmit s.opr ∧ s.idx.toNat < txCount s.opr s.argr) ∨
      ((isReceive s.opr ∨ s.opr = 0x02) ∧ s.argr = 0x00 ∧ s.idx = 0)
  | .access =>
    (isTransmit s.opr ∧ s.idx.toNat < txCount s.opr s.argr) ∨
      (isReceive s.opr ∧ s.argr = 0x00 ∧ s.idx = 0)
  | .done => legalResponse s

/-! ## Invariant 2: the protocol of the trace (30_encoding.md R81, 42_sequencer.md R151, R160) -/

/-- The events a trace may go on with, where the truth value says that a command is in execution: a command only when none
is, bus transactions, hints and a response only when one is, a reset always. -/
def protocolNext : Option Bool → Event → Option Bool
  | some false, .cmd _ => some true
  | some true, .read _ _ _ => some true
  | some true, .write _ _ _ => some true
  | some true, .hint => some true
  | some true, .resp _ _ => some false
  | some _, .reset => some false
  | _, _ => none

/-- Does the trace follow the protocol, and is a command in execution at its end? -/
def protocolState (es : List Event) : Option Bool := es.foldl protocolNext (some false)

/-- The trace follows the protocol and agrees with PHASE. -/
def ProtocolKept (s : State) : Prop := protocolState s.trace = some (busy s)

/-! ## Invariant 3: poll before every data access (42_sequencer.md R155, 70_reset_and_hazards.md R244) -/

/-- May event e follow event prev? A write of DATA follows a read of LSR with OUTPUT_EMPTY set, or is INIT's write of the
divisor low byte right after DLAB was set; a read of DATA follows a read of LSR with DATA_READY set. -/
def licensed (c : Cfg) (prev : Option Event) (e : Event) : Prop :=
  match e with
  | .write _ a v =>
    a = addr c .data →
      (∃ r, prev = some (.read (space c) (addr c .lsr) r) ∧ txReady c r) ∨
        (v = 0x03 ∧ prev = some (.write (space c) (addr c .lcr) 0x80))
  | .read _ a _ =>
    a = addr c .data → ∃ r, prev = some (.read (space c) (addr c .lsr) r) ∧ rxReady c r
  | .cmd _ | .hint | .resp _ _ | .reset => True

/-- Every event of a trace is licensed by the one before it. -/
def licensedTrace (c : Cfg) (prev : Option Event) : List Event → Prop
  | [] => True
  | e :: es => licensed c prev e ∧ licensedTrace c (some e) es

/-- Every data access so far was licensed, and the next one is. -/
def PollDiscipline (s : State) : Prop :=
  licensedTrace s.cfg none s.trace ∧
  (s.phase = .access →
    ∃ r, s.trace.getLast? = some (.read (space s.cfg) (addr s.cfg .lsr) r) ∧ readyFor s.cfg s.opr r) ∧
  (s.phase = .init → s.idx = 2 →
    s.trace.getLast? = some (.write (space s.cfg) (addr s.cfg .lcr) 0x80))

/-! ## Safe steps -/

/-- The step is neither refused nor a fault. -/
def Safe (s : State) : Prop := ∃ t, step s = .next t

/-! ## The named premises on the device (20_memory.md R66), over a run -/

/-- What a run so far says of the two readiness machines: has a poll seen the bit set, with no access to DATA since, and is
there a byte that the engine accessed and the hardware has not dealt with? Reset forgets nothing: it does not touch the
device (70_reset_and_hazards.md R241). -/
structure Watch where
  /-- OUTPUT_EMPTY was read as set, and no byte has been written to DATA since. -/
  txSeen : Bool
  /-- DATA_READY was read as set, and no byte has been read from DATA since. -/
  rxSeen : Bool
  /-- A byte was written to DATA and the hardware has not consumed it. -/
  txHeld : Bool
  /-- A byte was read from DATA and the hardware has not produced the next one. -/
  rxHeld : Bool
deriving DecidableEq, Repr

/-- Nothing seen and nothing accessed. -/
def Watch.start : Watch := { txSeen := false, rxSeen := false, txHeld := false, rxHeld := false }

/-- What one event of a step taken in state s says. With DLAB = 1 an access to index 0 is one of the divisor, not of DATA
(R63). -/
def Watch.event (s : State) (w : Watch) : Event → Watch
  | .read _ a v =>
    if a = addr s.cfg .lsr then
      { w with txSeen := w.txSeen || txReady s.cfg v, rxSeen := w.rxSeen || rxReady s.cfg v }
    else if a = addr s.cfg .data ∧ s.dev.dlab = false then { w with rxSeen := false, rxHeld := true }
    else w
  | .write _ a _ =>
    if a = addr s.cfg .data ∧ s.dev.dlab = false then { w with txSeen := false, txHeld := true } else w
  | .cmd _ | .hint | .resp _ _ | .reset => w

/-- What the device's move after a step says. Of an unplanned move nothing is known, and no byte counts as held after it. -/
def Watch.moved (d : Device) (w : Watch) : Watch :=
  match d.moves with
  | m :: _ => { w with txHeld := w.txHeld && !m.consumed, rxHeld := w.rxHeld && !m.produced }
  | [] => { w with txHeld := false, rxHeld := false }

/-- The watch after the step from s to t. -/
def Watch.after (s t : State) (w : Watch) : Watch :=
  ((t.trace.drop s.trace.length).foldl (Watch.event s) w).moved s.dev

/-- P holds now and after each of the next k steps. -/
def alongRun (P : Watch → State → Prop) : Nat → Watch → State → Prop
  | 0, w, s => P w s
  | k + 1, w, s => P w s ∧ ∀ t, step s = .next t → alongRun P k (w.after s t) t

/-- `ENV_TX_CLEAR`, for the next k steps: after a DATA write OUTPUT_EMPTY reads 0 until the hardware consumes the byte. -/
def envTxClear (k : Nat) (w : Watch) (s : State) : Prop :=
  alongRun (fun w s => w.txHeld = true → txReady s.cfg s.dev.lsr = false) k w s

/-- `ENV_RX_CLEAR`, for the next k steps: after a DATA read DATA_READY reads 0 until the hardware produces the next byte. -/
def envRxClear (k : Nat) (w : Watch) (s : State) : Prop :=
  alongRun (fun w s => w.rxHeld = true → rxReady s.cfg s.dev.lsr = false) k w s

/-- `ENV_READY_STABLE`, for the next k steps: a readiness bit that a poll of any command has seen set stays set until the
engine's own access to DATA in that direction. -/
def envReadyStable (k : Nat) (w : Watch) (s : State) : Prop :=
  alongRun (fun w s => (w.txSeen = true → txReady s.cfg s.dev.lsr = true) ∧
    (w.rxSeen = true → rxReady s.cfg s.dev.lsr = true)) k w s

/-- The line-status bytes that the next poll steps read, as far as the device's moves are planned. -/
def lsrAnswers (s : State) : List Byte := s.dev.lsr :: s.dev.moves.map (·.lsr)

/-- `ENV_TX_LIVE`: OUTPUT_EMPTY is eventually observed set. -/
def envTxLive (s : State) : Prop := ∃ v ∈ lsrAnswers s, txReady s.cfg v

/-- `ENV_RX_LIVE`: DATA_READY is eventually observed set. -/
def envRxLive (s : State) : Prop := ∃ v ∈ lsrAnswers s, rxReady s.cfg v

end Sys2Proof.Machine
end

