-- ==== Sys2Proof/Certificates/Slice0/Obligations.lean ====
section
/-! DEFINITION. The statements for the provers. Each docstring names the rule of spec/ it formalises. Values are written
out as numerals wherever the spec writes them. -/

open Sys2Proof Sys2Proof.Machine

/-! ## Encoding (30_encoding.md) -/

/-- R91: the decoder on all 65536 words, by OPC and ARG. -/
def Obligations.DecodeClassifiesEveryWord : Prop :=
  ∀ w : Word,
    (highByte w = 0x10 → decode w = .cmd (.send (lowByte w))) ∧
    (highByte w = 0x11 → decode w = .cmd (.sendr (lowByte w))) ∧
    (highByte w = 0x13 → decode w = .cmd (.tsendr (lowByte w))) ∧
    (highByte w = 0x01 → lowByte w = 0x00 → decode w = .cmd .init) ∧
    (highByte w = 0x02 → lowByte w = 0x00 → decode w = .cmd .lsts) ∧
    (highByte w = 0x20 → lowByte w = 0x00 → decode w = .cmd .recv) ∧
    (highByte w = 0x22 → lowByte w = 0x00 → decode w = .cmd .trecv) ∧
    (highByte w ∉ [0x10, 0x11, 0x13] → ¬ (highByte w ∈ [0x01, 0x02, 0x20, 0x22] ∧ lowByte w = 0x00) →
      ∃ why, decode w = .illegal why)

/-- Decoder and encoder agree in both directions, for every word and every instruction: no bit of a word is dropped and
each instruction has exactly one word. -/
def Obligations.DecodeAndEncodeAgree : Prop :=
  ∀ (w : Word) (i : Instr), decode w = .cmd i ↔ encode i = w

/-- Words of 30_encoding.md R87 and of the vectors V23 to V34. -/
def Obligations.SpecWordsDecode : Prop :=
  decode 0x0100 = .cmd .init ∧ decode 0x0200 = .cmd .lsts ∧ decode 0x1041 = .cmd (.send 0x41) ∧
  decode 0x11FF = .cmd (.sendr 0xFF) ∧ decode 0x1300 = .cmd (.tsendr 0x00) ∧ decode 0x2000 = .cmd .recv ∧
  decode 0x2200 = .cmd .trecv ∧ decode 0x0000 = .illegal (.undefinedOpcode 0x00) ∧
  decode 0x1241 = .illegal (.undefinedOpcode 0x12) ∧ decode 0x01FF = .illegal (.reservedArg 0x01 0xFF) ∧
  decode 0x2201 = .illegal (.reservedArg 0x22 0x01)

/-- R87: the example lines of the rule and their command words. -/
def Obligations.ExampleLinesAssemble : Prop :=
  lineActs (.cmd .INIT none) = some [.present 0x0100, .take] ∧
  lineActs (.cmd .LSTS none) = some [.present 0x0200, .take] ∧
  lineActs (.cmd .SEND (some (.byte 0x41))) = some [.present 0x1041, .take] ∧
  lineActs (.cmd .SENDR (some (.char 65))) = some [.present 0x1141, .take] ∧
  lineActs (.cmd .TSENDR (some (.byte 0x0A))) = some [.present 0x130A, .take] ∧
  lineActs (.cmd .RECV none) = some [.present 0x2000, .take] ∧
  lineActs (.cmd .TRECV none) = some [.present 0x2200, .take]

/-- R88: WSTR of n bytes is n SEND commands in order, each followed by the taking of its response; an empty text is
nothing. -/
def Obligations.WstrExpandsToSends : Prop :=
  ∀ text : List Byte,
    wstrActs text = text.flatMap fun b => [HostAct.present (wordOf 0x10 b), HostAct.take]

/-! ## Which step is taken (42_sequencer.md) -/

/-- A step runs the fetched command: exec of it, then the host goes on and the device moves. At IDLE the fetched command is
that of the legal word on the command port; in INIT it is INIT; in POLL and ACCESS it is the one latched. What follows every
step changes only the host's coming acts and the device, by a move of its own (the model's form of both: log 5, log 6). -/
def Obligations.StepRunsTheFetchedCommand : Prop :=
  (∀ (s : State) (i : Instr), s.cfg.ok → fetch s = some i → step s = mapNext (settle s) (exec i s)) ∧
  (∀ (s : State) (w : Word) (i : Instr),
    s.phase = .idle → s.host.offered = some w → decode w = .cmd i → fetch s = some i) ∧
  (∀ (s : State) (i : Instr),
    s.host.acts.head? ≠ some .reset → s.phase = .poll ∨ s.phase = .access → latched i s → fetch s = some i) ∧
  (∀ s : State, s.host.acts.head? ≠ some .reset → s.phase = .init → fetch s = some .init) ∧
  (∀ (s : State) (w : Nat) (i : Instr),
    s.cfg.ok → decodeTableWord 16 w = some i →
      step (s.withFetchWord 16 w) = mapNext (settle (s.withFetchWord 16 w)) (exec i (s.withFetchWord 16 w))) ∧
  (∀ s t : State,
    settle s t = { t with host := { t.host with acts := s.host.actsAfter s.phase }, dev := t.dev.move })

/-- R151, for each of the seven commands: the accept step. -/
def Obligations.AcceptStartsTheCommand : Prop :=
  ∀ (i : Instr) (s : State), s.phase = .idle →
    exec i s = .next { s with
      opr := i.opcode, argr := i.operand, idx := 0,
      phase := if i = .init then .init else .poll,
      trace := s.trace ++ [.cmd (encode i)] }

/-- R212: an illegal word is answered ILLEGAL, 0x00, with no bus transaction; the word is in OPR, ARGR and in the trace.
However the word is offered. `settle` is what follows every step: the host goes on and the device moves (the model's form of
both: log 5, log 6). -/
def Obligations.IllegalWordIsAnswered : Prop :=
  ∀ (s : State) (w : Word) (why : Illegal),
    s.cfg.ok → s.phase = .idle → s.host.offered = some w → decode w = .illegal why →
    step s = .next (settle s { s with
      opr := highByte w, argr := lowByte w, idx := 0, phase := .done, rstat := 0x02, rdata := 0x00,
      trace := s.trace ++ [.cmd w, .resp 0x02 0x00] })

/-- R151: a word offered while PHASE is not IDLE, in whichever way, is not accepted: the step is the one without the offer,
and the word stays offered. -/
def Obligations.OfferWaitsWhileBusy : Prop :=
  ∀ (s : State) (w : Word), s.phase ≠ .idle → s.host.offered = some w →
    step s =
      mapNext (fun t => { t with host := { t.host with acts := s.host.acts } })
        (step { s with host := { s.host with acts := [] } })

/-- R156: the take step, and a response that stays as it is until it is taken. The list of the responses taken and `settle`
are the model's form of the host and the device (log 5, log 6), and so is the step with no take, in which the engine waits
unchanged (log 7). -/
def Obligations.ResponseHeldUntilTaken : Prop :=
  (∀ (s : State) (rest : List HostAct), s.cfg.ok → s.phase = .done → s.host.acts = .take :: rest →
    step s = .next (settle s { s with
      phase := .idle, host := { s.host with taken := s.host.taken ++ [wordOf s.rstat s.rdata] } })) ∧
  (∀ s : State, s.cfg.ok → s.phase = .done → s.host.acts.head? ≠ some .take →
    s.host.acts.head? ≠ some .reset →
    ∃ t, step s = .next t ∧ t.phase = .done ∧ t.rstat = s.rstat ∧ t.rdata = s.rdata ∧ t.opr = s.opr ∧
      t.argr = s.argr ∧ t.idx = s.idx ∧ t.trace = s.trace ∧ t.host.taken = s.host.taken)

/-- R157: reset in any phase: registers to their reset values, the command dropped without a response, no bus transaction,
no write to the device, CFG kept. `settle` is what follows every step: the host goes on and the device moves (the model's form
of both: log 5, log 6). -/
def Obligations.ResetStepDropsTheCommand : Prop :=
  ∀ (s : State) (rest : List HostAct), s.cfg.ok → s.host.acts = .reset :: rest →
    step s = .next (settle s { s with
      phase := .idle, idx := 0, opr := 0x00, argr := 0x00, rstat := 0x00, rdata := 0x00,
      trace := s.trace ++ [.reset] })

/-- R39: what reset leaves, for the machine's reset state and for a reset of any state. -/
def Obligations.ResetValues : Prop :=
  (State.reset.phase = .idle ∧ State.reset.idx = 0 ∧ State.reset.opr = 0x00 ∧ State.reset.argr = 0x00 ∧
    State.reset.rstat = 0x00 ∧ State.reset.rdata = 0x00 ∧ cmdReady State.reset = true ∧
    respValid State.reset = false ∧ State.reset.trace = [.reset]) ∧
  (∀ s : State,
    (resetEngine s).phase = .idle ∧ (resetEngine s).idx = 0 ∧ (resetEngine s).opr = 0x00 ∧
    (resetEngine s).argr = 0x00 ∧ (resetEngine s).rstat = 0x00 ∧ (resetEngine s).rdata = 0x00 ∧
    cmdReady (resetEngine s) = true ∧ respValid (resetEngine s) = false ∧ (resetEngine s).cfg = s.cfg ∧
    (resetEngine s).dev = s.dev ∧ (resetEngine s).trace = s.trace ++ [.reset])

/-- R106, R107: the two constructors set CFG and touch no device register. -/
def Obligations.ConstructorsSetConfiguration : Prop :=
  ∀ (c : Cfg) (bk : Backend) (base stride : Nat),
    newEngine c bk base = { State.reset with cfg := { c with backend := bk, base := base, stride := 1 } } ∧
    newWithStride c base stride =
      { State.reset with cfg := { c with backend := .mmio, base := base, stride := stride } }

/-- 10_state.md R26: the ready and valid signals and the response word. -/
def Obligations.InterfaceSignals : Prop :=
  ∀ s : State,
    (cmdReady s = true ↔ s.phase = .idle) ∧ (respValid s = true ↔ s.phase = .done) ∧
    highByte (respWord s) = s.rstat ∧ lowByte (respWord s) = s.rdata

/-! ## Register access (40_register_access.md, 20_memory.md) -/

/-- R103: the address rule, that it never wraps, and that the addresses rise strictly. -/
def Obligations.AddressRule : Prop :=
  (∀ c : Cfg, addr c .data = c.base ∧ addr c .ier = c.base + c.stride ∧ addr c .fcr = c.base + 2 * c.stride ∧
    addr c .lcr = c.base + 3 * c.stride ∧ addr c .mcr = c.base + 4 * c.stride ∧
    addr c .lsr = c.base + 5 * c.stride) ∧
  (∀ (c : Cfg) (i j : RegIndex), c.ok →
    addr c i < 2 ^ c.aw ∧ (i.toNat < j.toNat → addr c i < addr c j) ∧ (addr c i = addr c j → i = j))

/-- R100, R101, R63: a register access is one bus event at its address; a write lands in the register the index names now,
the divisor's bytes at indices 0 and 1 while DLAB = 1. -/
def Obligations.RegisterAccessRule : Prop :=
  (∀ (s : State) (i : RegIndex),
    (regRead i s).2 = { s with trace := s.trace ++ [readEvent s.cfg i (regRead i s).1] }) ∧
  (∀ s : State, (regRead .lsr s).1 = s.dev.lsr ∧ (regRead .data s).1 = s.dev.rbr) ∧
  (∀ (s : State) (i : RegIndex) (v : Byte),
    (regWrite i v s).trace = s.trace ++ [writeEvent s.cfg i v] ∧
    regWrite i v s = { s with dev := (regWrite i v s).dev, trace := (regWrite i v s).trace }) ∧
  (∀ (s : State) (v : Byte), s.dev.lcr.getLsbD 7 = true →
    (regWrite .data v s).dev = { s.dev with dll := v } ∧ (regWrite .ier v s).dev = { s.dev with dlm := v }) ∧
  (∀ (s : State) (v : Byte), s.dev.lcr.getLsbD 7 = false →
    (regWrite .data v s).dev = { s.dev with thr := v } ∧ (regWrite .ier v s).dev = { s.dev with ier := v }) ∧
  (∀ (s : State) (v : Byte),
    (regWrite .fcr v s).dev = { s.dev with fcr := v } ∧ (regWrite .lcr v s).dev = { s.dev with lcr := v } ∧
    (regWrite .mcr v s).dev = { s.dev with mcr := v })

/-- R105 and R104: exactly where a construction premise fails, the step is refused under its own name. -/
def Obligations.PremiseViolationIsRefused : Prop :=
  ∀ s : State,
    step s = .refused .preconditionViolated ↔
      ¬ (s.cfg.premises.genuine = true ∧ s.cfg.premises.aligned = true ∧ s.cfg.premises.exclusive = true ∧
        s.cfg.premises.privileged = true ∧ s.cfg.premises.mapped = true ∧ 1 ≤ s.cfg.stride ∧
        (s.cfg.backend = .pio → s.cfg.stride = 1) ∧ s.cfg.base + 5 * s.cfg.stride < 2 ^ s.cfg.aw ∧
        s.cfg.drBit ≠ s.cfg.threBit)

/-- R20: no step changes CFG. -/
def Obligations.ConfigurationNeverChanges : Prop :=
  ∀ s t : State, step s = .next t → t.cfg = s.cfg

/-- R160: the bus is silent at IDLE and DONE and in a reset step; every other step makes exactly one transaction. The trace
only grows. -/
def Obligations.BusSilentOutsideCommands : Prop :=
  ∀ s t : State, step s = .next t →
    ∃ es, t.trace = s.trace ++ es ∧
      (busEvents es).length = if busy s = true ∧ s.host.acts.head? ≠ some .reset then 1 else 0

/-- R50, R28: every transaction is in the engine's own space, a read at the address of DATA or LSR, a write at the address
of one of the five registers other than LSR. -/
def Obligations.TransactionsStayInTheWindow : Prop :=
  ∀ s t : State, step s = .next t →
    ∃ es, t.trace = s.trace ++ es ∧ ∀ e ∈ es, confined s.cfg e

/-- R109: an engine of the other backend, base or stride takes the same step: the same registers, the same device, and the
same accesses at its own addresses. -/
def Obligations.BackendsTakeTheSameStep : Prop :=
  ∀ (s t : State) (c' : Cfg), c'.ok → c'.drBit = s.cfg.drBit → c'.threBit = s.cfg.threBit →
    step s = .next t →
    ∃ es, t.trace = s.trace ++ es ∧
      step { s with cfg := c' } =
        .next { t with cfg := c', trace := s.trace ++ es.map (retarget s.cfg c') }

/-! ## Flag decoders and divisor table (41_flag_decoders.md) -/

/-- R120 to R126: decoding drops exactly the unknown bits and encoding undoes it; each flag is its mask's bit; the trigger
field is the top two bits of FCR and stands for 1, 4, 8 or 14 bytes. The bit places are the spec's presumed ones (log 13,
log 14). -/
def Obligations.FlagDecodersRoundTrip : Prop :=
  (∀ b, encodeLsr (decodeLsr b) = b &&& 0xFF) ∧ (∀ f, decodeLsr (encodeLsr f) = f) ∧
  (∀ b, encodeFcr (decodeFcr b) = b &&& 0xCF) ∧ (∀ f, decodeFcr (encodeFcr f) = f) ∧
  (∀ b, encodeIer (decodeIer b) = b &&& 0x0F) ∧ (∀ f, decodeIer (encodeIer f) = f) ∧
  (∀ b, encodeMcr (decodeMcr b) = b &&& 0x1F) ∧ (∀ f, decodeMcr (encodeMcr f) = f) ∧
  (∀ b, encodeMsr (decodeMsr b) = b &&& 0xFF) ∧ (∀ f, decodeMsr (encodeMsr f) = f) ∧
  (∀ b : Byte,
    ((decodeLsr b).dataReady = true ↔ b &&& 0x01 ≠ 0) ∧ ((decodeLsr b).overrun = true ↔ b &&& 0x02 ≠ 0) ∧
    ((decodeLsr b).parityError = true ↔ b &&& 0x04 ≠ 0) ∧ ((decodeLsr b).framingError = true ↔ b &&& 0x08 ≠ 0) ∧
    ((decodeLsr b).breakFlag = true ↔ b &&& 0x10 ≠ 0) ∧ ((decodeLsr b).outputEmpty = true ↔ b &&& 0x20 ≠ 0) ∧
    ((decodeLsr b).outputEmptyIdle = true ↔ b &&& 0x40 ≠ 0) ∧ ((decodeLsr b).fifoError = true ↔ b &&& 0x80 ≠ 0)) ∧
  (∀ b : Byte,
    ((decodeFcr b).enable = true ↔ b &&& 0x01 ≠ 0) ∧ ((decodeFcr b).clearRx = true ↔ b &&& 0x02 ≠ 0) ∧
    ((decodeFcr b).clearTx = true ↔ b &&& 0x04 ≠ 0) ∧ ((decodeFcr b).dmaMode = true ↔ b &&& 0x08 ≠ 0) ∧
    (decodeFcr b).trigger.toNat = b.toNat / 64) ∧
  (triggerBytes 0 = 1 ∧ triggerBytes 1 = 4 ∧ triggerBytes 2 = 8 ∧ triggerBytes 3 = 14) ∧
  (∀ b : Byte,
    ((decodeIer b).rxAvail = true ↔ b &&& 0x01 ≠ 0) ∧ ((decodeIer b).txEmpty = true ↔ b &&& 0x02 ≠ 0) ∧
    ((decodeIer b).lineStatus = true ↔ b &&& 0x04 ≠ 0) ∧ ((decodeIer b).modemStatus = true ↔ b &&& 0x08 ≠ 0)) ∧
  (∀ b : Byte,
    ((decodeMcr b).dtr = true ↔ b &&& 0x01 ≠ 0) ∧ ((decodeMcr b).rts = true ↔ b &&& 0x02 ≠ 0) ∧
    ((decodeMcr b).out1 = true ↔ b &&& 0x04 ≠ 0) ∧ ((decodeMcr b).out2 = true ↔ b &&& 0x08 ≠ 0) ∧
    ((decodeMcr b).loop = true ↔ b &&& 0x10 ≠ 0)) ∧
  (∀ b : Byte,
    ((decodeMsr b).deltaCts = true ↔ b &&& 0x01 ≠ 0) ∧ ((decodeMsr b).deltaDsr = true ↔ b &&& 0x02 ≠ 0) ∧
    ((decodeMsr b).trailingRi = true ↔ b &&& 0x04 ≠ 0) ∧ ((decodeMsr b).deltaDcd = true ↔ b &&& 0x08 ≠ 0) ∧
    ((decodeMsr b).cts = true ↔ b &&& 0x10 ≠ 0) ∧ ((decodeMsr b).dsr = true ↔ b &&& 0x20 ≠ 0) ∧
    ((decodeMsr b).ri = true ↔ b &&& 0x40 ≠ 0) ∧ ((decodeMsr b).dcd = true ↔ b &&& 0x80 ≠ 0))

/-- R131: the two predicates: one bit each, by its number in CFG, and with the default numbers the flag of the line-status
decoder. The default numbers are the spec's presumed ones (log 13). -/
def Obligations.ReadinessPredicates : Prop :=
  ∀ (c : Cfg) (v : Byte),
    (txReady c v = true ↔ v.getLsbD c.threBit.val = true) ∧ (rxReady c v = true ↔ v.getLsbD c.drBit.val = true) ∧
    (c.threBit = 5 → (txReady c v = true ↔ v &&& 0x20 ≠ 0) ∧ txReady c v = (decodeLsr v).outputEmpty) ∧
    (c.drBit = 0 → (rxReady c v = true ↔ v &&& 0x01 ≠ 0) ∧ rxReady c v = (decodeLsr v).dataReady)

/-- R130: `validate` is true for exactly the ten pairs of R129. The low bytes are the spec's inference (log 15). -/
def Obligations.ValidateAcceptsExactlyTenPairs : Prop :=
  ∀ low high : Byte,
    validate low high = true ↔
      (low, high) ∈ [((0x00 : Byte), (0x09 : Byte)), (0x80, 0x01), (0x60, 0x00), (0x30, 0x00), (0x18, 0x00),
        (0x0C, 0x00), (0x06, 0x00), (0x03, 0x00), (0x02, 0x00), (0x01, 0x00)]

/-- R128, R129: in each of the ten rows divisor times baud rate is 115200. The low bytes are the spec's inference (log 15). -/
def Obligations.DivisorTimesBaudIsConstant : Prop :=
  divisorTable.map (fun row => row.1) = [50, 300, 1200, 2400, 4800, 9600, 19200, 38400, 57600, 115200] ∧
  ∀ row ∈ divisorTable, divisor row.2.1 row.2.2 * row.1 = 115200 ∧ validate row.2.1 row.2.2 = true

/-! ## INIT (43_init.md) -/

/-- R171: the bring-up table. -/
def Obligations.BringUpTable : Prop :=
  initRow 0 = (.ier, 0x00) ∧ initRow 1 = (.lcr, 0x80) ∧ initRow 2 = (.data, 0x03) ∧ initRow 3 = (.ier, 0x00) ∧
  initRow 4 = (.lcr, 0x03) ∧ initRow 5 = (.fcr, 0xC7) ∧ initRow 6 = (.mcr, 0x0B) ∧ initRow 7 = (.ier, 0x01)

/-- R153: an INIT step writes row IDX and either goes to the next row or responds (OK, 0x00). -/
def Obligations.InitStepWritesItsRow : Prop :=
  ∀ s : State, s.phase = .init →
    (s.idx.toNat < 7 → exec .init s = .next { s with
      idx := s.idx + 1, dev := s.dev.write (initRow s.idx).1 (initRow s.idx).2,
      trace := s.trace ++ [writeEvent s.cfg (initRow s.idx).1 (initRow s.idx).2] }) ∧
    (s.idx = 7 → exec .init s = .next { s with
      phase := .done, rstat := 0x00, rdata := 0x00, dev := s.dev.write .ier 0x01,
      trace := s.trace ++ [writeEvent s.cfg .ier 0x01, .resp 0x00 0x00] })

/-- R170, R171, R41: INIT, from any state of the device: the eight writes in order and nothing else, the response
(OK, 0x00), and the device configuration written. -/
def Obligations.InitBringsUpTheDevice : Prop :=
  ∀ (s : State) (rest : List HostAct), s.cfg.ok → s.phase = .idle →
    s.host.acts = .present 0x0100 :: .take :: rest →
    ∃ t, steps 10 s = .next t ∧ t.phase = .idle ∧ t.host.acts = rest ∧
      t.host.taken = s.host.taken ++ [0x0000] ∧
      t.trace = s.trace ++ [.cmd 0x0100,
        writeEvent s.cfg .ier 0x00, writeEvent s.cfg .lcr 0x80, writeEvent s.cfg .data 0x03,
        writeEvent s.cfg .ier 0x00, writeEvent s.cfg .lcr 0x03, writeEvent s.cfg .fcr 0xC7,
        writeEvent s.cfg .mcr 0x0B, writeEvent s.cfg .ier 0x01, .resp 0x00 0x00] ∧
      t.dev.ier = 0x01 ∧ t.dev.lcr = 0x03 ∧ t.dev.dll = 0x03 ∧ t.dev.dlm = 0x00 ∧ t.dev.fcr = 0xC7 ∧
      t.dev.mcr = 0x0B ∧ t.dev.thr = s.dev.thr

/-! ## LSTS (44_line_status.md) -/

/-- R154, R180: the poll step of LSTS answers (OK, the byte read), whatever bits are set. -/
def Obligations.LstsAnswersTheByteRead : Prop :=
  ∀ s : State, s.phase = .poll →
    exec .lsts s = .next { s with
      phase := .done, rstat := 0x00, rdata := s.dev.lsr,
      trace := s.trace ++ [readEvent s.cfg .lsr s.dev.lsr, .resp 0x00 s.dev.lsr] }

/-- R180: LSTS as a whole: one read of LSR, one response. The byte is the one the device has after its move at the accept
step. -/
def Obligations.LstsMakesOneRead : Prop :=
  ∀ (s : State) (v : Byte) (rest : List HostAct), s.cfg.ok → s.phase = .idle →
    s.host.acts = .present 0x0200 :: .take :: rest → v = s.dev.move.lsr →
    ∃ t, steps 3 s = .next t ∧ t.phase = .idle ∧ t.host.acts = rest ∧
      t.host.taken = s.host.taken ++ [wordOf 0x00 v] ∧
      t.trace = s.trace ++ [.cmd 0x0200, readEvent s.cfg .lsr v, .resp 0x00 v]

/-! ## Transmit (45_transmit.md) -/

/-- R154: the poll step of a transmit command. Ready: PHASE becomes ACCESS. Not ready: SEND and SENDR only hint and leave
every register as it is, TSENDR answers WOULD_BLOCK. One read of LSR in each case, one bit of it looked at. -/
def Obligations.TransmitPollStep : Prop :=
  ∀ (s : State) (b : Byte), s.phase = .poll →
    (s.dev.lsr.getLsbD s.cfg.threBit.val = true → ∀ i ∈ [Instr.send b, .sendr b, .tsendr b],
      exec i s = .next { s with
        phase := .access, trace := s.trace ++ [readEvent s.cfg .lsr s.dev.lsr] }) ∧
    (s.dev.lsr.getLsbD s.cfg.threBit.val = false →
      (∀ i ∈ [Instr.send b, .sendr b],
        exec i s = .next { s with trace := s.trace ++ [readEvent s.cfg .lsr s.dev.lsr, .hint] }) ∧
      exec (.tsendr b) s = .next { s with
        phase := .done, rstat := 0x01, rdata := 0x00,
        trace := s.trace ++ [readEvent s.cfg .lsr s.dev.lsr, .resp 0x01 0x00] })

/-- R155, R159: the access step of SENDR, TSENDR and of a SEND that does not expand: one write of the byte to DATA, which
is the divisor low byte while DLAB = 1, and (OK, 0x00). What the device holds is the model's reading (log 8), and so is that
its answers change only in its move after the step (log 4, log 5), where R162 makes the access itself the transition. -/
def Obligations.TransmitWritesTheByteOnce : Prop :=
  ∀ (s : State) (b : Byte) (i : Instr), s.phase = .access → latched i s →
    (i = .sendr b ∨ i = .tsendr b ∨ (i = .send b ∧ b ≠ 0x08 ∧ b ≠ 0x7F ∧ s.idx = 0)) →
    exec i s = .next { s with
      phase := .done, rstat := 0x00, rdata := 0x00,
      dev := if s.dev.lcr.getLsbD 7 then { s.dev with dll := b } else { s.dev with thr := b },
      trace := s.trace ++ [writeEvent s.cfg .data b, .resp 0x00 0x00] }

/-- R155, R159, R187: the three access steps of SEND 0x08 and SEND 0x7F. The first two go back to a poll loop of their own;
the last answers (OK, 0x00). With DLAB = 1 the byte is the divisor's (R63). What the device holds is the model's reading
(log 8), and so is that its answers change only in its move after the step (log 4, log 5), where R162 makes the access itself
the transition. -/
def Obligations.SendEraseWritesThreeBytes : Prop :=
  ∀ (s : State) (b : Byte), s.phase = .access → latched (.send b) s → b = 0x08 ∨ b = 0x7F →
    (s.idx = 0 → exec (.send b) s = .next { s with
      idx := 1, phase := .poll,
      dev := if s.dev.lcr.getLsbD 7 then { s.dev with dll := 0x08 } else { s.dev with thr := 0x08 },
      trace := s.trace ++ [writeEvent s.cfg .data 0x08] }) ∧
    (s.idx = 1 → exec (.send b) s = .next { s with
      idx := 2, phase := .poll,
      dev := if s.dev.lcr.getLsbD 7 then { s.dev with dll := 0x20 } else { s.dev with thr := 0x20 },
      trace := s.trace ++ [writeEvent s.cfg .data 0x20] }) ∧
    (s.idx = 2 → exec (.send b) s = .next { s with
      phase := .done, rstat := 0x00, rdata := 0x00,
      dev := if s.dev.lcr.getLsbD 7 then { s.dev with dll := 0x08 } else { s.dev with thr := 0x08 },
      trace := s.trace ++ [writeEvent s.cfg .data 0x08, .resp 0x00 0x00] })

/-- R186: TSENDR as a whole: one poll; the byte written once and OK, or nothing written and WOULD_BLOCK. That the device's
registers then keep their contents is the model's reading (log 8). -/
def Obligations.TsendrSendsOrWouldBlock : Prop :=
  ∀ (s : State) (b v : Byte) (rest : List HostAct),
    s.cfg.ok → s.phase = .idle → s.host.acts = .present (wordOf 0x13 b) :: .take :: rest → v = s.dev.move.lsr →
    (txReady s.cfg v = true →
      ∃ t, steps 4 s = .next t ∧ t.phase = .idle ∧ t.host.acts = rest ∧
        t.host.taken = s.host.taken ++ [0x0000] ∧
        t.trace = s.trace ++ [.cmd (wordOf 0x13 b), readEvent s.cfg .lsr v, writeEvent s.cfg .data b,
          .resp 0x00 0x00]) ∧
    (txReady s.cfg v = false →
      ∃ t, steps 3 s = .next t ∧ t.phase = .idle ∧ t.host.acts = rest ∧
        t.host.taken = s.host.taken ++ [0x0100] ∧
        t.trace = s.trace ++ [.cmd (wordOf 0x13 b), readEvent s.cfg .lsr v, .resp 0x01 0x00] ∧
        t.dev.thr = s.dev.thr ∧ t.dev.dll = s.dev.dll)

/-- R185, R187, R188: a raw send as a whole, and a SEND of a byte other than 0x08 and 0x7F (line-feed among them): any
number of not-ready polls with a hint each, the ready one, one write of the byte, one response. -/
def Obligations.BlockingSendWaitsThenWritesOnce : Prop :=
  ∀ (s : State) (b : Byte) (w : Word) (notReady : List DeviceMove) (r : DeviceMove) (ms : List DeviceMove)
    (rest : List HostAct),
    s.cfg.ok → s.phase = .idle → s.host.acts = .present w :: .take :: rest →
    (w = wordOf 0x11 b ∨ (w = wordOf 0x10 b ∧ b ≠ 0x08 ∧ b ≠ 0x7F)) →
    s.dev.moves = notReady ++ r :: ms → (∀ m ∈ notReady, txReady s.cfg m.lsr = false) →
    txReady s.cfg r.lsr = true →
    ∃ t, steps (notReady.length + 4) s = .next t ∧ t.phase = .idle ∧ t.host.acts = rest ∧
      t.host.taken = s.host.taken ++ [0x0000] ∧
      t.trace = s.trace ++ [.cmd w] ++ spinEvents s.cfg (notReady.map (·.lsr)) ++
        [readEvent s.cfg .lsr r.lsr, writeEvent s.cfg .data b, .resp 0x00 0x00]

/-- R187: SEND 0x08 and SEND 0x7F as a whole: three raw sends, 0x08, 0x20, 0x08, each with a poll loop of its own, and one
response. A move of the device at an access step (x1, x2) is not polled. -/
def Obligations.SendEraseIsThreeRawSends : Prop :=
  ∀ (s : State) (b : Byte) (n1 n2 n3 : List DeviceMove) (r1 r2 r3 x1 x2 : DeviceMove) (ms : List DeviceMove)
    (rest : List HostAct),
    s.cfg.ok → s.phase = .idle → s.host.acts = .present (wordOf 0x10 b) :: .take :: rest →
    b = 0x08 ∨ b = 0x7F →
    s.dev.moves = n1 ++ [r1, x1] ++ n2 ++ [r2, x2] ++ n3 ++ [r3] ++ ms →
    (∀ m ∈ n1 ++ n2 ++ n3, txReady s.cfg m.lsr = false) →
    (∀ m ∈ [r1, r2, r3], txReady s.cfg m.lsr = true) →
    ∃ t, steps (n1.length + n2.length + n3.length + 8) s = .next t ∧ t.phase = .idle ∧ t.host.acts = rest ∧
      t.host.taken = s.host.taken ++ [0x0000] ∧
      t.trace = s.trace ++ [.cmd (wordOf 0x10 b)] ++
        spinEvents s.cfg (n1.map (·.lsr)) ++ [readEvent s.cfg .lsr r1.lsr, writeEvent s.cfg .data 0x08] ++
        spinEvents s.cfg (n2.map (·.lsr)) ++ [readEvent s.cfg .lsr r2.lsr, writeEvent s.cfg .data 0x20] ++
        spinEvents s.cfg (n3.map (·.lsr)) ++
        [readEvent s.cfg .lsr r3.lsr, writeEvent s.cfg .data 0x08, .resp 0x00 0x00]

/-- R190: a text sent to a device that is always ready: the bytes written to DATA are, byte by byte of the text, the byte
itself or 0x08, 0x20, 0x08; every response is (OK, 0x00). A byte takes 4 steps, or 8. -/
def Obligations.WstrWritesTheTextInOrder : Prop :=
  ∀ (s : State) (text : List Byte) (n : Nat) (rest : List HostAct), s.cfg.ok → s.phase = .idle →
    s.host.acts = wstrActs text ++ rest →
    n = (text.map fun b => if b = 0x08 ∨ b = 0x7F then 8 else 4).sum →
    n ≤ s.dev.moves.length → (∀ m ∈ s.dev.moves.take n, txReady s.cfg m.lsr = true) →
    ∃ t, steps n s = .next t ∧ t.phase = .idle ∧ t.host.acts = rest ∧
      t.host.taken = s.host.taken ++ text.map (fun _ => (0x0000 : Word)) ∧
      dataWrites s.cfg t.trace =
        dataWrites s.cfg s.trace ++
          text.flatMap fun b => if b = 0x08 ∨ b = 0x7F then [(0x08 : Byte), 0x20, 0x08] else [b]

/-- R191: SENDR is TSENDR repeated until it answers OK: meeting the same line-status bytes the two make the same bus
transactions in the same order. In the second run `pauses` is what the device does while each response is pending. -/
def Obligations.SendrIsTsendrRepeated : Prop :=
  ∀ (s s' : State) (b : Byte) (notReady : List DeviceMove) (pauses : List (DeviceMove × DeviceMove))
    (r : DeviceMove) (ms ms' : List DeviceMove) (rest rest' : List HostAct),
    s.cfg.ok → s'.cfg = s.cfg → s.phase = .idle → s'.phase = .idle →
    s.host.acts = .present (wordOf 0x11 b) :: .take :: rest →
    s'.host.acts =
      (List.replicate (notReady.length + 1) [HostAct.present (wordOf 0x13 b), .take]).flatten ++ rest' →
    s.dev.moves = notReady ++ r :: ms →
    pauses.length = notReady.length →
    s'.dev.moves = ((notReady.zip pauses).flatMap fun p => [p.1, p.2.1, p.2.2]) ++ r :: ms' →
    (∀ m ∈ notReady, txReady s.cfg m.lsr = false) → txReady s.cfg r.lsr = true →
    ∃ t t' es es', steps (notReady.length + 4) s = .next t ∧ steps (3 * notReady.length + 4) s' = .next t' ∧
      t.trace = s.trace ++ es ∧ t'.trace = s'.trace ++ es' ∧ busEvents es = busEvents es' ∧
      t.host.taken = s.host.taken ++ [0x0000] ∧
      t'.host.taken = s'.host.taken ++ List.replicate notReady.length 0x0100 ++ [0x0000]

/-! ## Receive (46_receive.md) -/

/-- R154: the poll step of a receive command. -/
def Obligations.ReceivePollStep : Prop :=
  ∀ s : State, s.phase = .poll →
    (s.dev.lsr.getLsbD s.cfg.drBit.val = true → ∀ i ∈ [Instr.recv, .trecv],
      exec i s = .next { s with
        phase := .access, trace := s.trace ++ [readEvent s.cfg .lsr s.dev.lsr] }) ∧
    (s.dev.lsr.getLsbD s.cfg.drBit.val = false →
      exec .recv s = .next { s with trace := s.trace ++ [readEvent s.cfg .lsr s.dev.lsr, .hint] } ∧
      exec .trecv s = .next { s with
        phase := .done, rstat := 0x01, rdata := 0x00,
        trace := s.trace ++ [readEvent s.cfg .lsr s.dev.lsr, .resp 0x01 0x00] })

/-- R155, R200, R201: the access step of RECV and TRECV: one read of DATA, answered unchanged. That the device's answers
change only in its move after the step is the model's reading (log 4, log 5), where R162 makes the access itself the
transition. -/
def Obligations.ReceiveAnswersTheByteRead : Prop :=
  ∀ s : State, s.phase = .access → ∀ i ∈ [Instr.recv, .trecv],
    exec i s = .next { s with
      phase := .done, rstat := 0x00, rdata := s.dev.rbr,
      trace := s.trace ++ [readEvent s.cfg .data s.dev.rbr, .resp 0x00 s.dev.rbr] }

/-- R200: RECV as a whole. The byte is the one the device has at the access step (x). -/
def Obligations.RecvWaitsThenReadsOnce : Prop :=
  ∀ (s : State) (notReady : List DeviceMove) (r x : DeviceMove) (ms : List DeviceMove) (rest : List HostAct),
    s.cfg.ok → s.phase = .idle → s.host.acts = .present 0x2000 :: .take :: rest →
    s.dev.moves = notReady ++ r :: x :: ms → (∀ m ∈ notReady, rxReady s.cfg m.lsr = false) →
    rxReady s.cfg r.lsr = true →
    ∃ t, steps (notReady.length + 4) s = .next t ∧ t.phase = .idle ∧ t.host.acts = rest ∧
      t.host.taken = s.host.taken ++ [wordOf 0x00 x.rbr] ∧
      t.trace = s.trace ++ [.cmd 0x2000] ++ spinEvents s.cfg (notReady.map (·.lsr)) ++
        [readEvent s.cfg .lsr r.lsr, readEvent s.cfg .data x.rbr, .resp 0x00 x.rbr]

/-- R201: TRECV as a whole. The line-status byte is the one after the device's first move, the data byte the one after its
second. -/
def Obligations.TrecvReadsOrWouldBlock : Prop :=
  ∀ (s : State) (v d : Byte) (rest : List HostAct),
    s.cfg.ok → s.phase = .idle → s.host.acts = .present 0x2200 :: .take :: rest →
    v = s.dev.move.lsr → d = s.dev.move.move.rbr →
    (rxReady s.cfg v = true →
      ∃ t, steps 4 s = .next t ∧ t.phase = .idle ∧ t.host.acts = rest ∧
        t.host.taken = s.host.taken ++ [wordOf 0x00 d] ∧
        t.trace = s.trace ++ [.cmd 0x2200, readEvent s.cfg .lsr v, readEvent s.cfg .data d, .resp 0x00 d]) ∧
    (rxReady s.cfg v = false →
      ∃ t, steps 3 s = .next t ∧ t.phase = .idle ∧ t.host.acts = rest ∧
        t.host.taken = s.host.taken ++ [0x0100] ∧
        t.trace = s.trace ++ [.cmd 0x2200, readEvent s.cfg .lsr v, .resp 0x01 0x00])

/-- R191, last sentence: RECV is TRECV repeated until it answers OK. `x` is what the device does between the ready poll and
the access. -/
def Obligations.RecvIsTrecvRepeated : Prop :=
  ∀ (s s' : State) (notReady : List DeviceMove) (pauses : List (DeviceMove × DeviceMove)) (r x : DeviceMove)
    (ms ms' : List DeviceMove) (rest rest' : List HostAct),
    s.cfg.ok → s'.cfg = s.cfg → s.phase = .idle → s'.phase = .idle →
    s.host.acts = .present 0x2000 :: .take :: rest →
    s'.host.acts = (List.replicate (notReady.length + 1) [HostAct.present 0x2200, .take]).flatten ++ rest' →
    s.dev.moves = notReady ++ r :: x :: ms →
    pauses.length = notReady.length →
    s'.dev.moves = ((notReady.zip pauses).flatMap fun p => [p.1, p.2.1, p.2.2]) ++ r :: x :: ms' →
    (∀ m ∈ notReady, rxReady s.cfg m.lsr = false) → rxReady s.cfg r.lsr = true →
    ∃ t t' es es', steps (notReady.length + 4) s = .next t ∧ steps (3 * notReady.length + 4) s' = .next t' ∧
      t.trace = s.trace ++ es ∧ t'.trace = s'.trace ++ es' ∧ busEvents es = busEvents es' ∧
      t.host.taken = s.host.taken ++ [wordOf 0x00 x.rbr] ∧
      t'.host.taken = s'.host.taken ++ List.replicate notReady.length 0x0100 ++ [wordOf 0x00 x.rbr]

/-! ## The named device premises (20_memory.md R66) -/

/-- R66, ENV_READY_STABLE: a bit that LSTS has seen set is still set for the transfer that follows, so a non-blocking command
succeeds. The premise is taken for the four steps up to the transfer's poll (the model's form: log 20). -/
def Obligations.ReadinessSeenByLstsLasts : Prop :=
  ∀ (s : State) (v b : Byte) (w : Word) (rest : List HostAct), s.cfg.ok → s.phase = .idle →
    s.host.acts = .present 0x0200 :: .take :: .present w :: .take :: rest → v = s.dev.move.lsr →
    envReadyStable 4 .start s →
    (w = wordOf 0x13 b → txReady s.cfg v = true →
      ∃ t, steps 7 s = .next t ∧ t.phase = .idle ∧ t.host.acts = rest ∧
        t.host.taken = s.host.taken ++ [wordOf 0x00 v, 0x0000]) ∧
    (w = 0x2200 → rxReady s.cfg v = true →
      ∃ t d, steps 7 s = .next t ∧ t.phase = .idle ∧ t.host.acts = rest ∧
        t.host.taken = s.host.taken ++ [wordOf 0x00 v, wordOf 0x00 d])

/-- R66, ENV_TX_CLEAR and ENV_RX_CLEAR: after a transfer that succeeded the next one of its direction would block, as long as
the hardware has neither consumed the byte written nor produced another (the premises' form is the model's: log 20). -/
def Obligations.AccessClearsReadiness : Prop :=
  ∀ (s : State) (b b' : Byte) (m1 m2 m3 m4 m5 : DeviceMove) (ms : List DeviceMove) (rest : List HostAct),
    s.cfg.ok → s.phase = .idle → s.dev.lcr.getLsbD 7 = false → s.dev.moves = m1 :: m2 :: m3 :: m4 :: m5 :: ms →
    (s.host.acts = .present (wordOf 0x13 b) :: .take :: .present (wordOf 0x13 b') :: .take :: rest →
      txReady s.cfg m1.lsr = true → (∀ m ∈ [m3, m4, m5], m.consumed = false) → envTxClear 5 .start s →
      ∃ t, steps 7 s = .next t ∧ t.phase = .idle ∧ t.host.acts = rest ∧
        t.host.taken = s.host.taken ++ [0x0000, 0x0100]) ∧
    (s.host.acts = .present 0x2200 :: .take :: .present 0x2200 :: .take :: rest →
      rxReady s.cfg m1.lsr = true → (∀ m ∈ [m3, m4, m5], m.produced = false) → envRxClear 5 .start s →
      ∃ t, steps 7 s = .next t ∧ t.phase = .idle ∧ t.host.acts = rest ∧
        t.host.taken = s.host.taken ++ [wordOf 0x00 m2.rbr, 0x0100])

/-- R202: the line-error bits do not matter to RECV and TRECV: with any other line-status byte of the same DATA_READY bit
the step leaves the same registers, and its events differ in that byte alone. -/
def Obligations.ReceiveIgnoresLineErrors : Prop :=
  ∀ (s t : State) (v : Byte) (i : Instr), i = .recv ∨ i = .trecv → s.phase = .poll →
    v.getLsbD s.cfg.drBit.val = s.dev.lsr.getLsbD s.cfg.drBit.val → exec i s = .next t →
    ∃ es, t.trace = s.trace ++ readEvent s.cfg .lsr s.dev.lsr :: es ∧
      exec i { s with dev := { s.dev with lsr := v } } =
        .next { t with dev := { t.dev with lsr := v }, trace := s.trace ++ readEvent s.cfg .lsr v :: es }

/-! ## Frames -/

/-- What no instruction's step changes. CFG, the host and what the device answers are never touched; OPR and ARGR are
written by the accept step alone; IDX by accept, by INIT steps and by an access step that goes back to POLL; RSTAT and
RDATA by a step that ends in DONE alone. The clauses on what the device answers (`lsr`, `rbr`, `moves`, `tick`) are the
model's choice, not the spec's: the device reacts only in its move after the step (log 4, log 5), where R162 makes the access
step itself the transition from ready to idle. -/
def Obligations.RegisterFrame : Prop :=
  ∀ (i : Instr) (s t : State), exec i s = .next t →
    t.cfg = s.cfg ∧ t.host = s.host ∧ t.dev.lsr = s.dev.lsr ∧ t.dev.rbr = s.dev.rbr ∧
    t.dev.moves = s.dev.moves ∧ t.dev.tick = s.dev.tick ∧
    (s.phase ≠ .idle → t.opr = s.opr ∧ t.argr = s.argr) ∧
    (s.phase = .poll ∨ s.phase = .done ∨ (s.phase = .access ∧ t.phase = .done) → t.idx = s.idx) ∧
    (t.phase ≠ .done → t.rstat = s.rstat ∧ t.rdata = s.rdata)

/-- What no instruction's step changes in the device's registers. Only an INIT step and an access step of SEND, SENDR and
TSENDR write: the INIT step the register of its row, the access step DATA; with DLAB set the writes of DATA and IER land in
the divisor. That the device changes none of these registers itself is the model's reading (log 8), and so is that its
answers change only in its move after the step (log 4, log 5), where R162 makes the access itself the transition. -/
def Obligations.DeviceFrame : Prop :=
  ∀ (i : Instr) (s t : State), exec i s = .next t →
    (s.phase ≠ .init → s.phase ≠ .access → t.dev = s.dev) ∧
    (s.phase = .access → i = .recv ∨ i = .trecv → t.dev = s.dev) ∧
    (s.phase = .access →
      t.dev.ier = s.dev.ier ∧ t.dev.fcr = s.dev.fcr ∧ t.dev.lcr = s.dev.lcr ∧ t.dev.mcr = s.dev.mcr ∧
      t.dev.dlm = s.dev.dlm ∧ (s.dev.lcr.getLsbD 7 = true → t.dev.thr = s.dev.thr) ∧
      (s.dev.lcr.getLsbD 7 = false → t.dev.dll = s.dev.dll)) ∧
    (s.phase = .init →
      (s.idx ≠ 1 → s.idx ≠ 4 → t.dev.lcr = s.dev.lcr) ∧ (s.idx ≠ 5 → t.dev.fcr = s.dev.fcr) ∧
      (s.idx ≠ 6 → t.dev.mcr = s.dev.mcr) ∧
      (s.idx ≠ 2 ∨ s.dev.lcr.getLsbD 7 = false → t.dev.dll = s.dev.dll) ∧
      (s.idx ≠ 2 ∨ s.dev.lcr.getLsbD 7 = true → t.dev.thr = s.dev.thr) ∧
      ((s.idx ≠ 0 ∧ s.idx ≠ 3 ∧ s.idx ≠ 7) ∨ s.dev.lcr.getLsbD 7 = false → t.dev.dlm = s.dev.dlm) ∧
      ((s.idx ≠ 0 ∧ s.idx ≠ 3 ∧ s.idx ≠ 7) ∨ s.dev.lcr.getLsbD 7 = true → t.dev.ier = s.dev.ier))

/-- R24, R181: the engine never reads RSTAT or RDATA: with any other values there, an earlier LSTS result for instance, the
step goes to the same phase and index, with the same latched command, device and events. -/
def Obligations.ResponseRegistersAreNeverRead : Prop :=
  ∀ (i : Instr) (s t : State) (st d : Byte), exec i s = .next t →
    ∃ t', exec i { s with rstat := st, rdata := d } = .next t' ∧ t'.phase = t.phase ∧ t'.idx = t.idx ∧
      t'.opr = t.opr ∧ t'.argr = t.argr ∧ t'.dev = t.dev ∧ t'.trace = t.trace

/-- R163: CFG, the engine registers and the bytes the device answers determine the next registers and the events; the
device's written registers, the host and the trace so far do not matter. -/
def Obligations.RegistersAndAnswersDetermineTheStep : Prop :=
  ∀ (i : Instr) (s s' t : State),
    s'.cfg = s.cfg → s'.phase = s.phase → s'.idx = s.idx → s'.opr = s.opr → s'.argr = s.argr →
    s'.rstat = s.rstat → s'.rdata = s.rdata → s'.dev.lsr = s.dev.lsr → s'.dev.rbr = s.dev.rbr →
    exec i s = .next t →
    ∃ t' es, exec i s' = .next t' ∧ t.trace = s.trace ++ es ∧ t'.trace = s'.trace ++ es ∧
      t'.phase = t.phase ∧ t'.idx = t.idx ∧ t'.opr = t.opr ∧ t'.argr = t.argr ∧ t'.rstat = t.rstat ∧
      t'.rdata = t.rdata

/-! ## Invariants and whole-machine rules -/

/-- The three invariants hold of every constructed engine in its reset state. -/
def Obligations.InvariantsHoldAtReset : Prop :=
  (Coherent State.reset ∧ ProtocolKept State.reset ∧ PollDiscipline State.reset) ∧
  ∀ c : Cfg, Coherent (construct c) ∧ ProtocolKept (construct c) ∧ PollDiscipline (construct c)

/-- R22, R23, R27, R81, R86: every step keeps the sequencer state one that the rules produce: the phase and the latched
command fit, IDX stays inside its command, and a response is a legal one. -/
def Obligations.StepKeepsSequencerCoherent : Prop :=
  ∀ s t : State, Coherent s → step s = .next t → Coherent t

/-- R161, R12: a step is always enabled: from a coherent state under the construction premise it is neither refused nor a
fault. At IDLE with nothing offered and at DONE with no take that step is the model's stutter (log 7). -/
def Obligations.CoherentEngineNeverStops : Prop :=
  ∀ s : State, s.cfg.ok → Coherent s → Safe s

/-- R81, R151, R160: every step keeps the protocol: one command at a time, one response to each, bus transactions and hints
only inside a command. -/
def Obligations.StepKeepsCommandProtocol : Prop :=
  ∀ s t : State, ProtocolKept s → step s = .next t → ProtocolKept t

/-- R155, R244: every step keeps the poll-before-access discipline: no DATA write without OUTPUT_EMPTY just read as set,
but for INIT's divisor byte right after DLAB was set, and no DATA read without DATA_READY just read as set. -/
def Obligations.StepKeepsPollBeforeAccess : Prop :=
  ∀ s t : State, PollDiscipline s → step s = .next t → PollDiscipline t

/-- R161: INIT, LSTS, TSENDR and TRECV reach DONE in at most 8, 1, 2 and 2 steps after acceptance, whatever the device
answers and whatever the host does but reset. -/
def Obligations.BoundedCommandsTerminate : Prop :=
  ∀ (s : State) (i : Instr) (bound : Nat), s.cfg.ok → .reset ∉ s.host.acts.take bound → latched i s → s.idx = 0 →
    ((i = .init ∧ s.phase = .init ∧ bound = 8) ∨ (i = .lsts ∧ s.phase = .poll ∧ bound = 1) ∨
      ((∃ b, i = .tsendr b) ∧ s.phase = .poll ∧ bound = 2) ∨ (i = .trecv ∧ s.phase = .poll ∧ bound = 2)) →
    ∃ k t, k ≤ bound ∧ steps k s = .next t ∧ t.phase = .done

/-- R161, V57: a blocking command spins: through any number of not-ready polls it stays in POLL with every register
unchanged, and makes nothing but reads of LSR, with a hint each, whatever the host does but reset. -/
def Obligations.BlockingCommandSpins : Prop :=
  ∀ (s : State) (i : Instr) (b : Byte) (n : Nat),
    s.cfg.ok → s.phase = .poll → .reset ∉ s.host.acts.take n → latched i s →
    (i = .send b ∨ i = .sendr b ∨ i = .recv) → n ≤ (lsrAnswers s).length →
    (∀ v ∈ (lsrAnswers s).take n, readyFor s.cfg s.opr v = false) →
    ∃ t, steps n s = .next t ∧ t.phase = .poll ∧ t.idx = s.idx ∧ t.opr = s.opr ∧ t.argr = s.argr ∧
      t.rstat = s.rstat ∧ t.rdata = s.rdata ∧ t.trace = s.trace ++ spinEvents s.cfg ((lsrAnswers s).take n)

/-- R161, R66: under ENV_TX_LIVE (for RECV, ENV_RX_LIVE) a blocking command leaves its poll loop, after no more polls than
the device has answers planned, unless the host resets. -/
def Obligations.BlockingCommandLeavesPollWhenLive : Prop :=
  ∀ (s : State) (i : Instr) (b : Byte), s.cfg.ok → s.phase = .poll →
    .reset ∉ s.host.acts.take (lsrAnswers s).length → latched i s →
    ((i = .send b ∨ i = .sendr b) ∧ envTxLive s) ∨ (i = .recv ∧ envRxLive s) →
    ∃ k t, k ≤ (lsrAnswers s).length ∧ steps k s = .next t ∧ t.phase = .access

/-! ## The reference environment SIM (20_memory.md R68) -/

/-- T5, V37: INIT with SIM for the device: the eight writes in its log, and the six bytes it holds after. -/
def Obligations.SimRecordsTheBringUp : Prop :=
  ∀ (m : Sim) (s : State), s.cfg.ok → s.phase = .idle → s.host.acts = [.present 0x0100] →
    ∃ m' t, simSteps 9 m s = .next (m', t) ∧ t.phase = .done ∧
      m'.log = m.log ++ [(.ier, 0x00), (.lcr, 0x80), (.data, 0x03), (.ier, 0x00), (.lcr, 0x03), (.fcr, 0xC7),
        (.mcr, 0x0B), (.ier, 0x01)] ∧
      m'.data = 0x03 ∧ m'.ier = 0x01 ∧ m'.fcr = 0xC7 ∧ m'.lcr = 0x03 ∧ m'.mcr = 0x0B ∧ m'.lsr = m.lsr

/-- T1, T2: SEND b with SIM always ready: one write of b, or the three writes for 0x08 and 0x7F. -/
def Obligations.SimRecordsTheSentBytes : Prop :=
  ∀ (m : Sim) (s : State) (b : Byte), s.cfg.ok → s.phase = .idle → s.host.acts = [.present (wordOf 0x10 b)] →
    txReady s.cfg m.lsr = true →
    (b ≠ 0x08 → b ≠ 0x7F →
      ∃ m' t, simSteps 3 m s = .next (m', t) ∧ t.phase = .done ∧ m'.log = m.log ++ [(.data, b)]) ∧
    (b = 0x08 ∨ b = 0x7F →
      ∃ m' t, simSteps 7 m s = .next (m', t) ∧ t.phase = .done ∧
        m'.log = m.log ++ [(.data, 0x08), (.data, 0x20), (.data, 0x08)])
end

