-- ==== Sys2Proof/Laws/Decode.lean ====
section
/-! SUPPORT. The small lemmas of words, opcodes and the opcode map. -/

namespace Sys2Proof

/-- The bits of a word, from its two bytes. -/
theorem getLsbD_wordOf (hi lo : Byte) (k : Nat) :
    (wordOf hi lo).getLsbD k = if k < 8 then lo.getLsbD k else hi.getLsbD (k - 8) := by
  have h : (hi ++ lo).getLsbD k = _ := BitVec.getLsbD_append
  rw [show (wordOf hi lo).getLsbD k = (hi ++ lo).getLsbD k from rfl, h]

@[simp] theorem highByte_wordOf (hi lo : Byte) : highByte (wordOf hi lo) = hi := by
  apply BitVec.eq_of_getLsbD_eq
  intro k hk
  simp [highByte, hk, getLsbD_wordOf]

@[simp] theorem lowByte_wordOf (hi lo : Byte) : lowByte (wordOf hi lo) = lo := by
  apply BitVec.eq_of_getLsbD_eq
  intro k hk
  simp [lowByte, hk, getLsbD_wordOf]

@[simp] theorem wordOf_highByte_lowByte (w : Word) : wordOf (highByte w) (lowByte w) = w := by
  apply BitVec.eq_of_getLsbD_eq
  intro k hk
  rw [getLsbD_wordOf]
  split
  next h => simp [lowByte, h]
  next h =>
    have h1 : k - 8 < 8 := by omega
    have h2 : 8 + (k - 8) = k := by omega
    simp [highByte, h1, h2]

@[simp] theorem highByte_encode (i : Instr) : highByte (encode i) = i.opcode := highByte_wordOf _ _

@[simp] theorem lowByte_encode (i : Instr) : lowByte (encode i) = i.operand := lowByte_wordOf _ _

/-- The opcode map gives back each instruction from its own two bytes. -/
theorem ofOpcode_self (i : Instr) : ofOpcode i.opcode i.operand = some i := by
  cases i <;> simp [ofOpcode, Instr.opcode, Instr.mnemonic, Mnemonic.opcode, Instr.operand]

/-- Everything the opcode map can answer: an instruction of that opcode, whose operand, if it has one, is the argument. -/
theorem ofOpcode_cases {opc arg : Byte} {i : Instr} (h : ofOpcode opc arg = some i) :
    opc = i.opcode ∧ (i.mnemonic.takesOperand = true → i.operand = arg) := by
  unfold ofOpcode at h
  split at h
  next e => cases h; exact ⟨e, by simp [Instr.mnemonic, Mnemonic.takesOperand]⟩
  split at h
  next e => cases h; exact ⟨e, by simp [Instr.mnemonic, Mnemonic.takesOperand]⟩
  split at h
  next e => cases h; exact ⟨e, fun _ => rfl⟩
  split at h
  next e => cases h; exact ⟨e, fun _ => rfl⟩
  split at h
  next e => cases h; exact ⟨e, fun _ => rfl⟩
  split at h
  next e => cases h; exact ⟨e, by simp [Instr.mnemonic, Mnemonic.takesOperand]⟩
  split at h
  next e => cases h; exact ⟨e, by simp [Instr.mnemonic, Mnemonic.takesOperand]⟩
  cases h

/-- Everything the decoder can answer with a command: the opcode map's instruction, with ARG its operand. -/
theorem decode_cases {w : Word} {i : Instr} (h : decode w = .cmd i) :
    ofOpcode (highByte w) (lowByte w) = some i ∧ i.operand = lowByte w := by
  unfold decode at h
  split at h
  next => cases h
  next j e =>
    split at h
    next hj => cases h; exact ⟨e, hj⟩
    next => cases h

end Sys2Proof
end

