-- ==== Sys2Proof/Laws/State.lean ====
section
/-! SUPPORT. What each named update leaves in each field of State: one lemma a field, true by unfolding once. -/

namespace Sys2Proof.Machine

/-! ## log -/

@[simp] theorem log_cfg (e : Event) (s : State) : (log e s).cfg = s.cfg := rfl
@[simp] theorem log_phase (e : Event) (s : State) : (log e s).phase = s.phase := rfl
@[simp] theorem log_idx (e : Event) (s : State) : (log e s).idx = s.idx := rfl
@[simp] theorem log_opr (e : Event) (s : State) : (log e s).opr = s.opr := rfl
@[simp] theorem log_argr (e : Event) (s : State) : (log e s).argr = s.argr := rfl
@[simp] theorem log_rstat (e : Event) (s : State) : (log e s).rstat = s.rstat := rfl
@[simp] theorem log_rdata (e : Event) (s : State) : (log e s).rdata = s.rdata := rfl
@[simp] theorem log_dev (e : Event) (s : State) : (log e s).dev = s.dev := rfl
@[simp] theorem log_host (e : Event) (s : State) : (log e s).host = s.host := rfl
@[simp] theorem log_trace (e : Event) (s : State) : (log e s).trace = s.trace ++ [e] := rfl

/-! ## regWrite -/

@[simp] theorem regWrite_cfg (i : RegIndex) (v : Byte) (s : State) : (regWrite i v s).cfg = s.cfg := rfl
@[simp] theorem regWrite_phase (i : RegIndex) (v : Byte) (s : State) : (regWrite i v s).phase = s.phase := rfl
@[simp] theorem regWrite_idx (i : RegIndex) (v : Byte) (s : State) : (regWrite i v s).idx = s.idx := rfl
@[simp] theorem regWrite_opr (i : RegIndex) (v : Byte) (s : State) : (regWrite i v s).opr = s.opr := rfl
@[simp] theorem regWrite_argr (i : RegIndex) (v : Byte) (s : State) : (regWrite i v s).argr = s.argr := rfl
@[simp] theorem regWrite_rstat (i : RegIndex) (v : Byte) (s : State) : (regWrite i v s).rstat = s.rstat := rfl
@[simp] theorem regWrite_rdata (i : RegIndex) (v : Byte) (s : State) : (regWrite i v s).rdata = s.rdata := rfl
@[simp] theorem regWrite_dev (i : RegIndex) (v : Byte) (s : State) : (regWrite i v s).dev = s.dev.write i v := rfl
@[simp] theorem regWrite_host (i : RegIndex) (v : Byte) (s : State) : (regWrite i v s).host = s.host := rfl
@[simp] theorem regWrite_trace (i : RegIndex) (v : Byte) (s : State) : (regWrite i v s).trace = s.trace ++ [.write (space s.cfg) (addr s.cfg i) v] := rfl

/-! ## respond -/

@[simp] theorem respond_cfg (st d : Byte) (s : State) : (respond st d s).cfg = s.cfg := rfl
@[simp] theorem respond_phase (st d : Byte) (s : State) : (respond st d s).phase = .done := rfl
@[simp] theorem respond_idx (st d : Byte) (s : State) : (respond st d s).idx = s.idx := rfl
@[simp] theorem respond_opr (st d : Byte) (s : State) : (respond st d s).opr = s.opr := rfl
@[simp] theorem respond_argr (st d : Byte) (s : State) : (respond st d s).argr = s.argr := rfl
@[simp] theorem respond_rstat (st d : Byte) (s : State) : (respond st d s).rstat = st := rfl
@[simp] theorem respond_rdata (st d : Byte) (s : State) : (respond st d s).rdata = d := rfl
@[simp] theorem respond_dev (st d : Byte) (s : State) : (respond st d s).dev = s.dev := rfl
@[simp] theorem respond_host (st d : Byte) (s : State) : (respond st d s).host = s.host := rfl
@[simp] theorem respond_trace (st d : Byte) (s : State) : (respond st d s).trace = s.trace ++ [.resp st d] := rfl

/-! ## wouldBlock -/

@[simp] theorem wouldBlock_cfg (s : State) : (wouldBlock s).cfg = s.cfg := rfl
@[simp] theorem wouldBlock_phase (s : State) : (wouldBlock s).phase = .done := rfl
@[simp] theorem wouldBlock_idx (s : State) : (wouldBlock s).idx = s.idx := rfl
@[simp] theorem wouldBlock_opr (s : State) : (wouldBlock s).opr = s.opr := rfl
@[simp] theorem wouldBlock_argr (s : State) : (wouldBlock s).argr = s.argr := rfl
@[simp] theorem wouldBlock_rstat (s : State) : (wouldBlock s).rstat = 0x01 := rfl
@[simp] theorem wouldBlock_rdata (s : State) : (wouldBlock s).rdata = 0x00 := rfl
@[simp] theorem wouldBlock_dev (s : State) : (wouldBlock s).dev = s.dev := rfl
@[simp] theorem wouldBlock_host (s : State) : (wouldBlock s).host = s.host := rfl
@[simp] theorem wouldBlock_trace (s : State) : (wouldBlock s).trace = s.trace ++ [.resp 0x01 0x00] := rfl

/-! ## take -/

@[simp] theorem take_cfg (s : State) : (take s).cfg = s.cfg := rfl
@[simp] theorem take_phase (s : State) : (take s).phase = .idle := rfl
@[simp] theorem take_idx (s : State) : (take s).idx = s.idx := rfl
@[simp] theorem take_opr (s : State) : (take s).opr = s.opr := rfl
@[simp] theorem take_argr (s : State) : (take s).argr = s.argr := rfl
@[simp] theorem take_rstat (s : State) : (take s).rstat = s.rstat := rfl
@[simp] theorem take_rdata (s : State) : (take s).rdata = s.rdata := rfl
@[simp] theorem take_dev (s : State) : (take s).dev = s.dev := rfl
@[simp] theorem take_host (s : State) : (take s).host = { s.host with taken := s.host.taken ++ [respWord s] } := rfl
@[simp] theorem take_trace (s : State) : (take s).trace = s.trace := rfl

/-! ## hint -/

@[simp] theorem hint_cfg (s : State) : (hint s).cfg = s.cfg := rfl
@[simp] theorem hint_phase (s : State) : (hint s).phase = s.phase := rfl
@[simp] theorem hint_idx (s : State) : (hint s).idx = s.idx := rfl
@[simp] theorem hint_opr (s : State) : (hint s).opr = s.opr := rfl
@[simp] theorem hint_argr (s : State) : (hint s).argr = s.argr := rfl
@[simp] theorem hint_rstat (s : State) : (hint s).rstat = s.rstat := rfl
@[simp] theorem hint_rdata (s : State) : (hint s).rdata = s.rdata := rfl
@[simp] theorem hint_dev (s : State) : (hint s).dev = s.dev := rfl
@[simp] theorem hint_host (s : State) : (hint s).host = s.host := rfl
@[simp] theorem hint_trace (s : State) : (hint s).trace = s.trace ++ [.hint] := rfl

/-! ## latchCommand -/

@[simp] theorem latchCommand_cfg (w : Word) (s : State) : (latchCommand w s).cfg = s.cfg := rfl
@[simp] theorem latchCommand_phase (w : Word) (s : State) : (latchCommand w s).phase = s.phase := rfl
@[simp] theorem latchCommand_idx (w : Word) (s : State) : (latchCommand w s).idx = 0 := rfl
@[simp] theorem latchCommand_opr (w : Word) (s : State) : (latchCommand w s).opr = highByte w := rfl
@[simp] theorem latchCommand_argr (w : Word) (s : State) : (latchCommand w s).argr = lowByte w := rfl
@[simp] theorem latchCommand_rstat (w : Word) (s : State) : (latchCommand w s).rstat = s.rstat := rfl
@[simp] theorem latchCommand_rdata (w : Word) (s : State) : (latchCommand w s).rdata = s.rdata := rfl
@[simp] theorem latchCommand_dev (w : Word) (s : State) : (latchCommand w s).dev = s.dev := rfl
@[simp] theorem latchCommand_host (w : Word) (s : State) : (latchCommand w s).host = s.host := rfl
@[simp] theorem latchCommand_trace (w : Word) (s : State) : (latchCommand w s).trace = s.trace ++ [.cmd w] := rfl

/-! ## accept -/

@[simp] theorem accept_cfg (i : Instr) (p : Phase) (s : State) : (accept i p s).cfg = s.cfg := rfl
@[simp] theorem accept_phase (i : Instr) (p : Phase) (s : State) : (accept i p s).phase = p := rfl
@[simp] theorem accept_idx (i : Instr) (p : Phase) (s : State) : (accept i p s).idx = 0 := rfl
@[simp] theorem accept_opr (i : Instr) (p : Phase) (s : State) : (accept i p s).opr = highByte (encode i) := rfl
@[simp] theorem accept_argr (i : Instr) (p : Phase) (s : State) : (accept i p s).argr = lowByte (encode i) := rfl
@[simp] theorem accept_rstat (i : Instr) (p : Phase) (s : State) : (accept i p s).rstat = s.rstat := rfl
@[simp] theorem accept_rdata (i : Instr) (p : Phase) (s : State) : (accept i p s).rdata = s.rdata := rfl
@[simp] theorem accept_dev (i : Instr) (p : Phase) (s : State) : (accept i p s).dev = s.dev := rfl
@[simp] theorem accept_host (i : Instr) (p : Phase) (s : State) : (accept i p s).host = s.host := rfl
@[simp] theorem accept_trace (i : Instr) (p : Phase) (s : State) : (accept i p s).trace = s.trace ++ [.cmd (encode i)] := rfl

/-! ## resetEngine -/

@[simp] theorem resetEngine_cfg (s : State) : (resetEngine s).cfg = s.cfg := rfl
@[simp] theorem resetEngine_phase (s : State) : (resetEngine s).phase = .idle := rfl
@[simp] theorem resetEngine_idx (s : State) : (resetEngine s).idx = 0 := rfl
@[simp] theorem resetEngine_opr (s : State) : (resetEngine s).opr = 0x00 := rfl
@[simp] theorem resetEngine_argr (s : State) : (resetEngine s).argr = 0x00 := rfl
@[simp] theorem resetEngine_rstat (s : State) : (resetEngine s).rstat = 0x00 := rfl
@[simp] theorem resetEngine_rdata (s : State) : (resetEngine s).rdata = 0x00 := rfl
@[simp] theorem resetEngine_dev (s : State) : (resetEngine s).dev = s.dev := rfl
@[simp] theorem resetEngine_host (s : State) : (resetEngine s).host = s.host := rfl
@[simp] theorem resetEngine_trace (s : State) : (resetEngine s).trace = s.trace ++ [.reset] := rfl

/-! ## settle -/

@[simp] theorem settle_cfg (s t : State) : (settle s t).cfg = t.cfg := rfl
@[simp] theorem settle_phase (s t : State) : (settle s t).phase = t.phase := rfl
@[simp] theorem settle_idx (s t : State) : (settle s t).idx = t.idx := rfl
@[simp] theorem settle_opr (s t : State) : (settle s t).opr = t.opr := rfl
@[simp] theorem settle_argr (s t : State) : (settle s t).argr = t.argr := rfl
@[simp] theorem settle_rstat (s t : State) : (settle s t).rstat = t.rstat := rfl
@[simp] theorem settle_rdata (s t : State) : (settle s t).rdata = t.rdata := rfl
@[simp] theorem settle_dev (s t : State) : (settle s t).dev = t.dev.move := rfl
@[simp] theorem settle_host (s t : State) : (settle s t).host = { t.host with acts := s.host.actsAfter s.phase } := rfl
@[simp] theorem settle_trace (s t : State) : (settle s t).trace = t.trace := rfl

/-! ## regRead -/

@[simp] theorem regRead_value (i : RegIndex) (s : State) : (regRead i s).1 = s.dev.answer i := rfl
@[simp] theorem regRead_state (i : RegIndex) (s : State) :
    (regRead i s).2 = log (.read (space s.cfg) (addr s.cfg i) (s.dev.answer i)) s := rfl

/-! ## offerWord -/

@[simp] theorem offerWord_cfg (w : Word) (s : State) : (offerWord w s).cfg = s.cfg := rfl
@[simp] theorem offerWord_phase (w : Word) (s : State) : (offerWord w s).phase = .idle := rfl
@[simp] theorem offerWord_idx (w : Word) (s : State) : (offerWord w s).idx = s.idx := rfl
@[simp] theorem offerWord_opr (w : Word) (s : State) : (offerWord w s).opr = s.opr := rfl
@[simp] theorem offerWord_argr (w : Word) (s : State) : (offerWord w s).argr = s.argr := rfl
@[simp] theorem offerWord_rstat (w : Word) (s : State) : (offerWord w s).rstat = s.rstat := rfl
@[simp] theorem offerWord_rdata (w : Word) (s : State) : (offerWord w s).rdata = s.rdata := rfl
@[simp] theorem offerWord_dev (w : Word) (s : State) : (offerWord w s).dev = s.dev := rfl
@[simp] theorem offerWord_host (w : Word) (s : State) : (offerWord w s).host = { s.host with acts := .present w :: s.host.acts } := rfl
@[simp] theorem offerWord_trace (w : Word) (s : State) : (offerWord w s).trace = s.trace := rfl

end Sys2Proof.Machine
end

