-- ==== Sys2Proof/Laws/Ops.lean ====
section
/-! SUPPORT. One lemma for each shared operation that says once what it can do, and the frames of the device's updates. -/

namespace Sys2Proof.Machine

/-! ## The device -/

@[simp] theorem Device.answer_lsr (d : Device) : d.answer .lsr = d.lsr := rfl
@[simp] theorem Device.answer_data (d : Device) : d.answer .data = d.rbr := rfl

@[simp] theorem Device.write_lsr (d : Device) (i : RegIndex) (v : Byte) : (d.write i v).lsr = d.lsr := by
  cases i <;> simp [Device.write] <;> split <;> rfl
@[simp] theorem Device.write_rbr (d : Device) (i : RegIndex) (v : Byte) : (d.write i v).rbr = d.rbr := by
  cases i <;> simp [Device.write] <;> split <;> rfl
@[simp] theorem Device.write_moves (d : Device) (i : RegIndex) (v : Byte) : (d.write i v).moves = d.moves := by
  cases i <;> simp [Device.write] <;> split <;> rfl
@[simp] theorem Device.write_tick (d : Device) (i : RegIndex) (v : Byte) : (d.write i v).tick = d.tick := by
  cases i <;> simp [Device.write] <;> split <;> rfl

/-- The device's own move changes nothing that the engine wrote (10_state.md R41). -/
theorem Device.move_frame (d : Device) :
    d.move.thr = d.thr ∧ d.move.ier = d.ier ∧ d.move.fcr = d.fcr ∧ d.move.lcr = d.lcr ∧ d.move.mcr = d.mcr ∧
      d.move.dll = d.dll ∧ d.move.dlm = d.dlm := by
  unfold Device.move
  split <;> exact ⟨rfl, rfl, rfl, rfl, rfl, rfl, rfl⟩

@[simp] theorem Device.move_thr (d : Device) : d.move.thr = d.thr := d.move_frame.1
@[simp] theorem Device.move_ier (d : Device) : d.move.ier = d.ier := d.move_frame.2.1
@[simp] theorem Device.move_fcr (d : Device) : d.move.fcr = d.fcr := d.move_frame.2.2.1
@[simp] theorem Device.move_lcr (d : Device) : d.move.lcr = d.lcr := d.move_frame.2.2.2.1
@[simp] theorem Device.move_mcr (d : Device) : d.move.mcr = d.mcr := d.move_frame.2.2.2.2.1
@[simp] theorem Device.move_dll (d : Device) : d.move.dll = d.dll := d.move_frame.2.2.2.2.2.1
@[simp] theorem Device.move_dlm (d : Device) : d.move.dlm = d.dlm := d.move_frame.2.2.2.2.2.2

/-- A planned move is the one taken. -/
theorem Device.move_planned {d : Device} {m : DeviceMove} {ms : List DeviceMove} (h : d.moves = m :: ms) :
    d.move = { d with lsr := m.lsr, rbr := m.rbr, moves := ms } := by
  simp [Device.move, h]

/-! ## Addresses -/

theorem Cfg.ok_stride {c : Cfg} (h : c.ok = true) : 1 ≤ c.stride := by
  simp [Cfg.ok] at h
  omega

theorem RegIndex.toNat_le (i : RegIndex) : i.toNat ≤ 5 := by cases i <;> decide

/-- Distinct registers have distinct addresses (20_memory.md R51). -/
theorem addr_injective {c : Cfg} (h : c.ok = true) {i j : RegIndex} (e : addr c i = addr c j) : i = j := by
  have hs := Cfg.ok_stride h
  have e' : i.toNat * c.stride = j.toNat * c.stride := by simpa [addr] using e
  have : i.toNat = j.toNat := Nat.eq_of_mul_eq_mul_right hs e'
  revert this
  cases i <;> cases j <;> simp [RegIndex.toNat]

/-- The address decoder finds the register that the address rule names. -/
theorem regAt_addr {c : Cfg} (h : c.ok = true) (i : RegIndex) : regAt c (addr c i) = some i := by
  have hne : ∀ j : RegIndex, j ≠ i → (addr c j == addr c i) = false := by
    intro j hj
    simpa using fun e => hj (addr_injective h e)
  cases i <;> simp [regAt, RegIndex.all, hne]

/-! ## The transmit byte -/

/-- Inside its count a transmit command always has a next byte. -/
theorem txByte_of_lt {opr argr : Byte} {idx : BitVec 3} (h : idx.toNat < txCount opr argr) :
    ∃ b, txByte opr argr idx = some b := by
  unfold txByte
  unfold txCount at h
  split
  next e =>
    simp only [e, if_true] at h
    have hl : idx.toNat < eraseSequence.length := by simpa [eraseSequence] using h
    exact ⟨eraseSequence[idx.toNat], by simp [hl]⟩
  next => exact ⟨argr, rfl⟩

/-! ## The engine's own steps -/

/-- All that an INIT step can do (42_sequencer.md R153). -/
theorem initStep_cases (s : State) :
    (s.idx.toNat < 7 ∧
      initStep s = { regWrite (initRow s.idx).1 (initRow s.idx).2 s with idx := s.idx + 1 }) ∨
    (¬ s.idx.toNat < 7 ∧
      initStep s = respond 0x00 0x00 (regWrite (initRow s.idx).1 (initRow s.idx).2 s)) := by
  by_cases h : s.idx.toNat < 7
  · exact .inl ⟨h, by simp [initStep, h]⟩
  · exact .inr ⟨h, by simp [initStep, h, statusOk]⟩

/-- All that a poll step of a transfer command can do (R154). -/
theorem pollTransfer_cases (ready : Cfg → Byte → Bool) (notReady : State → State) (s : State) :
    (ready s.cfg s.dev.lsr = true ∧
      pollTransfer ready notReady s =
        { log (.read (space s.cfg) (addr s.cfg .lsr) s.dev.lsr) s with phase := .access }) ∨
    (ready s.cfg s.dev.lsr = false ∧
      pollTransfer ready notReady s = notReady (log (.read (space s.cfg) (addr s.cfg .lsr) s.dev.lsr) s)) := by
  cases h : ready s.cfg s.dev.lsr
  · exact .inr ⟨rfl, by simp [pollTransfer, h]⟩
  · exact .inl ⟨rfl, by simp [pollTransfer, h]⟩

/-- All that an access step of a transmit command can do (R155). -/
theorem accessTransmit_cases {s t : State} (h : accessTransmit s = .next t) :
    ∃ b, txByte s.opr s.argr s.idx = some b ∧
      ((s.idx.toNat + 1 < txCount s.opr s.argr ∧
          t = { regWrite .data b s with idx := s.idx + 1, phase := .poll }) ∨
        (¬ s.idx.toNat + 1 < txCount s.opr s.argr ∧ t = respond 0x00 0x00 (regWrite .data b s))) := by
  unfold accessTransmit at h
  split at h
  next => cases h
  next b hb =>
    refine ⟨b, hb, ?_⟩
    split at h
    next hl => cases h; exact .inl ⟨hl, rfl⟩
    next hl => cases h; exact .inr ⟨hl, rfl⟩

/-- No line-status flag is lost by decoding and encoding (41_flag_decoders.md R122), so LSTS answers the byte it read. -/
theorem encodeLsr_decodeLsr (b : Byte) : encodeLsr (decodeLsr b) = b := by
  revert b
  decide

theorem pollStatus_eq (s : State) :
    pollStatus s =
      respond 0x00 s.dev.lsr (log (.read (space s.cfg) (addr s.cfg .lsr) s.dev.lsr) s) := by
  simp [pollStatus, encodeLsr_decodeLsr, statusOk]

theorem accessReceive_eq (s : State) :
    accessReceive s =
      respond 0x00 s.dev.rbr (log (.read (space s.cfg) (addr s.cfg .data) s.dev.rbr) s) := by
  simp [accessReceive, statusOk]

end Sys2Proof.Machine
end

