-- ==== Sys2Proof/Laws/Exec.lean ====
section
/-! SUPPORT. Inversion of the transfer commands' life, of exec, of the engine's step and of step: if it answers next t,
then one of these cases holds. -/

namespace Sys2Proof.Machine

/-- All that a transfer command can do. -/
theorem transferCommand_cases {i : Instr} {pollStep : State → State}
    {accessStep : State → Host.Outcome State Fault Refusal} {s t : State}
    (h : transferCommand i pollStep accessStep s = .next t) :
    (s.phase = .idle ∧ t = accept i .poll s) ∨ (s.phase = .poll ∧ t = pollStep s) ∨
      (s.phase = .access ∧ accessStep s = .next t) ∨ (s.phase = .done ∧ t = s) := by
  unfold transferCommand at h
  split at h
  next e => cases h; exact .inl ⟨e, rfl⟩
  next => cases h
  next e => cases h; exact .inr (.inl ⟨e, rfl⟩)
  next e => exact .inr (.inr (.inl ⟨e, h⟩))
  next e => cases h; exact .inr (.inr (.inr ⟨e, rfl⟩))

/-- The phase an accepted command starts in (42_sequencer.md R151). -/
def firstPhase : Instr → Phase
  | .init => .init
  | .lsts | .send _ | .sendr _ | .tsendr _ | .recv | .trecv => .poll

/-- All that a poll step of command i can be (R154). -/
def pollOf (i : Instr) (s t : State) : Prop :=
  match i with
  | .init => False
  | .lsts => t = pollStatus s
  | .send _ | .sendr _ => t = pollTransfer txReady hint s
  | .tsendr _ => t = pollTransfer txReady wouldBlock s
  | .recv => t = pollTransfer rxReady hint s
  | .trecv => t = pollTransfer rxReady wouldBlock s

/-- All that an access step of command i can be (R155). -/
def accessOf (i : Instr) (s t : State) : Prop :=
  match i with
  | .init | .lsts => False
  | .send _ | .sendr _ | .tsendr _ => accessTransmit s = .next t
  | .recv | .trecv => t = accessReceive s

/-- All that exec can do. -/
theorem exec_cases {i : Instr} {s t : State} (h : exec i s = .next t) :
    (s.phase = .idle ∧ t = accept i (firstPhase i) s) ∨
      (s.phase = .init ∧ i = .init ∧ t = initStep s) ∨
      (s.phase = .poll ∧ pollOf i s t) ∨ (s.phase = .access ∧ accessOf i s t) ∨ (s.phase = .done ∧ t = s) := by
  have lift : ∀ {p : State → State} {a : State → Host.Outcome State Fault Refusal},
      transferCommand i p a s = .next t → firstPhase i = .poll → (t = p s → pollOf i s t) →
      (a s = .next t → accessOf i s t) →
      (s.phase = .idle ∧ t = accept i (firstPhase i) s) ∨
        (s.phase = .init ∧ i = .init ∧ t = initStep s) ∨
        (s.phase = .poll ∧ pollOf i s t) ∨ (s.phase = .access ∧ accessOf i s t) ∨ (s.phase = .done ∧ t = s) := by
    intro p a h hf hp ha
    obtain ⟨e, ht⟩ | ⟨e, ht⟩ | ⟨e, ht⟩ | ⟨e, ht⟩ := transferCommand_cases h
    · exact .inl ⟨e, by rw [hf]; exact ht⟩
    · exact .inr (.inr (.inl ⟨e, hp ht⟩))
    · exact .inr (.inr (.inr (.inl ⟨e, ha ht⟩)))
    · exact .inr (.inr (.inr (.inr ⟨e, ht⟩)))
  cases i with
  | init =>
    simp only [exec, execInit] at h
    split at h
    next e => cases h; exact .inl ⟨e, rfl⟩
    next e => cases h; exact .inr (.inl ⟨e, rfl, rfl⟩)
    next => cases h
    next => cases h
    next e => cases h; exact .inr (.inr (.inr (.inr ⟨e, rfl⟩)))
  | lsts =>
    exact lift (p := pollStatus) (a := fun _ => .refused .noSuchStep) h rfl id (fun h => by cases h)
  | send b => exact lift h rfl id id
  | sendr b => exact lift h rfl id id
  | tsendr b => exact lift h rfl id id
  | recv =>
    exact lift (p := pollTransfer rxReady hint) (a := fun u => .next (accessReceive u)) h rfl id
      (fun h => by cases h; exact rfl)
  | trecv =>
    exact lift (p := pollTransfer rxReady wouldBlock) (a := fun u => .next (accessReceive u)) h rfl id
      (fun h => by cases h; exact rfl)

/-- All that the engine and the host can do in a step. -/
theorem engineStep_cases {s t : State} (h : engineStep s = .next t) :
    (s.host.assertsReset = true ∧ t = resetEngine s) ∨
      (s.host.assertsReset = false ∧
        ((∃ i, fetch s = some i ∧ exec i s = .next t) ∨
          (fetch s = none ∧ s.phase = .idle ∧ ∃ w, s.host.offered = some w ∧ t = acceptIllegal w s) ∨
          (fetch s = none ∧ s.phase = .idle ∧ s.host.offered = none ∧ t = s) ∨
          (fetch s = none ∧ s.phase = .done ∧ s.host.takes = true ∧ t = take s) ∨
          (fetch s = none ∧ s.phase = .done ∧ s.host.takes = false ∧ t = s))) := by
  unfold engineStep at h
  split at h
  next hr => cases h; exact .inl ⟨hr, rfl⟩
  next hr =>
    refine .inr ⟨by simpa using hr, ?_⟩
    split at h
    next i hi => exact .inl ⟨i, hi, h⟩
    next hn =>
      split at h
      next hp =>
        split at h
        next w hw => cases h; exact .inr (.inl ⟨hn, hp, w, hw, rfl⟩)
        next hw => cases h; exact .inr (.inr (.inl ⟨hn, hp, hw, rfl⟩))
      next hp =>
        split at h
        next ht => cases h; exact .inr (.inr (.inr (.inl ⟨hn, hp, ht, rfl⟩)))
        next ht => cases h; exact .inr (.inr (.inr (.inr ⟨hn, hp, by simpa using ht, rfl⟩)))
      next => cases h
      next => cases h
      next => cases h

/-- All that a step can do. -/
theorem step_cases {s t : State} (h : step s = .next t) :
    s.cfg.ok = true ∧ ∃ u, engineStep s = .next u ∧ t = settle s u := by
  unfold step at h
  split at h
  next hc =>
    refine ⟨hc, ?_⟩
    cases hu : engineStep s with
    | next u => rw [hu] at h; cases h; exact ⟨u, rfl, rfl⟩
    | fault e => cases e
    | refused r => rw [hu] at h; cases h
  next => cases h

/-- A step, from its engine's step. -/
theorem step_of_engineStep {s u : State} (hc : s.cfg.ok = true) (h : engineStep s = .next u) :
    step s = .next (settle s u) := by
  simp [step, hc, h, mapNext]

/-- All that a fetch can give in each phase. -/
theorem fetch_cases {s : State} {i : Instr} (h : fetch s = some i) :
    s.host.assertsReset = false ∧
      ((s.phase = .idle ∧ ∃ w, s.host.offered = some w ∧ decode w = .cmd i) ∨ (s.phase = .init ∧ i = .init) ∨
        (s.phase = .poll ∧ ofOpcode s.opr s.argr = some i) ∨ (s.phase = .access ∧ ofOpcode s.opr s.argr = some i)) := by
  unfold fetch at h
  split at h
  next => cases h
  next hr =>
    refine ⟨by simpa using hr, ?_⟩
    split at h
    next hp =>
      refine .inl ⟨hp, ?_⟩
      obtain ⟨w, hw, hi⟩ := Option.bind_eq_some_iff.mp h
      refine ⟨w, hw, ?_⟩
      cases hd : decode w with
      | cmd j => simp [hd, Decoded.instr?] at hi; rw [hi]
      | illegal e => simp [hd, Decoded.instr?] at hi
    next hp => cases h; exact .inr (.inl ⟨hp, rfl⟩)
    next hp => exact .inr (.inr (.inl ⟨hp, h⟩))
    next hp => exact .inr (.inr (.inr ⟨hp, h⟩))
    next => cases h

/-! ## A host that does not reset -/

/-- No reset among the next acts: the first of the steps is no reset step. -/
theorem HostSide.assertsReset_eq_false {h : HostSide} {k : Nat} (hn : .reset ∉ h.acts.take (k + 1)) :
    h.assertsReset = false := by
  unfold HostSide.assertsReset
  cases ha : h.acts with
  | nil => rfl
  | cons a as =>
    rw [ha] at hn
    cases a <;> simp_all

/-- A step spends one act at most, so none of the later steps is a reset step either. -/
theorem HostSide.noReset_actsAfter {h : HostSide} {k : Nat} (p : Phase) (hn : .reset ∉ h.acts.take (k + 1)) :
    .reset ∉ (h.actsAfter p).take k := by
  have keep : .reset ∉ h.acts.take k := fun hm => hn (List.take_subset_take_left _ (Nat.le_succ k) hm)
  unfold HostSide.actsAfter
  cases ha : h.acts with
  | nil => simp
  | cons a as =>
    have drop : .reset ∉ as.take k := by
      rw [ha, List.take_succ_cons] at hn
      exact fun hm => hn (List.mem_cons_of_mem _ hm)
    rw [ha] at keep
    cases a <;> simp only [] <;> first | exact drop | (split <;> first | exact drop | exact keep)

end Sys2Proof.Machine
end

