-- ==== Sys2Proof/Laws/PerInstr.lean ====
section
/-! SUPPORT. A fact of the syntax for every instruction: the two bytes of its command word (30_encoding.md R80, R82). -/

namespace Sys2Proof.Laws.WordBytes

/-- OPC in the high byte, the operand (0x00 where there is none) in the low byte. -/
def Statement (i : Instr) : Prop := highByte (encode i) = i.mnemonic.opcode ∧ lowByte (encode i) = i.operand

theorem init : Statement .init := ⟨highByte_encode _, lowByte_encode _⟩
theorem lsts : Statement .lsts := ⟨highByte_encode _, lowByte_encode _⟩
theorem send (b : Byte) : Statement (.send b) := ⟨highByte_encode _, lowByte_encode _⟩
theorem sendr (b : Byte) : Statement (.sendr b) := ⟨highByte_encode _, lowByte_encode _⟩
theorem tsendr (b : Byte) : Statement (.tsendr b) := ⟨highByte_encode _, lowByte_encode _⟩
theorem recv : Statement .recv := ⟨highByte_encode _, lowByte_encode _⟩
theorem trecv : Statement .trecv := ⟨highByte_encode _, lowByte_encode _⟩

end Sys2Proof.Laws.WordBytes
end

