-- ==== Sys2Proof/Laws/Trace.lean ====
section
/-! SUPPORT. The small lemmas of the trace's predicates, event by event and for a trace that grows at its end. -/

namespace Sys2Proof.Machine

/-! ## busEvents -/

@[simp] theorem busEvents_nil : busEvents [] = [] := rfl
@[simp] theorem busEvents_append (es fs : List Event) : busEvents (es ++ fs) = busEvents es ++ busEvents fs := by
  simp [busEvents]
@[simp] theorem busEvents_read (sp : Space) (a : Nat) (v : Byte) (es : List Event) :
    busEvents (.read sp a v :: es) = .read sp a v :: busEvents es := rfl
@[simp] theorem busEvents_write (sp : Space) (a : Nat) (v : Byte) (es : List Event) :
    busEvents (.write sp a v :: es) = .write sp a v :: busEvents es := rfl
@[simp] theorem busEvents_cmd (w : Word) (es : List Event) : busEvents (.cmd w :: es) = busEvents es := rfl
@[simp] theorem busEvents_hint (es : List Event) : busEvents (.hint :: es) = busEvents es := rfl
@[simp] theorem busEvents_resp (st d : Byte) (es : List Event) : busEvents (.resp st d :: es) = busEvents es := rfl
@[simp] theorem busEvents_reset (es : List Event) : busEvents (.reset :: es) = busEvents es := rfl

/-! ## dataWrites -/

@[simp] theorem dataWrites_nil (c : Cfg) : dataWrites c [] = [] := rfl
@[simp] theorem dataWrites_append (c : Cfg) (es fs : List Event) :
    dataWrites c (es ++ fs) = dataWrites c es ++ dataWrites c fs := by
  simp [dataWrites]
@[simp] theorem dataWrites_data (c : Cfg) (sp : Space) (v : Byte) (es : List Event) :
    dataWrites c (.write sp (addr c .data) v :: es) = v :: dataWrites c es := by
  simp [dataWrites]
@[simp] theorem dataWrites_read (c : Cfg) (sp : Space) (a : Nat) (v : Byte) (es : List Event) :
    dataWrites c (.read sp a v :: es) = dataWrites c es := rfl
@[simp] theorem dataWrites_cmd (c : Cfg) (w : Word) (es : List Event) :
    dataWrites c (.cmd w :: es) = dataWrites c es := rfl
@[simp] theorem dataWrites_hint (c : Cfg) (es : List Event) : dataWrites c (.hint :: es) = dataWrites c es := rfl
@[simp] theorem dataWrites_resp (c : Cfg) (st d : Byte) (es : List Event) :
    dataWrites c (.resp st d :: es) = dataWrites c es := rfl
@[simp] theorem dataWrites_reset (c : Cfg) (es : List Event) : dataWrites c (.reset :: es) = dataWrites c es := rfl

/-! ## spinEvents -/

@[simp] theorem spinEvents_nil (c : Cfg) : spinEvents c [] = [] := rfl
@[simp] theorem spinEvents_cons (c : Cfg) (v : Byte) (vs : List Byte) :
    spinEvents c (v :: vs) = readEvent c .lsr v :: .hint :: spinEvents c vs := rfl

/-! ## retarget: an access of one engine, as another makes it -/

@[simp] theorem retarget_read {c : Cfg} (c' : Cfg) (h : c.ok = true) (i : RegIndex) (v : Byte) :
    retarget c c' (.read (space c) (addr c i) v) = .read (space c') (addr c' i) v := by
  simp [retarget, regAt_addr h]
@[simp] theorem retarget_write {c : Cfg} (c' : Cfg) (h : c.ok = true) (i : RegIndex) (v : Byte) :
    retarget c c' (.write (space c) (addr c i) v) = .write (space c') (addr c' i) v := by
  simp [retarget, regAt_addr h]
@[simp] theorem retarget_cmd (c c' : Cfg) (w : Word) : retarget c c' (.cmd w) = .cmd w := rfl
@[simp] theorem retarget_hint (c c' : Cfg) : retarget c c' .hint = .hint := rfl
@[simp] theorem retarget_resp (c c' : Cfg) (st d : Byte) : retarget c c' (.resp st d) = .resp st d := rfl
@[simp] theorem retarget_reset (c c' : Cfg) : retarget c c' .reset = .reset := rfl

/-! ## confined -/

@[simp] theorem confined_read (c : Cfg) (i : RegIndex) (v : Byte) (h : i = .data ∨ i = .lsr) :
    confined c (.read (space c) (addr c i) v) := by
  rcases h with rfl | rfl <;> simp [confined]
@[simp] theorem confined_write (c : Cfg) (i : RegIndex) (v : Byte) (h : i ≠ .lsr) :
    confined c (.write (space c) (addr c i) v) := ⟨rfl, i, h, rfl⟩
@[simp] theorem confined_cmd (c : Cfg) (w : Word) : confined c (.cmd w) := trivial
@[simp] theorem confined_hint (c : Cfg) : confined c .hint := trivial
@[simp] theorem confined_resp (c : Cfg) (st d : Byte) : confined c (.resp st d) := trivial
@[simp] theorem confined_reset (c : Cfg) : confined c .reset := trivial

/-- No row of the bring-up table names the line-status register (43_init.md R171). -/
theorem initRow_ne_lsr (k : BitVec 3) : (initRow k).1 ≠ .lsr := by
  revert k
  decide

/-! ## The trace's protocol and licences, at the end of a trace -/

theorem protocolState_append (es fs : List Event) :
    protocolState (es ++ fs) = fs.foldl protocolNext (protocolState es) := by
  simp [protocolState]

/-- The licences of a trace followed by another are the licences of each, the second from the first one's last event. -/
theorem licensedTrace_append (c : Cfg) (es : List Event) (prev : Option Event) (fs : List Event) :
    licensedTrace c prev (es ++ fs) ↔
      licensedTrace c prev es ∧ licensedTrace c (es.getLast?.or prev) fs := by
  induction es generalizing prev with
  | nil => simp [licensedTrace]
  | cons e es ih => simp [licensedTrace, ih, and_assoc, List.getLast?_cons]

/-! ## Watch: what each event says (20_memory.md R66) -/

@[simp] theorem Watch.event_cmd (s : State) (w : Watch) (c : Word) : w.event s (.cmd c) = w := rfl
@[simp] theorem Watch.event_hint (s : State) (w : Watch) : w.event s .hint = w := rfl
@[simp] theorem Watch.event_resp (s : State) (w : Watch) (st d : Byte) : w.event s (.resp st d) = w := rfl
@[simp] theorem Watch.event_reset (s : State) (w : Watch) : w.event s .reset = w := rfl
@[simp] theorem Watch.event_readLsr (s : State) (w : Watch) (sp : Space) (v : Byte) :
    w.event s (.read sp (addr s.cfg .lsr) v) =
      { w with txSeen := w.txSeen || txReady s.cfg v, rxSeen := w.rxSeen || rxReady s.cfg v } := by
  simp [Watch.event]

/-- A read of DATA, by an engine with the divisor hidden. -/
theorem Watch.event_readData {s : State} (hc : s.cfg.ok = true) (hd : s.dev.dlab = false) (w : Watch) (sp : Space)
    (v : Byte) : w.event s (.read sp (addr s.cfg .data) v) = { w with rxSeen := false, rxHeld := true } := by
  have : addr s.cfg .data ≠ addr s.cfg .lsr := fun e => by cases addr_injective hc e
  simp [Watch.event, this, hd]

/-- A write of DATA, with the divisor hidden. -/
theorem Watch.event_writeData {s : State} (hd : s.dev.dlab = false) (w : Watch) (sp : Space) (v : Byte) :
    w.event s (.write sp (addr s.cfg .data) v) = { w with txSeen := false, txHeld := true } := by
  simp [Watch.event, hd]

/-- A planned move that consumes nothing and produces nothing leaves the watch as it is. -/
theorem Watch.moved_idle {d : Device} {m : DeviceMove} {ms : List DeviceMove} (h : d.moves = m :: ms)
    (hc : m.consumed = false) (hp : m.produced = false) (w : Watch) : w.moved d = w := by
  simp [Watch.moved, h, hc, hp]

/-- The watch after a step whose events are known. -/
theorem Watch.after_of_trace {s t : State} {es : List Event} (h : t.trace = s.trace ++ es) (w : Watch) :
    w.after s t = (es.foldl (Watch.event s) w).moved s.dev := by
  simp [Watch.after, h]

/-! ## The events of one step -/

/-- What a step of a command in execution adds to the trace: one bus transaction, and then nothing, a hint or a response;
the command is still in execution unless it responds. -/
def BusyEvents (s t : State) : Prop :=
  ∃ e, e.isBus = true ∧ confined s.cfg e ∧
    ((busy t = true ∧ t.trace = s.trace ++ [e]) ∨ (busy t = true ∧ t.trace = s.trace ++ [e, .hint]) ∨
      (t.phase = .done ∧ ∃ st d, t.trace = s.trace ++ [e, .resp st d]))

theorem initStep_events {s : State} (hp : s.phase = .init) : BusyEvents s (initStep s) := by
  refine ⟨writeEvent s.cfg (initRow s.idx).1 (initRow s.idx).2, rfl, confined_write _ _ _ (initRow_ne_lsr _), ?_⟩
  obtain ⟨-, e⟩ | ⟨-, e⟩ := initStep_cases s
  · exact .inl (by simp [e, busy, hp])
  · exact .inr (.inr (by simp [e]))

theorem pollTransfer_hint_events {s : State} (ready : Cfg → Byte → Bool) (hp : s.phase = .poll) :
    BusyEvents s (pollTransfer ready hint s) := by
  refine ⟨readEvent s.cfg .lsr s.dev.lsr, rfl, confined_read _ _ _ (.inr rfl), ?_⟩
  obtain ⟨-, e⟩ | ⟨-, e⟩ := pollTransfer_cases ready hint s
  · exact .inl (by simp [e, busy])
  · exact .inr (.inl (by simp [e, busy, hp]))

theorem pollTransfer_wouldBlock_events (ready : Cfg → Byte → Bool) (s : State) :
    BusyEvents s (pollTransfer ready wouldBlock s) := by
  refine ⟨readEvent s.cfg .lsr s.dev.lsr, rfl, confined_read _ _ _ (.inr rfl), ?_⟩
  obtain ⟨-, e⟩ | ⟨-, e⟩ := pollTransfer_cases ready wouldBlock s
  · exact .inl (by simp [e, busy])
  · exact .inr (.inr (by simp [e]))

theorem pollStatus_events (s : State) : BusyEvents s (pollStatus s) := by
  refine ⟨readEvent s.cfg .lsr s.dev.lsr, rfl, confined_read _ _ _ (.inr rfl), ?_⟩
  exact .inr (.inr (by simp [pollStatus_eq]))

theorem accessTransmit_events {s t : State} (h : accessTransmit s = .next t) : BusyEvents s t := by
  obtain ⟨b, -, ⟨-, rfl⟩ | ⟨-, rfl⟩⟩ := accessTransmit_cases h <;>
    refine ⟨writeEvent s.cfg .data b, rfl, confined_write _ _ _ (by simp), ?_⟩
  · exact .inl (by simp [busy])
  · exact .inr (.inr (by simp))

theorem accessReceive_events (s : State) : BusyEvents s (accessReceive s) := by
  refine ⟨readEvent s.cfg .data s.dev.rbr, rfl, confined_read _ _ _ (.inl rfl), ?_⟩
  exact .inr (.inr (by simp [accessReceive_eq]))

/-- All that exec can add to the trace. -/
theorem exec_events {i : Instr} {s t : State} (h : exec i s = .next t) :
    (s.phase = .idle ∧ busy t = true ∧ t.trace = s.trace ++ [.cmd (encode i)]) ∨
      (busy s = true ∧ BusyEvents s t) ∨ (s.phase = .done ∧ t = s) := by
  obtain ⟨hp, rfl⟩ | ⟨hp, -, rfl⟩ | ⟨hp, hh⟩ | ⟨hp, hh⟩ | ⟨hp, rfl⟩ := exec_cases h
  · exact .inl ⟨hp, by cases i <;> simp [busy, firstPhase], rfl⟩
  · exact .inr (.inl ⟨by simp [busy, hp], initStep_events hp⟩)
  · refine .inr (.inl ⟨by simp [busy, hp], ?_⟩)
    cases i with
    | init => exact hh.elim
    | lsts => exact hh ▸ pollStatus_events s
    | send b => exact hh ▸ pollTransfer_hint_events txReady hp
    | sendr b => exact hh ▸ pollTransfer_hint_events txReady hp
    | tsendr b => exact hh ▸ pollTransfer_wouldBlock_events txReady s
    | recv => exact hh ▸ pollTransfer_hint_events rxReady hp
    | trecv => exact hh ▸ pollTransfer_wouldBlock_events rxReady s
  · refine .inr (.inl ⟨by simp [busy, hp], ?_⟩)
    cases i with
    | init => exact hh.elim
    | lsts => exact hh.elim
    | send b => exact accessTransmit_events hh
    | sendr b => exact accessTransmit_events hh
    | tsendr b => exact accessTransmit_events hh
    | recv => exact hh ▸ accessReceive_events s
    | trecv => exact hh ▸ accessReceive_events s
  · exact .inr (.inr ⟨hp, rfl⟩)

end Sys2Proof.Machine
end

