-- ==== Sys2Proof/Tests/Slice0.lean ====
section
/-! SUPPORT. Tests of single steps and of the pure functions, with values of 95_test_vectors.md (V<n>) or of the rule named,
and for every obligation with hypotheses a witness: concrete data that meets all of them together. -/

namespace Sys2Proof.Tests

open Sys2Proof.Machine

/-! ## Small states -/

/-- The device move that makes LSR read `lsr` and DATA read `rbr`. -/
def answer (lsr rbr : Byte) : DeviceMove := { lsr := lsr, rbr := rbr, consumed := false, produced := true }

/-- A device with every register known. -/
def device (lsr rbr lcr : Byte) (moves : List DeviceMove) : Device :=
  { lsr := lsr, rbr := rbr, thr := 0xA1, ier := 0xA2, fcr := 0xA3, lcr := lcr, mcr := 0xA4, dll := 0xA5, dlm := 0xA6,
    moves := moves, tick := 0 }

/-- An idle engine at port 0x3F8, with the host's acts and the device's moves. -/
def idleState (acts : List HostAct) (moves : List DeviceMove) : State :=
  { cfg := Config.standard, phase := .idle, idx := 0, opr := 0x00, argr := 0x00, rstat := 0x00, rdata := 0x00,
    dev := device 0x00 0x00 0x03 moves, host := { acts := acts, taken := [] }, trace := [Event.reset] }

/-- The same engine with a command in execution, or with its response pending. -/
def runState (p : Phase) (opr argr : Byte) (idx : BitVec 3) (lsr rbr : Byte) : State :=
  { idleState [] [] with phase := p, opr := opr, argr := argr, idx := idx, dev := device lsr rbr 0x03 [] }

/-- The next state, if there is one. -/
def nextOf : Host.Outcome State Fault Refusal → Option State
  | .next t => some t
  | .fault _ => none
  | .refused _ => none

/-- The events that exec adds to the trace [RESET]. -/
def added (i : Instr) (s : State) : Option (List Event) := (nextOf (exec i s)).map fun t => t.trace.drop 1

/-- The sequencer registers after exec: PHASE, IDX, RSTAT, RDATA. -/
def registers (i : Instr) (s : State) : Option (Phase × BitVec 3 × Byte × Byte) :=
  (nextOf (exec i s)).map fun t => (t.phase, t.idx, t.rstat, t.rdata)

/-- An MMIO engine at 0x1000_0000, stride 4 (V2). -/
def mmioCfg : Cfg := { Config.standard with backend := .mmio, base := 0x10000000, stride := 4 }

/-! ## Ill-formed terms are refused -/

theorem test_wf_missing_operand : (AsmLine.cmd .SEND none).wf = false := by decide
theorem test_wf_extra_operand : (AsmLine.cmd .INIT (some (.byte 0))).wf = false := by decide
theorem test_wf_operand_too_wide : (AsmLine.cmd .SENDR (some (.byte 256))).wf = false := by decide
theorem test_wf_char_not_seven_bits : (AsmLine.cmd .TSENDR (some (.char 128))).wf = false := by decide
theorem test_wf_text_not_bytes : (AsmLine.wstr [0x48, 256]).wf = false := by decide
/-- V6. -/
theorem test_wf_stride_zero : { mmioCfg with stride := 0 }.ok = false := by decide
/-- 10_state.md R20. -/
theorem test_wf_pio_stride_two : { Config.standard with stride := 2 }.ok = false := by decide
/-- V4 and V5. -/
theorem test_wf_base_range :
    { Config.standard with base := 0xFFFA }.ok = true ∧ { Config.standard with base := 0xFFFB }.ok = false := by decide
theorem test_wf_same_bit_twice : { Config.standard with drBit := 5 }.ok = false := by decide
theorem test_wf_each_premise :
    ({ Config.premisesHold with genuine := false }.ok || { Config.premisesHold with aligned := false }.ok ||
      { Config.premisesHold with exclusive := false }.ok || { Config.premisesHold with privileged := false }.ok ||
      { Config.premisesHold with mapped := false }.ok) = false := by decide
/-- Every command is well formed, whatever its operand byte (30_encoding.md R83). -/
theorem test_wf_commands : (Instr.send 0x00).wf = true ∧ (Instr.tsendr 0xFF).wf = true ∧ Instr.init.wf = true := by decide

/-! ## Decoding: words written out from 30_encoding.md R80 and R82 -/

/-- V23 to V29. -/
theorem test_decode_legal :
    decode 0b0000000100000000 = .cmd .init ∧ decode 0b0000001000000000 = .cmd .lsts ∧
    decode 0b0001000001000001 = .cmd (.send 0x41) ∧ decode 0b0001000111111111 = .cmd (.sendr 0xFF) ∧
    decode 0b0001001100000000 = .cmd (.tsendr 0x00) ∧ decode 0b0010000000000000 = .cmd .recv ∧
    decode 0b0010001000000000 = .cmd .trecv := by decide
/-- V30, V31, V34. -/
theorem test_decode_undefined_opcode :
    [(0x0000 : Word), 0x1200, 0x1241, 0x0300, 0x1400, 0x2100, 0x2300, 0x3000, 0xFFFF].all
      (fun w => decode w == .illegal (.undefinedOpcode (highByte w))) = true := by decide
/-- V32, V33. -/
theorem test_decode_reserved_arg :
    [(0x0101 : Word), 0x01FF, 0x0280, 0x2001, 0x2201].all
      (fun w => decode w == .illegal (.reservedArg (highByte w) (lowByte w))) = true := by decide
/-- spec/opcode_table.json: 16 bits a row; an operand byte beyond nbits is 0. -/
theorem test_decode_table_word :
    decodeTableWord 16 0x1041 = some (.send 0x41) ∧ decodeTableWord 16 0x2200 = some .trecv ∧
    decodeTableWord 16 0x1200 = none ∧ decodeTableWord 24 0x1041 = none := by decide
/-- V25, V29, 30_encoding.md R87. -/
theorem test_encode : encode (.send 0x41) = 0x1041 ∧ encode .trecv = 0x2200 ∧ encode (.sendr 0x41) = 0x1141 := by decide

/-! ## Addresses, flags, divisor -/

/-- V1, V2. -/
theorem test_addresses :
    RegIndex.all.map (addr Config.standard) = [0x3F8, 0x3F9, 0x3FA, 0x3FB, 0x3FC, 0x3FD] ∧
    RegIndex.all.map (addr mmioCfg) =
      [0x10000000, 0x10000004, 0x10000008, 0x1000000C, 0x10000010, 0x10000014] := by decide
/-- V9, V11. -/
theorem test_decodeLsr :
    decodeLsr 0x61 =
      { dataReady := true, overrun := false, parityError := false, framingError := false,
        breakFlag := false, outputEmpty := true, outputEmptyIdle := true, fifoError := false } ∧
    decodeLsr 0x9F =
      { dataReady := true, overrun := true, parityError := true, framingError := true,
        breakFlag := true, outputEmpty := false, outputEmptyIdle := false, fifoError := true } := by decide
/-- V12, V13. -/
theorem test_ready :
    [(0x20 : Byte), 0x40, 0xDF, 0xFF, 0x00, 0x60].map (txReady Config.standard) = [true, false, false, true, false, true] ∧
    [(0x01 : Byte), 0xFE, 0x20, 0x9F, 0x00].map (rxReady Config.standard) = [true, false, false, true, false] := by decide
/-- V14, V15. -/
theorem test_fcr :
    decodeFcr 0xC7 = { enable := true, clearRx := true, clearTx := true, dmaMode := false, trigger := 3 } ∧
    encodeFcr (decodeFcr 0xC7) = 0xC7 ∧ encodeFcr (decodeFcr 0xFF) = 0xCF ∧ encodeFcr (decodeFcr 0x30) = 0x00 ∧
    triggerBytes 3 = 14 := by decide
/-- V16 to V19. -/
theorem test_ier_mcr :
    decodeIer 0x01 = { rxAvail := true, txEmpty := false, lineStatus := false, modemStatus := false } ∧
    encodeIer (decodeIer 0xF1) = 0x01 ∧
    decodeMcr 0x0B = { dtr := true, rts := true, out1 := false, out2 := true, loop := false } ∧
    encodeMcr (decodeMcr 0xEB) = 0x0B := by decide
/-- 43_init.md R171, rows 1 and 4: DLAB set, then 8 data bits, no parity, one stop bit. -/
theorem test_lcr :
    lcrDlab 0x80 = true ∧ lcrDlab 0x03 = false ∧ lcrDataBits 0x03 = 8 ∧ lcrParity 0x03 = false ∧
    lcrOneStop 0x03 = true ∧ lcrBreak 0x03 = false ∧ lcrParitySel 0x03 = 0 := by decide
/-- V22. -/
theorem test_validate_false :
    [((0x80 : Byte), (0x00 : Byte)), (0x00, 0x00), (0x09, 0x00), (0x03, 0x01), (0x01, 0x01), (0x00, 0x01), (0xFF, 0xFF),
      (0x04, 0x00)].any (fun p => validate p.1 p.2) = false := by decide

/-! ## One step of each command -/

/-- V35, first row. -/
theorem test_init_row_0 : added .init (runState .init 0x01 0x00 0 0x00 0x00) = some [.write .io 0x3F9 0x00] := by decide
/-- V35 and V39, last row: the response. -/
theorem test_init_row_7 :
    added .init (runState .init 0x01 0x00 7 0x00 0x00) = some [.write .io 0x3F9 0x01, .resp 0x00 0x00] ∧
    registers .init (runState .init 0x01 0x00 7 0x00 0x00) = some (.done, 7, 0x00, 0x00) := by decide
/-- V41. -/
theorem test_lsts :
    added .lsts (runState .poll 0x02 0x00 0 0x9E 0x00) = some [.read .io 0x3FD 0x9E, .resp 0x00 0x9E] := by decide
/-- V45: line-feed goes out once, unchanged. -/
theorem test_send_linefeed :
    added (.send 0x0A) (runState .access 0x10 0x0A 0 0x20 0x00) = some [.write .io 0x3F8 0x0A, .resp 0x00 0x00] := by
  decide
/-- V58: the second write of SEND 0x7F is a space, and the command polls again. -/
theorem test_send_erase :
    added (.send 0x7F) (runState .access 0x10 0x7F 1 0x20 0x00) = some [.write .io 0x3F8 0x20] ∧
    registers (.send 0x7F) (runState .access 0x10 0x7F 1 0x20 0x00) = some (.poll, 2, 0x00, 0x00) := by decide
/-- V44: OUTPUT_EMPTY_IDLE alone is no readiness. -/
theorem test_sendr_spins :
    added (.sendr 0x41) (runState .poll 0x11 0x41 0 0x40 0x00) = some [.read .io 0x3FD 0x40, .hint] ∧
    registers (.sendr 0x41) (runState .poll 0x11 0x41 0 0x40 0x00) = some (.poll, 0, 0x00, 0x00) := by decide
/-- V50: no transform. -/
theorem test_sendr_no_transform :
    added (.sendr 0x08) (runState .access 0x11 0x08 0 0x20 0x00) = some [.write .io 0x3F8 0x08, .resp 0x00 0x00] := by
  decide
/-- V54: every bit but OUTPUT_EMPTY. -/
theorem test_tsendr_would_block :
    added (.tsendr 0x5A) (runState .poll 0x13 0x5A 0 0xDF 0x00) = some [.read .io 0x3FD 0xDF, .resp 0x01 0x00] := by
  decide
/-- V51. -/
theorem test_tsendr_writes :
    added (.tsendr 0x5A) (runState .access 0x13 0x5A 0 0x20 0x00) = some [.write .io 0x3F8 0x5A, .resp 0x00 0x00] := by
  decide
/-- V60. -/
theorem test_recv_spins :
    added .recv (runState .poll 0x20 0x00 0 0x60 0x0D) = some [.read .io 0x3FD 0x60, .hint] := by decide
/-- V66: no transform. -/
theorem test_recv_reads :
    added .recv (runState .access 0x20 0x00 0 0x01 0x7F) = some [.read .io 0x3F8 0x7F, .resp 0x00 0x7F] := by decide
/-- V64: every bit but DATA_READY. -/
theorem test_trecv_would_block :
    added .trecv (runState .poll 0x22 0x00 0 0xFE 0x55) = some [.read .io 0x3FD 0xFE, .resp 0x01 0x00] := by decide
/-- V65: error bits do not matter. -/
theorem test_trecv_ready :
    registers .trecv (runState .poll 0x22 0x00 0 0x9F 0xA5) = some (.access, 0, 0x00, 0x00) := by decide

/-! ## One step of the machine -/

/-- V67. -/
theorem test_illegal :
    (nextOf (step (idleState [.present 0x1241] []))).map (fun t => (t.trace, respWord t, t.phase)) =
      some ([.reset, .cmd 0x1241, .resp 0x02 0x00], 0x0200, .done) := by decide
/-- V52 and V71: the response word WOULD_BLOCK is taken. -/
theorem test_take :
    (nextOf (step { runState .done 0x13 0x5A 0 0x00 0x00 with rstat := 0x01, host := { acts := [.take], taken := [] } })).map (fun t => (t.phase, t.host.taken, t.host.acts)) =
      some (.idle, [0x0100], []) := by decide
/-- V69: reset in the poll loop. -/
theorem test_reset :
    (nextOf (step { runState .poll 0x11 0x41 0 0x00 0x00 with
        host := { acts := [.reset], taken := [] } })).map
      (fun t => (t.phase, t.opr, t.argr, t.trace, t.dev.thr)) =
      some (.idle, 0x00, 0x00, [.reset, .reset], 0xA1) := by decide
/-- V68: a word offered in POLL stays offered. -/
theorem test_offer_waits :
    (nextOf (step { runState .poll 0x11 0x41 0 0x00 0x00 with
        host := { acts := [.present 0x0200], taken := [] } })).map (fun t => (t.opr, t.host.acts)) =
      some (0x11, [.present 0x0200]) := by decide
/-- The first step after reset accepts the word placed. -/
theorem test_withFetchWord :
    (nextOf (step (State.reset.withFetchWord 16 0x1041))).map (fun t => (t.phase, t.opr, t.argr, t.trace)) =
      some (.poll, 0x10, 0x41, [.reset, .cmd 0x1041]) := by decide
/-- V5: a base whose window leaves the port space. -/
theorem test_refused :
    nextOf (step { State.reset with cfg := { Config.standard with base := 0xFFFB } }) = none := by decide
/-- 20_memory.md R63: IER's address is the divisor's high byte while DLAB is set. -/
theorem test_dlab :
    ((device 0x00 0x00 0x80 []).write .ier 0x77).dlm = 0x77 ∧ ((device 0x00 0x00 0x80 []).write .ier 0x77).ier = 0xA2 ∧
    ((device 0x00 0x00 0x03 []).write .ier 0x77).ier = 0x77 := by decide

/-- T8: after one not-ready poll SIM gains the output-empty bit; SENDR 0x41 then writes once. -/
theorem test_sim_gains_ready :
    (match simRun [[(.lsr, 0x00)], [], [(.lsr, 0x20)], []]
        { data := 0, ier := 0, fcr := 0, lcr := 0, mcr := 0, lsr := 0, log := [] } (idleState [.present 0x1141] []) with
      | .next (m, t) => m.log == [(.data, 0x41)] && t.phase == .done
      | .fault _ => false
      | .refused _ => false) = true := by decide

/-! ## Host programs -/

/-- The line `SEND 'A'`, by its characters' codes. -/
theorem test_assemble_char :
    assembleText [[0x53, 0x45, 0x4E, 0x44, 0x20, 0x27, 0x41, 0x27]] = some [.present 0x1041, .take] := by decide
/-- 30_encoding.md R88: `WSTR "Hi\n"` is 0x1048, 0x1069, 0x100A. -/
theorem test_assemble_wstr :
    assembleText [[0x57, 0x53, 0x54, 0x52, 0x20, 0x22, 0x48, 0x69, 0x5C, 0x6E, 0x22]] =
      some [.present 0x1048, .take, .present 0x1069, .take, .present 0x100A, .take] := by decide
/-- 45_transmit.md R190: bytes of a multi-byte encoding go out as given; a raw control code is refused. -/
theorem test_assemble_raw_bytes :
    assembleText [[0x57, 0x53, 0x54, 0x52, 0x20, 0x22, 0xC3, 0xA9, 0x22]] =
      some [.present 0x10C3, .take, .present 0x10A9, .take] ∧
    assembleText [[0x57, 0x53, 0x54, 0x52, 0x20, 0x22, 0x0A, 0x22]] = none := by decide
/-- 30_encoding.md R87: `$r = RECV` and then `SENDR $r`. -/
theorem test_assemble_response :
    assembleText [[0x24, 0x72, 0x20, 0x3D, 0x20, 0x52, 0x45, 0x43, 0x56],
        [0x53, 0x45, 0x4E, 0x44, 0x52, 0x20, 0x24, 0x72]] =
      some [.present 0x2000, .take, .presentData 0x11 0, .take] := by decide
/-- A response's DATA byte as an operand. -/
theorem test_presentData :
    HostSide.offered { acts := [.presentData 0x11 0], taken := [0x0055] } = some 0x1155 ∧
    HostSide.offered { acts := [.presentData 0x11 0], taken := [] } = none := by decide

/-! ## Witnesses: encoding and dispatch -/

theorem witness_DecodeClassifiesEveryWord :
    highByte 0x1041 = 0x10 ∧ highByte 0x11FF = 0x11 ∧ highByte 0x1300 = 0x13 ∧
    (highByte 0x0100 = 0x01 ∧ lowByte 0x0100 = 0x00) ∧ (highByte 0x0200 = 0x02 ∧ lowByte 0x0200 = 0x00) ∧
    (highByte 0x2000 = 0x20 ∧ lowByte 0x2000 = 0x00) ∧ (highByte 0x2200 = 0x22 ∧ lowByte 0x2200 = 0x00) ∧
    (highByte 0x0101 ∉ [0x10, 0x11, 0x13] ∧ ¬ (highByte 0x0101 ∈ [0x01, 0x02, 0x20, 0x22] ∧ lowByte 0x0101 = 0x00)) ∧
    (highByte 0x1200 ∉ [0x10, 0x11, 0x13] ∧ ¬ (highByte 0x1200 ∈ [0x01, 0x02, 0x20, 0x22] ∧ lowByte 0x1200 = 0x00)) := by
  decide

theorem witness_StepRunsTheFetchedCommand :
    (idleState [.present 0x1041] []).cfg.ok = true ∧
    fetch (idleState [.present 0x1041] []) = some (.send 0x41) ∧ decode 0x1041 = .cmd (.send 0x41) ∧
    (idleState [.present 0x1041] []).host.offered = some 0x1041 ∧
    HostSide.offered { acts := [.presentData 0x10 0], taken := [0x0041] } = some 0x1041 ∧
    (runState .poll 0x11 0x41 0 0x00 0x00).host.acts.head? ≠ some .reset ∧
    latched (.sendr 0x41) (runState .poll 0x11 0x41 0 0x00 0x00) ∧
    latched .trecv (runState .access 0x22 0x00 0 0x01 0x55) ∧
    (runState .init 0x01 0x00 3 0x00 0x00).phase = .init ∧ decodeTableWord 16 0x2000 = some .recv := by
  refine ⟨by decide, by decide, by decide, by decide, by decide, by decide, ⟨rfl, rfl⟩, ⟨rfl, rfl⟩, rfl, by decide⟩

theorem witness_AcceptStartsTheCommand : State.reset.phase = .idle := rfl

theorem witness_IllegalWordIsAnswered :
    (idleState [.present 0x2201] []).cfg.ok = true ∧ (idleState [.present 0x2201] []).phase = .idle ∧
    (idleState [.present 0x2201] []).host.offered = some 0x2201 ∧
    HostSide.offered { acts := [.presentData 0x22 0], taken := [0x0001] } = some 0x2201 ∧
    decode 0x2201 = .illegal (.reservedArg 0x22 0x01) := by decide

theorem witness_OfferWaitsWhileBusy :
    { idleState [.present 0x0200] [] with phase := .done }.phase ≠ .idle ∧
    { idleState [.present 0x0200] [] with phase := .done }.host.offered = some 0x0200 ∧
    { runState .poll 0x11 0x41 0 0x00 0x00 with
      host := { acts := [.presentData 0x11 0], taken := [0x0055] } }.host.offered = some 0x1155 := by decide

theorem witness_ResponseHeldUntilTaken :
    (idleState [.take] []).cfg.ok = true ∧ { idleState [.take] [] with phase := .done }.host.acts = .take :: [] ∧
    (runState .done 0x22 0x00 0 0x00 0x00).cfg.ok = true ∧ (runState .done 0x22 0x00 0 0x00 0x00).phase = .done ∧
    (runState .done 0x22 0x00 0 0x00 0x00).host.acts.head? ≠ some .take ∧
    (runState .done 0x22 0x00 0 0x00 0x00).host.acts.head? ≠ some .reset := by decide

theorem witness_ResetStepDropsTheCommand :
    { idleState [.reset] [] with phase := .access }.cfg.ok = true ∧
    { idleState [.reset] [] with phase := .access }.host.acts = .reset :: [] := by decide

theorem witness_AddressRule :
    Config.standard.ok = true ∧ { Config.standard with base := 0xFFFA }.ok = true ∧ mmioCfg.ok = true ∧
    RegIndex.data.toNat < RegIndex.lsr.toNat := by decide

theorem witness_RegisterAccessRule :
    { idleState [] [] with dev := device 0x00 0x00 0x80 [] }.dev.lcr.getLsbD 7 = true ∧
    (idleState [] []).dev.lcr.getLsbD 7 = false := by decide

theorem witness_ReadinessPredicates : Config.standard.threBit = 5 ∧ Config.standard.drBit = 0 := by decide

/-- A step of a command in execution, one that takes nothing, and one of an idle engine: the hypothesis of
ConfigurationNeverChanges, BusSilentOutsideCommands and TransactionsStayInTheWindow. -/
theorem witness_step_answers :
    (∃ t, step (runState .poll 0x11 0x41 0 0x20 0x00) = .next t) ∧
    busy (runState .poll 0x11 0x41 0 0x20 0x00) = true ∧
    (∃ t, step (runState .done 0x11 0x41 0 0x20 0x00) = .next t) ∧
    (∃ t, step (idleState [.present 0x0100] []) = .next t) := ⟨⟨_, rfl⟩, rfl, ⟨_, rfl⟩, ⟨_, rfl⟩⟩

theorem witness_BackendsTakeTheSameStep :
    mmioCfg.ok = true ∧ mmioCfg.drBit = (runState .access 0x11 0x41 0 0x20 0x00).cfg.drBit ∧
    mmioCfg.threBit = (runState .access 0x11 0x41 0 0x20 0x00).cfg.threBit ∧
    ∃ t, step (runState .access 0x11 0x41 0 0x20 0x00) = .next t :=
  ⟨by decide, rfl, rfl, _, rfl⟩

/-! ## Witnesses: the commands -/

theorem witness_InitStepWritesItsRow :
    (runState .init 0x01 0x00 6 0x00 0x00).phase = .init ∧ (runState .init 0x01 0x00 6 0x00 0x00).idx.toNat < 7 ∧
    (runState .init 0x01 0x00 7 0x00 0x00).phase = .init ∧ (runState .init 0x01 0x00 7 0x00 0x00).idx = 7 := by decide

theorem witness_InitBringsUpTheDevice :
    (idleState [.present 0x0100, .take] []).cfg.ok = true ∧ (idleState [.present 0x0100, .take] []).phase = .idle ∧
    (idleState [.present 0x0100, .take] []).host.acts = .present 0x0100 :: .take :: [] := by decide

theorem witness_LstsAnswersTheByteRead : (runState .poll 0x02 0x00 0 0x61 0x00).phase = .poll := rfl

theorem witness_LstsMakesOneRead :
    (idleState [.present 0x0200, .take] [answer 0x61 0x00]).cfg.ok = true ∧
    (idleState [.present 0x0200, .take] [answer 0x61 0x00]).phase = .idle ∧
    (idleState [.present 0x0200, .take] [answer 0x61 0x00]).host.acts = .present 0x0200 :: .take :: [] ∧
    0x61 = (idleState [.present 0x0200, .take] [answer 0x61 0x00]).dev.move.lsr := by decide

theorem witness_TransmitPollStep :
    (runState .poll 0x10 0x41 0 0x20 0x00).phase = .poll ∧
    (runState .poll 0x10 0x41 0 0x20 0x00).dev.lsr.getLsbD
      (runState .poll 0x10 0x41 0 0x20 0x00).cfg.threBit.val = true ∧
    (runState .poll 0x10 0x41 0 0xDF 0x00).dev.lsr.getLsbD
      (runState .poll 0x10 0x41 0 0xDF 0x00).cfg.threBit.val = false := by decide

theorem witness_TransmitWritesTheByteOnce :
    (runState .access 0x10 0x0A 0 0x20 0x00).phase = .access ∧
    latched (.send 0x0A) (runState .access 0x10 0x0A 0 0x20 0x00) ∧
    (Instr.send 0x0A = .send 0x0A ∧ (0x0A : Byte) ≠ 0x08 ∧ (0x0A : Byte) ≠ 0x7F ∧
      (runState .access 0x10 0x0A 0 0x20 0x00).idx = 0) ∧
    latched (.sendr 0x08) (runState .access 0x11 0x08 0 0x20 0x00) ∧
    latched (.tsendr 0x7F) (runState .access 0x13 0x7F 0 0x20 0x00) :=
  ⟨rfl, ⟨rfl, rfl⟩, by decide, ⟨rfl, rfl⟩, ⟨rfl, rfl⟩⟩

theorem witness_SendEraseWritesThreeBytes :
    ∀ k ∈ [(0 : BitVec 3), 1, 2], (runState .access 0x10 0x7F k 0x20 0x00).phase = .access ∧
      (runState .access 0x10 0x7F k 0x20 0x00).idx = k ∧ latched (.send 0x7F) (runState .access 0x10 0x7F k 0x20 0x00) ∧
      latched (.send 0x08) (runState .access 0x10 0x08 k 0x20 0x00) :=
  fun _ _ => ⟨rfl, rfl, ⟨rfl, rfl⟩, ⟨rfl, rfl⟩⟩

theorem witness_TsendrSendsOrWouldBlock :
    (idleState [.present 0x135A, .take] [answer 0x20 0x00]).cfg.ok = true ∧
    (idleState [.present 0x135A, .take] [answer 0x20 0x00]).phase = .idle ∧
    (idleState [.present 0x135A, .take] [answer 0x20 0x00]).host.acts = .present (wordOf 0x13 0x5A) :: .take :: [] ∧
    (idleState [.present 0x135A, .take] [answer 0x20 0x00]).dev.move.lsr = 0x20 ∧
    txReady Config.standard 0x20 = true ∧
    (idleState [.present 0x135A, .take] [answer 0xDF 0x00]).dev.move.lsr = 0xDF ∧
    txReady Config.standard 0xDF = false := by decide

theorem witness_BlockingSendWaitsThenWritesOnce :
    (idleState [.present 0x1141, .take] [answer 0x00 0x00, answer 0x40 0x00, answer 0x20 0x00]).cfg.ok = true ∧
    (idleState [.present 0x1141, .take] [answer 0x00 0x00, answer 0x40 0x00, answer 0x20 0x00]).phase = .idle ∧
    (idleState [.present 0x1141, .take] [answer 0x00 0x00, answer 0x40 0x00, answer 0x20 0x00]).host.acts =
      .present 0x1141 :: .take :: [] ∧
    (0x1141 : Word) = wordOf 0x11 0x41 ∧
    ((0x100A : Word) = wordOf 0x10 0x0A ∧ (0x0A : Byte) ≠ 0x08 ∧ (0x0A : Byte) ≠ 0x7F) ∧
    (idleState [.present 0x1141, .take] [answer 0x00 0x00, answer 0x40 0x00, answer 0x20 0x00]).dev.moves =
      [answer 0x00 0x00, answer 0x40 0x00] ++ answer 0x20 0x00 :: [] ∧
    (∀ m ∈ [answer 0x00 0x00, answer 0x40 0x00], txReady Config.standard m.lsr = false) ∧
    txReady Config.standard (answer 0x20 0x00).lsr = true := by decide

/-- V48's line-status bytes. -/
theorem witness_SendEraseIsThreeRawSends :
    (idleState [.present 0x107F, .take] [answer 0x20 0x00, answer 0x20 0x00, answer 0x00 0x00, answer 0x20 0x00,
        answer 0x20 0x00, answer 0x00 0x00, answer 0x00 0x00, answer 0x20 0x00]).host.acts =
      .present (wordOf 0x10 0x7F) :: .take :: [] ∧
    (idleState [.present 0x107F, .take] [answer 0x20 0x00, answer 0x20 0x00, answer 0x00 0x00, answer 0x20 0x00,
        answer 0x20 0x00, answer 0x00 0x00, answer 0x00 0x00, answer 0x20 0x00]).dev.moves =
      [] ++ [answer 0x20 0x00, answer 0x20 0x00] ++ [answer 0x00 0x00] ++ [answer 0x20 0x00, answer 0x20 0x00] ++
        [answer 0x00 0x00, answer 0x00 0x00] ++ [answer 0x20 0x00] ++ [] ∧
    (∀ m ∈ [] ++ [answer 0x00 0x00] ++ [answer 0x00 0x00, answer 0x00 0x00], txReady Config.standard m.lsr = false) ∧
    (∀ m ∈ [answer 0x20 0x00, answer 0x20 0x00, answer 0x20 0x00], txReady Config.standard m.lsr = true) := by decide

/-- V72's text, "a\bc", and the empty one. -/
theorem witness_WstrWritesTheTextInOrder :
    (idleState (wstrActs [0x61, 0x08, 0x63]) (List.replicate 16 (answer 0x20 0x00))).host.acts =
      wstrActs [0x61, 0x08, 0x63] ++ [] ∧
    16 = ([(0x61 : Byte), 0x08, 0x63].map fun b => if b = 0x08 ∨ b = 0x7F then 8 else 4).sum ∧
    16 ≤ (idleState [] (List.replicate 16 (answer 0x20 0x00))).dev.moves.length ∧
    (∀ m ∈ (List.replicate 16 (answer 0x20 0x00)).take 16, txReady Config.standard m.lsr = true) ∧
    (idleState [] []).host.acts = wstrActs [] ++ [] := by decide

/-- Two attempts that would block, with different pauses after them. -/
def pauses : List (DeviceMove × DeviceMove) :=
  [(answer 0x20 0x00, answer 0x00 0x00), (answer 0xFF 0x01, answer 0x7E 0x02)]

theorem witness_SendrIsTsendrRepeated :
    (idleState [.present 0x1141, .take] [answer 0x00 0x00, answer 0x5F 0x00, answer 0x20 0x00]).host.acts =
      .present (wordOf 0x11 0x41) :: .take :: [] ∧
    (idleState [.present 0x1341, .take, .present 0x1341, .take, .present 0x1341, .take] []).host.acts =
      (List.replicate ([answer 0x00 0x00, answer 0x5F 0x00].length + 1)
        [HostAct.present (wordOf 0x13 0x41), .take]).flatten ++ [] ∧
    (idleState [.present 0x1141, .take] [answer 0x00 0x00, answer 0x5F 0x00, answer 0x20 0x00]).dev.moves =
      [answer 0x00 0x00, answer 0x5F 0x00] ++ answer 0x20 0x00 :: [] ∧
    pauses.length = [answer 0x00 0x00, answer 0x5F 0x00].length ∧
    [answer 0x00 0x00, answer 0x20 0x00, answer 0x00 0x00, answer 0x5F 0x00, answer 0xFF 0x01, answer 0x7E 0x02,
        answer 0x20 0x00] =
      (([answer 0x00 0x00, answer 0x5F 0x00].zip pauses).flatMap fun p => [p.1, p.2.1, p.2.2]) ++ answer 0x20 0x00 :: [] ∧
    (∀ m ∈ [answer 0x00 0x00, answer 0x5F 0x00], txReady Config.standard m.lsr = false) ∧
    txReady Config.standard (answer 0x20 0x00).lsr = true := by decide

theorem witness_RecvIsTrecvRepeated :
    (idleState [.present 0x2000, .take] [answer 0x60 0x00, answer 0x20 0x00, answer 0x61 0x00, answer 0x61 0x0D]).dev.moves =
      [answer 0x60 0x00, answer 0x20 0x00] ++ answer 0x61 0x00 :: answer 0x61 0x0D :: [] ∧
    (idleState [.present 0x2200, .take, .present 0x2200, .take, .present 0x2200, .take] []).host.acts =
      (List.replicate ([answer 0x60 0x00, answer 0x20 0x00].length + 1) [HostAct.present 0x2200, .take]).flatten ++ [] ∧
    pauses.length = [answer 0x60 0x00, answer 0x20 0x00].length ∧
    [answer 0x60 0x00, answer 0x20 0x00, answer 0x00 0x00, answer 0x20 0x00, answer 0xFF 0x01, answer 0x7E 0x02,
        answer 0x61 0x00, answer 0x61 0x0D] =
      (([answer 0x60 0x00, answer 0x20 0x00].zip pauses).flatMap fun p => [p.1, p.2.1, p.2.2]) ++
        answer 0x61 0x00 :: answer 0x61 0x0D :: [] ∧
    (∀ m ∈ [answer 0x60 0x00, answer 0x20 0x00], rxReady Config.standard m.lsr = false) ∧
    rxReady Config.standard (answer 0x61 0x00).lsr = true := by decide

/-! ## Witnesses: the device premises -/

/-- One step of a premise over a run, at a state whose next state is t. -/
theorem alongRun_next {P : Watch → State → Prop} {k : Nat} {w : Watch} {s t : State} (h : step s = .next t) (hp : P w s)
    (hn : alongRun P k (w.after s t) t) : alongRun P (k + 1) w s :=
  ⟨hp, fun t' h' => by rw [h] at h'; cases h'; exact hn⟩

/-- The device of ENV_READY_STABLE: both bits set from the first move on. -/
def stableState (w : Word) : State :=
  idleState [.present 0x0200, .take, .present w, .take] (List.replicate 4 (answer 0x61 0x55))

theorem witness_ReadinessSeenByLstsLasts :
    envReadyStable 4 .start (stableState (wordOf 0x13 0x41)) ∧ envReadyStable 4 .start (stableState 0x2200) ∧
    0x61 = (stableState 0x2200).dev.move.lsr ∧ txReady Config.standard 0x61 = true ∧
    rxReady Config.standard 0x61 = true ∧ (stableState 0x2200).cfg.ok = true ∧ (stableState 0x2200).phase = .idle := by
  refine ⟨?_, ?_, by decide, by decide, by decide, by decide, rfl⟩ <;>
    exact alongRun_next rfl (by decide) (alongRun_next rfl (by decide) (alongRun_next rfl (by decide)
      (alongRun_next rfl (by decide) (by unfold alongRun; decide))))

/-- A move in which the hardware neither consumes nor produces. -/
def quiet (lsr rbr : Byte) : DeviceMove := { lsr := lsr, rbr := rbr, consumed := false, produced := false }

/-- A device that is ready once and then clears the bits. -/
def clearState (w : Word) : State :=
  idleState [.present w, .take, .present w, .take]
    [quiet 0x21 0x55, quiet 0x21 0x55, quiet 0x40 0x00, quiet 0x40 0x00, quiet 0x40 0x00]

theorem witness_AccessClearsReadiness :
    envTxClear 5 .start (clearState (wordOf 0x13 0x41)) ∧ envRxClear 5 .start (clearState 0x2200) ∧
    (clearState 0x2200).cfg.ok = true ∧ (clearState 0x2200).phase = .idle ∧
    (clearState 0x2200).dev.lcr.getLsbD 7 = false ∧ txReady Config.standard 0x21 = true ∧
    rxReady Config.standard 0x21 = true ∧ (∀ m ∈ [quiet 0x40 0x00], m.consumed = false ∧ m.produced = false) := by
  refine ⟨?_, ?_, by decide, by decide, by decide, by decide, by decide, by decide⟩ <;>
    exact alongRun_next rfl (by decide) (alongRun_next rfl (by decide) (alongRun_next rfl (by decide)
      (alongRun_next rfl (by decide) (alongRun_next rfl (by decide) (by unfold alongRun; decide)))))

/-- The watch does see: after the accepted TSENDR's write a byte is held, and it is the hardware that lets it go. -/
theorem test_watch_holds :
    (Watch.start.event (clearState 0x1341) (.write .io 0x3F8 0x41)).txHeld = true ∧
    ((Watch.start.event (clearState 0x1341) (.write .io 0x3F8 0x41)).moved
      (device 0x00 0x00 0x03 [quiet 0x20 0x00])).txHeld = true ∧
    ((Watch.start.event (clearState 0x1341) (.write .io 0x3F8 0x41)).moved
      (device 0x00 0x00 0x03 [{ quiet 0x20 0x00 with consumed := true }])).txHeld = false := by decide

theorem witness_ReceivePollStep :
    (runState .poll 0x20 0x00 0 0x01 0x55).phase = .poll ∧
    (runState .poll 0x20 0x00 0 0x01 0x55).dev.lsr.getLsbD (runState .poll 0x20 0x00 0 0x01 0x55).cfg.drBit.val = true ∧
    (runState .poll 0x20 0x00 0 0xFE 0x55).dev.lsr.getLsbD
      (runState .poll 0x20 0x00 0 0xFE 0x55).cfg.drBit.val = false := by decide

theorem witness_ReceiveAnswersTheByteRead :
    (runState .access 0x20 0x00 0 0x01 0x55).phase = .access ∧ Instr.recv ∈ [Instr.recv, .trecv] := by decide

/-- V60's line-status bytes. -/
theorem witness_RecvWaitsThenReadsOnce :
    (idleState [.present 0x2000, .take]
        [answer 0x60 0x00, answer 0x60 0x00, answer 0x61 0x00, answer 0x61 0x0D]).host.acts =
      .present 0x2000 :: .take :: [] ∧
    (idleState [.present 0x2000, .take]
        [answer 0x60 0x00, answer 0x60 0x00, answer 0x61 0x00, answer 0x61 0x0D]).dev.moves =
      [answer 0x60 0x00, answer 0x60 0x00] ++ answer 0x61 0x00 :: answer 0x61 0x0D :: [] ∧
    (∀ m ∈ [answer 0x60 0x00, answer 0x60 0x00], rxReady Config.standard m.lsr = false) ∧
    rxReady Config.standard (answer 0x61 0x00).lsr = true := by decide

theorem witness_TrecvReadsOrWouldBlock :
    (idleState [.present 0x2200, .take] [answer 0x01 0x00, answer 0x01 0x5A]).host.acts =
      .present 0x2200 :: .take :: [] ∧
    0x01 = (idleState [.present 0x2200, .take] [answer 0x01 0x00, answer 0x01 0x5A]).dev.move.lsr ∧
    0x5A = (idleState [.present 0x2200, .take] [answer 0x01 0x00, answer 0x01 0x5A]).dev.move.move.rbr ∧
    rxReady Config.standard 0x01 = true ∧
    0xFE = (idleState [.present 0x2200, .take] [answer 0xFE 0x00, answer 0x01 0x5A]).dev.move.lsr ∧
    rxReady Config.standard 0xFE = false := by decide

theorem witness_ReceiveIgnoresLineErrors :
    (runState .poll 0x22 0x00 0 0x01 0x55).phase = .poll ∧
    (0x9F : Byte).getLsbD (runState .poll 0x22 0x00 0 0x01 0x55).cfg.drBit.val =
      (runState .poll 0x22 0x00 0 0x01 0x55).dev.lsr.getLsbD (runState .poll 0x22 0x00 0 0x01 0x55).cfg.drBit.val ∧
    ∃ t, exec .trecv (runState .poll 0x22 0x00 0 0x01 0x55) = .next t := ⟨rfl, by decide, _, rfl⟩

/-! ## Witnesses: frames -/

/-- One step of each kind answers next: the hypothesis of RegisterFrame, DeviceFrame and ResponseRegistersAreNeverRead. -/
theorem witness_exec_answers :
    (∃ t, exec (.send 0x41) (idleState [] []) = .next t) ∧
    (∃ t, exec .init (runState .init 0x01 0x00 2 0x00 0x00) = .next t) ∧
    (∃ t, exec .init { runState .init 0x01 0x00 2 0x00 0x00 with dev := device 0x00 0x00 0x80 [] } = .next t) ∧
    (∃ t, exec .lsts (runState .poll 0x02 0x00 0 0x61 0x00) = .next t) ∧
    (∃ t, exec (.tsendr 0x41) (runState .access 0x13 0x41 0 0x20 0x00) = .next t ∧ t.phase = .done) ∧
    (∃ t, exec .recv (runState .access 0x20 0x00 0 0x01 0x55) = .next t) ∧
    (∃ t, exec .recv (runState .done 0x20 0x00 0 0x01 0x55) = .next t) :=
  ⟨⟨_, rfl⟩, ⟨_, rfl⟩, ⟨_, rfl⟩, ⟨_, rfl⟩, ⟨_, rfl, rfl⟩, ⟨_, rfl⟩, ⟨_, rfl⟩⟩

/-- Two states with the same registers and answers, but another device, host and trace. -/
theorem witness_RegistersAndAnswersDetermineTheStep :
    { runState .access 0x13 0x41 0 0x20 0x00 with
        dev := { device 0x20 0x00 0x80 [answer 0x01 0x01] with thr := 0x00 }, trace := [] }.dev.lsr =
      (runState .access 0x13 0x41 0 0x20 0x00).dev.lsr ∧
    { runState .access 0x13 0x41 0 0x20 0x00 with
        dev := { device 0x20 0x00 0x80 [answer 0x01 0x01] with thr := 0x00 }, trace := [] }.dev.rbr =
      (runState .access 0x13 0x41 0 0x20 0x00).dev.rbr ∧
    ∃ t, exec (.tsendr 0x41) (runState .access 0x13 0x41 0 0x20 0x00) = .next t := ⟨rfl, rfl, _, rfl⟩

/-! ## Witnesses: invariants and runs -/

/-- SENDR 0x41 with its readiness just read. -/
def polledState : State :=
  { runState .access 0x11 0x41 0 0x20 0x00 with
    trace := [Event.reset, Event.cmd 0x1141, readEvent Config.standard .lsr 0x20] }

theorem witness_StepKeepsSequencerCoherent :
    Coherent polledState ∧ polledState.cfg.ok = true ∧ ∃ t, step polledState = .next t :=
  ⟨Or.inl ⟨rfl, by decide⟩, by decide, _, rfl⟩

theorem witness_StepKeepsCommandProtocol : ProtocolKept polledState ∧ ∃ t, step polledState = .next t :=
  ⟨rfl, _, rfl⟩

theorem witness_StepKeepsPollBeforeAccess : PollDiscipline polledState ∧ ∃ t, step polledState = .next t :=
  ⟨⟨⟨trivial, trivial, fun h => absurd h (by decide), trivial⟩, fun _ => ⟨0x20, rfl, rfl⟩, fun h => by cases h⟩, _, rfl⟩

theorem witness_BoundedCommandsTerminate :
    (runState .init 0x01 0x00 0 0x00 0x00).cfg.ok = true ∧
    .reset ∉ { runState .init 0x01 0x00 0 0x00 0x00 with host := { acts := [.take, .present 0x0200], taken := [] } }.host.acts.take 8 ∧
    latched .init (runState .init 0x01 0x00 0 0x00 0x00) ∧ latched .lsts (runState .poll 0x02 0x00 0 0x00 0x00) ∧
    latched (.tsendr 0x41) (runState .poll 0x13 0x41 0 0x00 0x00) ∧
    latched .trecv (runState .poll 0x22 0x00 0 0x00 0x00) ∧ (runState .poll 0x22 0x00 0 0x00 0x00).idx = 0 :=
  ⟨by decide, by decide, ⟨rfl, rfl⟩, ⟨rfl, rfl⟩, ⟨rfl, rfl⟩, ⟨rfl, rfl⟩, rfl⟩

/-- A RECV in POLL whose device is ready in its third answer, with a host that waits for the response and resets later. -/
def waitingState : State :=
  { runState .poll 0x20 0x00 0 0x60 0x00 with
    dev := device 0x60 0x00 0x03 [answer 0x60 0x00, answer 0x61 0x00],
    host := { acts := [.take, .present 0x0200, .wait, .reset], taken := [] } }

theorem witness_BlockingCommandSpins :
    waitingState.cfg.ok = true ∧ waitingState.phase = .poll ∧ .reset ∉ waitingState.host.acts.take 2 ∧
    latched .recv waitingState ∧ 2 ≤ (lsrAnswers waitingState).length ∧
    (∀ v ∈ (lsrAnswers waitingState).take 2, readyFor waitingState.cfg waitingState.opr v = false) :=
  ⟨by decide, rfl, by decide, ⟨rfl, rfl⟩, by decide, by decide⟩

theorem witness_BlockingCommandLeavesPollWhenLive :
    .reset ∉ waitingState.host.acts.take (lsrAnswers waitingState).length ∧ latched .recv waitingState ∧
    envRxLive waitingState ∧
    latched (.send 0x41) (runState .poll 0x10 0x41 0 0x20 0x00) ∧ envTxLive (runState .poll 0x10 0x41 0 0x20 0x00) :=
  ⟨by decide, ⟨rfl, rfl⟩, ⟨0x61, by decide, rfl⟩, ⟨rfl, rfl⟩, ⟨0x20, by decide, rfl⟩⟩

theorem witness_SimRecordsTheBringUp :
    (idleState [.present 0x0100] []).cfg.ok = true ∧ (idleState [.present 0x0100] []).phase = .idle ∧
    (idleState [.present 0x0100] []).host.acts = [.present 0x0100] := by decide

theorem witness_SimRecordsTheSentBytes :
    (idleState [.present 0x1041] []).host.acts = [.present (wordOf 0x10 0x41)] ∧ (0x41 : Byte) ≠ 0x08 ∧
    (0x41 : Byte) ≠ 0x7F ∧ (idleState [.present 0x107F] []).host.acts = [.present (wordOf 0x10 0x7F)] ∧
    txReady Config.standard 0x20 = true := by decide

end Sys2Proof.Tests
end

section
/-! The engine never stops (00_scope.md R12, 42_sequencer.md R161): forward rules for each phase, which say that a step
answers and with what, and O50 from them. -/

namespace Sys2Proof.Machine

/-! ## The life of a transfer command, by phase -/

theorem transferCommand_idle {s : State} (hp : s.phase = .idle) (i : Instr) (pollStep : State → State)
    (accessStep : State → Host.Outcome State Fault Refusal) :
    transferCommand i pollStep accessStep s = .next (accept i .poll s) := by
  simp [transferCommand, hp]

theorem transferCommand_poll {s : State} (hp : s.phase = .poll) (i : Instr) (pollStep : State → State)
    (accessStep : State → Host.Outcome State Fault Refusal) :
    transferCommand i pollStep accessStep s = .next (pollStep s) := by
  simp [transferCommand, hp]

theorem transferCommand_access {s : State} (hp : s.phase = .access) (i : Instr) (pollStep : State → State)
    (accessStep : State → Host.Outcome State Fault Refusal) :
    transferCommand i pollStep accessStep s = accessStep s := by
  simp [transferCommand, hp]

/-! ## exec, by phase -/

/-- At IDLE every command is accepted (R151). -/
theorem exec_idle {s : State} (hp : s.phase = .idle) (i : Instr) :
    exec i s = .next (accept i (firstPhase i) s) := by
  cases i with
  | init => simp [exec, execInit, hp, firstPhase]
  | lsts | send | sendr | tsendr | recv | trecv =>
    simp only [exec, execLsts, execSend, execSendr, execTsendr, execRecv, execTrecv,
      transferCommand_idle hp, firstPhase]

theorem exec_init_init {s : State} (hp : s.phase = .init) : exec .init s = .next (initStep s) := by
  simp [exec, execInit, hp]

/-- Every command but INIT has a poll step (R154). -/
theorem exec_poll {s : State} (hp : s.phase = .poll) {i : Instr} (hi : i ≠ .init) :
    ∃ t, exec i s = .next t ∧ pollOf i s t := by
  cases i with
  | init => exact absurd rfl hi
  | lsts | send | sendr | tsendr | recv | trecv =>
    simp only [exec, execLsts, execSend, execSendr, execTsendr, execRecv, execTrecv,
      transferCommand_poll hp]
    exact ⟨_, rfl, rfl⟩

theorem exec_access_of_isTransmit {s : State} (hp : s.phase = .access) {i : Instr}
    (hi : isTransmit i.opcode = true) : exec i s = accessTransmit s := by
  cases i with
  | send | sendr | tsendr => exact transferCommand_access hp _ _ _
  | init | lsts | recv | trecv => simp [isTransmit, Instr.opcode, Instr.mnemonic, Mnemonic.opcode] at hi

theorem exec_access_of_isReceive {s : State} (hp : s.phase = .access) {i : Instr}
    (hi : isReceive i.opcode = true) : exec i s = .next (accessReceive s) := by
  cases i with
  | recv | trecv => simp only [exec, execRecv, execTrecv, transferCommand_access hp]
  | init | lsts | send | sendr | tsendr => simp [isReceive, Instr.opcode, Instr.mnemonic, Mnemonic.opcode] at hi

/-- Inside its count a transmit command's access step answers (R155, R159). -/
theorem accessTransmit_next {s : State} (h : s.idx.toNat < txCount s.opr s.argr) :
    ∃ t, accessTransmit s = .next t := by
  obtain ⟨b, hb⟩ := txByte_of_lt h
  unfold accessTransmit
  rw [hb]
  by_cases hlast : s.idx.toNat + 1 < txCount s.opr s.argr
  · exact ⟨_, if_pos hlast⟩
  · exact ⟨_, if_neg hlast⟩

/-! ## The opcode map on the classes of Safety -/

theorem exists_ofOpcode_of_isTransmit {opr : Byte} (h : isTransmit opr = true) (arg : Byte) :
    ∃ i, ofOpcode opr arg = some i := by
  obtain (rfl | rfl) | rfl : (opr = 0x10 ∨ opr = 0x11) ∨ opr = 0x13 := by simpa [isTransmit] using h
  · exact ⟨.send arg, rfl⟩
  · exact ⟨.sendr arg, rfl⟩
  · exact ⟨.tsendr arg, rfl⟩

theorem exists_ofOpcode_of_isReceive {opr : Byte} (h : isReceive opr = true) (arg : Byte) :
    ∃ i, ofOpcode opr arg = some i := by
  obtain rfl | rfl : opr = 0x20 ∨ opr = 0x22 := by simpa [isReceive] using h
  · exact ⟨.recv, rfl⟩
  · exact ⟨.trecv, rfl⟩

/-! ## What coherence says of the latched command, by phase -/

/-- In POLL the latched opcode is that of a command with a poll step. -/
theorem Coherent.fetched_poll {s : State} (h : Coherent s) (hp : s.phase = .poll) :
    ∃ i, ofOpcode s.opr s.argr = some i ∧ i ≠ .init := by
  have hne : s.opr ≠ 0x01 → ∀ i, ofOpcode s.opr s.argr = some i → i ≠ .init := by
    rintro ho i hi rfl
    exact ho (ofOpcode_cases hi).1
  simp only [Coherent, hp] at h
  obtain ⟨htx, -⟩ | ⟨hrx | hls, -⟩ := h
  · obtain ⟨i, hi⟩ := exists_ofOpcode_of_isTransmit htx s.argr
    exact ⟨i, hi, hne (fun e => by simp [e, isTransmit] at htx) i hi⟩
  · obtain ⟨i, hi⟩ := exists_ofOpcode_of_isReceive hrx s.argr
    exact ⟨i, hi, hne (fun e => by simp [e, isReceive] at hrx) i hi⟩
  · exact ⟨.lsts, by rw [hls]; rfl, by simp⟩

/-- In ACCESS the latched command's access step answers. -/
theorem Coherent.exec_access {s : State} (h : Coherent s) (hp : s.phase = .access) :
    ∃ i, ofOpcode s.opr s.argr = some i ∧ ∃ t, exec i s = .next t := by
  simp only [Coherent, hp] at h
  obtain ⟨htx, hidx⟩ | ⟨hrx, -⟩ := h
  · obtain ⟨i, hi⟩ := exists_ofOpcode_of_isTransmit htx s.argr
    rw [(ofOpcode_cases hi).1] at htx
    exact ⟨i, hi, exec_access_of_isTransmit hp htx ▸ accessTransmit_next hidx⟩
  · obtain ⟨i, hi⟩ := exists_ofOpcode_of_isReceive hrx s.argr
    rw [(ofOpcode_cases hi).1] at hrx
    exact ⟨i, hi, _, exec_access_of_isReceive hp hrx⟩

/-! ## The engine's step, by phase -/

theorem engineStep_reset {s : State} (hr : s.host.assertsReset = true) :
    engineStep s = .next (resetEngine s) := by
  simp [engineStep, hr]

/-- Without reset, a fetched command is executed. -/
theorem engineStep_of_fetch {s : State} {i : Instr} (hr : s.host.assertsReset = false) (hf : fetch s = some i) :
    engineStep s = exec i s := by
  simp [engineStep, hr, hf]

theorem fetch_init {s : State} (hr : s.host.assertsReset = false) (hp : s.phase = .init) :
    fetch s = some .init := by
  simp [fetch, hr, hp]

theorem fetch_poll {s : State} (hr : s.host.assertsReset = false) (hp : s.phase = .poll) :
    fetch s = ofOpcode s.opr s.argr := by
  simp [fetch, hr, hp]

theorem fetch_access {s : State} (hr : s.host.assertsReset = false) (hp : s.phase = .access) :
    fetch s = ofOpcode s.opr s.argr := by
  simp [fetch, hr, hp]

theorem fetch_done {s : State} (hp : s.phase = .done) : fetch s = none := by
  simp [fetch, hp]

/-- At IDLE the engine accepts a legal word, answers an illegal one, or waits where there is none (R151). -/
theorem engineStep_idle_next {s : State} (hr : s.host.assertsReset = false) (hp : s.phase = .idle) :
    ∃ t, engineStep s = .next t := by
  cases hf : fetch s with
  | some i => exact ⟨_, (engineStep_of_fetch hr hf).trans (exec_idle hp i)⟩
  | none =>
    cases hw : s.host.offered with
    | some w => exact ⟨acceptIllegal w s, by simp [engineStep, hr, hf, hp, hw]⟩
    | none => exact ⟨s, by simp [engineStep, hr, hf, hp, hw]⟩

/-- At DONE the engine gives its response to a host that takes it, or holds it (R156). -/
theorem engineStep_done {s : State} (hr : s.host.assertsReset = false) (hp : s.phase = .done) :
    engineStep s = .next (if s.host.takes then take s else s) := by
  cases ht : s.host.takes <;> simp [engineStep, hr, fetch_done hp, hp, ht]

/-- A coherent engine's step answers, reset or not: the five phases of R150. -/
theorem Coherent.engineStep_next {s : State} (h : Coherent s) : ∃ t, engineStep s = .next t := by
  cases hr : s.host.assertsReset with
  | true => exact ⟨_, engineStep_reset hr⟩
  | false =>
    cases hp : s.phase with
    | idle => exact engineStep_idle_next hr hp
    | init => exact ⟨_, (engineStep_of_fetch hr (fetch_init hr hp)).trans (exec_init_init hp)⟩
    | poll =>
      obtain ⟨i, hi, hne⟩ := h.fetched_poll hp
      obtain ⟨t, ht, -⟩ := exec_poll hp hne
      exact ⟨t, (engineStep_of_fetch hr ((fetch_poll hr hp).trans hi)).trans ht⟩
    | access =>
      obtain ⟨i, hi, t, ht⟩ := h.exec_access hp
      exact ⟨t, (engineStep_of_fetch hr ((fetch_access hr hp).trans hi)).trans ht⟩
    | done => exact ⟨_, engineStep_done hr hp⟩

/-- Settles O50: the engine's step answers in every phase of a coherent state, and the construction premise lets the whole
machine's step follow it. -/
theorem coherentEngineNeverStops : Obligations.CoherentEngineNeverStops := by
  intro s hc h
  obtain ⟨t, ht⟩ := h.engineStep_next
  exact ⟨settle s t, step_of_engineStep hc ht⟩

end Sys2Proof.Machine
end

section
/-! Coherence (10_state.md R22, R23, R27; 30_encoding.md R81, R86): the sequencer state that each step of 42_sequencer.md
leaves, and O49 from them. -/

namespace Sys2Proof.Machine

/-! ## What coherence says in each phase -/

theorem coherent_idle {s : State} (hp : s.phase = .idle) : Coherent s := by
  simp [Coherent, hp]

theorem coherent_init {s : State} (hp : s.phase = .init) : Coherent s ↔ s.opr = 0x01 ∧ s.argr = 0x00 := by
  simp [Coherent, hp]

theorem coherent_poll {s : State} (hp : s.phase = .poll) :
    Coherent s ↔ (isTransmit s.opr = true ∧ s.idx.toNat < txCount s.opr s.argr) ∨
      ((isReceive s.opr = true ∨ s.opr = 0x02) ∧ s.argr = 0x00 ∧ s.idx = 0) := by
  simp [Coherent, hp]

theorem coherent_access {s : State} (hp : s.phase = .access) :
    Coherent s ↔ (isTransmit s.opr = true ∧ s.idx.toNat < txCount s.opr s.argr) ∨
      (isReceive s.opr = true ∧ s.argr = 0x00 ∧ s.idx = 0) := by
  simp [Coherent, hp]

theorem coherent_done {s : State} (hp : s.phase = .done) : Coherent s ↔ legalResponse s := by
  simp [Coherent, hp]

/-- The host's and the device's part of a step is not in the sequencer state. -/
theorem coherent_settle {s t : State} : Coherent (settle s t) ↔ Coherent t := Iff.rfl

/-! ## The latched command -/

theorem isTransmit_opcode (i : Instr) : isTransmit i.opcode = i.mnemonic.takesOperand := by
  cases i <;> rfl

/-- A command without operand has ARG 0x00 (30_encoding.md R84). -/
theorem operand_of_not_takesOperand {i : Instr} (h : i.mnemonic.takesOperand = false) : i.operand = 0x00 := by
  cases i with
  | init | lsts | recv | trecv => rfl
  | send | sendr | tsendr => cases h

theorem opcode_ne_lsts {i : Instr} (h : i ≠ .lsts) : i.opcode ≠ 0x02 := by
  cases i with
  | lsts => exact absurd rfl h
  | init | send | sendr | tsendr | recv | trecv => simp [Instr.opcode, Instr.mnemonic, Mnemonic.opcode]

theorem decode_encode (i : Instr) : decode (encode i) = .cmd i := by
  simp [decode, ofOpcode_self]

/-- The word in OPR and ARGR is the latched command's. -/
theorem latched.decode_eq {i : Instr} {s : State} (h : latched i s) : decode (wordOf s.opr s.argr) = .cmd i := by
  obtain ⟨hopr, hargr⟩ := h
  rw [hopr, hargr]
  exact decode_encode i

theorem latched_accept (i : Instr) (p : Phase) (s : State) : latched i (accept i p s) :=
  ⟨highByte_encode i, lowByte_encode i⟩

/-- In POLL and ACCESS a command that does not transmit has ARG 0x00. -/
theorem Coherent.argr_eq_zero {s : State} (h : Coherent s) (hp : s.phase = .poll ∨ s.phase = .access)
    (htx : isTransmit s.opr = false) : s.argr = 0x00 := by
  obtain hp | hp := hp
  · obtain ⟨ht, -⟩ | ⟨-, hargr, -⟩ := (coherent_poll hp).mp h
    · simp [ht] at htx
    · exact hargr
  · obtain ⟨ht, -⟩ | ⟨-, hargr, -⟩ := (coherent_access hp).mp h
    · simp [ht] at htx
    · exact hargr

/-- The command fetched in POLL and ACCESS is the latched one, its operand included. -/
theorem Coherent.latched_of_fetch {s : State} {i : Instr} (h : Coherent s) (hf : fetch s = some i)
    (hp : s.phase = .poll ∨ s.phase = .access) : latched i s := by
  have hi : ofOpcode s.opr s.argr = some i := by
    obtain ⟨-, ⟨e, -⟩ | ⟨e, -⟩ | ⟨-, hi⟩ | ⟨-, hi⟩⟩ := fetch_cases hf
    · simp [e] at hp
    · simp [e] at hp
    · exact hi
    · exact hi
  obtain ⟨hopr, harg⟩ := ofOpcode_cases hi
  refine ⟨hopr, ?_⟩
  cases ht : i.mnemonic.takesOperand with
  | true => exact (harg ht).symm
  | false =>
    rw [operand_of_not_takesOperand ht]
    exact h.argr_eq_zero hp (by rw [hopr, isTransmit_opcode, ht])

/-! ## Coherence after each kind of step -/

theorem txCount_pos (opr argr : Byte) : 0 < txCount opr argr := by
  unfold txCount
  split <;> decide

theorem coherent_accept (i : Instr) (s : State) : Coherent (accept i (firstPhase i) s) := by
  obtain ⟨hopr, hargr⟩ := latched_accept i (firstPhase i) s
  cases i with
  | init => exact (coherent_init rfl).mpr ⟨hopr, hargr⟩
  | lsts => exact (coherent_poll rfl).mpr (.inr ⟨.inr hopr, hargr, rfl⟩)
  | send | sendr | tsendr => exact (coherent_poll rfl).mpr (.inl ⟨by rw [hopr]; rfl, txCount_pos _ _⟩)
  | recv | trecv => exact (coherent_poll rfl).mpr (.inr ⟨.inl (by rw [hopr]; rfl), hargr, rfl⟩)

/-- An illegal word is held in OPR and ARGR beside its ILLEGAL response (60_exceptions.md R212). -/
theorem coherent_acceptIllegal {w : Word} {why : Illegal} (h : decode w = .illegal why) (s : State) :
    Coherent (acceptIllegal w s) := by
  refine (coherent_done rfl).mpr (.inr (.inr ⟨rfl, rfl, why, ?_⟩))
  simp [acceptIllegal, raise, h]

/-- An OK response is legal beside a legal word, its data byte 0x00 but for LSTS, RECV and TRECV (30_encoding.md R86). -/
theorem coherent_respond_ok {i : Instr} {s : State} {d : Byte} (hl : latched i s)
    (hd : s.opr = 0x02 ∨ s.opr = 0x20 ∨ s.opr = 0x22 ∨ d = 0x00) : Coherent (respond 0x00 d s) :=
  (coherent_done rfl).mpr (.inl ⟨rfl, ⟨i, hl.decode_eq⟩, hd⟩)

theorem Coherent.initStep_keeps {s : State} (h : Coherent s) (hp : s.phase = .init) : Coherent (initStep s) := by
  have hl : latched .init s := (coherent_init hp).mp h
  obtain ⟨-, e⟩ | ⟨-, e⟩ := initStep_cases s <;> rw [e]
  · exact (coherent_init (by simpa using hp)).mpr hl
  · exact coherent_respond_ok (i := .init) hl (.inr (.inr (.inr rfl)))

/-- A ready poll of a command other than LSTS leads to a coherent ACCESS (R154). -/
theorem Coherent.access_of_poll {s : State} (h : Coherent s) (hp : s.phase = .poll) (hls : s.opr ≠ 0x02) (e : Event) :
    Coherent { log e s with phase := .access } := by
  refine (coherent_access rfl).mpr ?_
  obtain htx | ⟨hrx | hopr, hrest⟩ := (coherent_poll hp).mp h
  · exact .inl htx
  · exact .inr ⟨hrx, hrest⟩
  · exact absurd hopr hls

theorem Coherent.pollTransfer_hint_keeps {s : State} (h : Coherent s) (hp : s.phase = .poll) (hls : s.opr ≠ 0x02)
    (ready : Cfg → Byte → Bool) : Coherent (pollTransfer ready hint s) := by
  obtain ⟨-, e⟩ | ⟨-, e⟩ := pollTransfer_cases ready hint s <;> rw [e]
  · exact h.access_of_poll hp hls _
  · exact h

/-- WOULD_BLOCK answers TSENDR and TRECV alone (60_exceptions.md R211). -/
theorem Coherent.pollTransfer_wouldBlock_keeps {s : State} (h : Coherent s) (hp : s.phase = .poll)
    (hopr : s.opr = 0x13 ∨ s.opr = 0x22) (ready : Cfg → Byte → Bool) :
    Coherent (pollTransfer ready wouldBlock s) := by
  obtain ⟨-, e⟩ | ⟨-, e⟩ := pollTransfer_cases ready wouldBlock s <;> rw [e]
  · exact h.access_of_poll hp (by rcases hopr with e | e <;> simp [e]) _
  · exact (coherent_done rfl).mpr (.inr (.inl ⟨rfl, rfl, hopr⟩))

/-- A raw send leaves the command polling for its next byte, inside its count, or done (R155). -/
theorem coherent_of_accessTransmit {i : Instr} {s t : State} (hl : latched i s) (htx : isTransmit s.opr = true)
    (ht : accessTransmit s = .next t) : Coherent t := by
  obtain ⟨b, -, ⟨hlt, rfl⟩ | ⟨-, rfl⟩⟩ := accessTransmit_cases ht
  · refine (coherent_poll rfl).mpr (.inl ⟨htx, ?_⟩)
    calc (s.idx + 1).toNat = (s.idx.toNat + 1) % 2 ^ 3 := BitVec.toNat_add _ _
      _ ≤ s.idx.toNat + 1 := Nat.mod_le _ _
      _ < txCount s.opr s.argr := hlt
  · exact coherent_respond_ok (i := i) hl (.inr (.inr (.inr rfl)))

theorem coherent_accessReceive {i : Instr} {s : State} (hl : latched i s) (hopr : s.opr = 0x20 ∨ s.opr = 0x22) :
    Coherent (accessReceive s) := by
  rw [accessReceive_eq]
  exact coherent_respond_ok (i := i) hl (.inr (hopr.imp_right .inl))

theorem coherent_pollStatus {s : State} (hl : latched .lsts s) : Coherent (pollStatus s) := by
  rw [pollStatus_eq]
  exact coherent_respond_ok (i := .lsts) hl (.inl hl.1)

/-! ## Coherence after exec, the engine's step and step -/

theorem Coherent.pollOf_keeps {i : Instr} {s t : State} (h : Coherent s) (hp : s.phase = .poll)
    (hl : latched i s) (ht : pollOf i s t) : Coherent t := by
  have hopr : s.opr = i.opcode := hl.1
  cases i with
  | init => exact ht.elim
  | lsts => exact ht ▸ coherent_pollStatus hl
  | send | sendr => exact ht ▸ h.pollTransfer_hint_keeps hp (hopr ▸ opcode_ne_lsts (by simp)) txReady
  | recv => exact ht ▸ h.pollTransfer_hint_keeps hp (hopr ▸ opcode_ne_lsts (by simp)) rxReady
  | tsendr => exact ht ▸ h.pollTransfer_wouldBlock_keeps hp (.inl hopr) txReady
  | trecv => exact ht ▸ h.pollTransfer_wouldBlock_keeps hp (.inr hopr) rxReady

theorem coherent_of_accessOf {i : Instr} {s t : State} (hl : latched i s) (ht : accessOf i s t) : Coherent t := by
  have hopr : s.opr = i.opcode := hl.1
  cases i with
  | init | lsts => exact ht.elim
  | send | sendr | tsendr => exact coherent_of_accessTransmit hl (by rw [hopr]; rfl) ht
  | recv => exact ht ▸ coherent_accessReceive hl (.inl hopr)
  | trecv => exact ht ▸ coherent_accessReceive hl (.inr hopr)

theorem Coherent.exec_keeps {i : Instr} {s t : State} (h : Coherent s) (hf : fetch s = some i)
    (ht : exec i s = .next t) : Coherent t := by
  obtain ⟨-, rfl⟩ | ⟨hp, -, rfl⟩ | ⟨hp, hpoll⟩ | ⟨hp, hacc⟩ | ⟨-, rfl⟩ := exec_cases ht
  · exact coherent_accept i s
  · exact h.initStep_keeps hp
  · exact h.pollOf_keeps hp (h.latched_of_fetch hf (.inl hp)) hpoll
  · exact coherent_of_accessOf (h.latched_of_fetch hf (.inr hp)) hacc
  · exact h

/-- A word on the command port at IDLE that fetches no command is illegal. -/
theorem decode_illegal_of_fetch_none {s : State} {w : Word} (hr : s.host.assertsReset = false)
    (hf : fetch s = none) (hp : s.phase = .idle) (hw : s.host.offered = some w) : ∃ why, decode w = .illegal why := by
  cases hd : decode w with
  | cmd i => simp [fetch, hr, hp, hw, hd, Decoded.instr?] at hf
  | illegal why => exact ⟨why, rfl⟩

theorem Coherent.engineStep_keeps {s t : State} (h : Coherent s) (ht : engineStep s = .next t) : Coherent t := by
  obtain ⟨-, rfl⟩ | ⟨hr, ⟨i, hf, he⟩ | ⟨hf, hp, w, hw, rfl⟩ | ⟨-, -, -, rfl⟩ | ⟨-, -, -, rfl⟩ | ⟨-, -, -, rfl⟩⟩ :=
    engineStep_cases ht
  · exact coherent_idle rfl
  · exact h.exec_keeps hf he
  · obtain ⟨why, hd⟩ := decode_illegal_of_fetch_none hr hf hp hw
    exact coherent_acceptIllegal hd s
  · exact h
  · exact coherent_idle rfl
  · exact h

/-- Settles O49: each kind of engine step leaves a coherent sequencer state, and what follows it does not touch that. -/
theorem stepKeepsSequencerCoherent : Obligations.StepKeepsSequencerCoherent := by
  intro s t h hstep
  obtain ⟨-, u, hu, rfl⟩ := step_cases hstep
  exact coherent_settle.mpr (h.engineStep_keeps hu)

end Sys2Proof.Machine
end

section
/-! Reset values (10_state.md R39) and the host's signals (R26): O12, O14, and O48, the base case of the invariants. -/

namespace Sys2Proof.Machine

theorem cmdReady_iff (s : State) : cmdReady s = true ↔ s.phase = .idle := by simp [cmdReady]

theorem respValid_iff (s : State) : respValid s = true ↔ s.phase = .done := by simp [respValid]

theorem cmdReady_of_idle {s : State} (hp : s.phase = .idle) : cmdReady s = true := (cmdReady_iff s).mpr hp

theorem respValid_of_idle {s : State} (hp : s.phase = .idle) : respValid s = false := by simp [respValid, hp]

@[simp] theorem highByte_respWord (s : State) : highByte (respWord s) = s.rstat := highByte_wordOf _ _

@[simp] theorem lowByte_respWord (s : State) : lowByte (respWord s) = s.rdata := lowByte_wordOf _ _

/-- Settles O14: the two signals compare PHASE, and the response word's bytes are the two response registers. -/
theorem interfaceSignals : Obligations.InterfaceSignals := fun s =>
  ⟨cmdReady_iff s, respValid_iff s, highByte_respWord s, lowByte_respWord s⟩

/-- Settles O12, field by field, with the two signals read off PHASE. -/
theorem resetValues : Obligations.ResetValues := by
  have atReset : State.reset.phase = .idle := rfl
  refine ⟨⟨atReset, rfl, rfl, rfl, rfl, rfl, cmdReady_of_idle atReset, respValid_of_idle atReset, rfl⟩, fun s => ?_⟩
  have afterReset := resetEngine_phase s
  exact ⟨afterReset, resetEngine_idx s, resetEngine_opr s, resetEngine_argr s, resetEngine_rstat s,
    resetEngine_rdata s, cmdReady_of_idle afterReset, respValid_of_idle afterReset, resetEngine_cfg s,
    resetEngine_dev s, resetEngine_trace s⟩

/-! ## The invariants of a constructed engine: it is at IDLE, and its trace is the one event RESET -/

theorem coherent_construct (c : Cfg) : Coherent (construct c) := coherent_idle rfl

theorem protocolKept_construct (c : Cfg) : ProtocolKept (construct c) := rfl

theorem pollDiscipline_construct (c : Cfg) : PollDiscipline (construct c) := by
  have hp : (construct c).phase = .idle := rfl
  refine ⟨⟨trivial, trivial⟩, fun h => ?_, fun h => ?_⟩
  · simp [hp] at h
  · simp [hp] at h

/-- Settles O48: the reset state is the engine constructed with the standard parameters. -/
theorem invariantsHoldAtReset : Obligations.InvariantsHoldAtReset := by
  have all : ∀ c : Cfg, Coherent (construct c) ∧ ProtocolKept (construct c) ∧ PollDiscipline (construct c) :=
    fun c => ⟨coherent_construct c, protocolKept_construct c, pollDiscipline_construct c⟩
  exact ⟨all Config.standard, all⟩

end Sys2Proof.Machine
end

section
/-! The engine's own steps, forward: what each does where its test holds and where it fails (42_sequencer.md R153 to
R155). -/

namespace Sys2Proof.Machine

theorem initStep_of_lt {s : State} (h : s.idx.toNat < 7) :
    initStep s = { regWrite (initRow s.idx).1 (initRow s.idx).2 s with idx := s.idx + 1 } := if_pos h

theorem initStep_of_last {s : State} (h : ¬ s.idx.toNat < 7) :
    initStep s = respond 0x00 0x00 (regWrite (initRow s.idx).1 (initRow s.idx).2 s) := if_neg h

theorem pollTransfer_of_ready {ready : Cfg → Byte → Bool} {notReady : State → State} {s : State}
    (h : ready s.cfg s.dev.lsr = true) :
    pollTransfer ready notReady s =
      { log (.read (space s.cfg) (addr s.cfg .lsr) s.dev.lsr) s with phase := .access } := if_pos h

theorem pollTransfer_of_not_ready {ready : Cfg → Byte → Bool} {notReady : State → State} {s : State}
    (h : ready s.cfg s.dev.lsr = false) :
    pollTransfer ready notReady s = notReady (log (.read (space s.cfg) (addr s.cfg .lsr) s.dev.lsr) s) := by
  simp [pollTransfer, h]

theorem accessTransmit_of_lt {s : State} {b : Byte} (hb : txByte s.opr s.argr s.idx = some b)
    (h : s.idx.toNat + 1 < txCount s.opr s.argr) :
    accessTransmit s = .next { regWrite .data b s with idx := s.idx + 1, phase := .poll } := by
  simp [accessTransmit, hb, h]

theorem accessTransmit_of_last {s : State} {b : Byte} (hb : txByte s.opr s.argr s.idx = some b)
    (h : ¬ s.idx.toNat + 1 < txCount s.opr s.argr) :
    accessTransmit s = .next (respond 0x00 0x00 (regWrite .data b s)) := by
  simp [accessTransmit, hb, h, statusOk]

end Sys2Proof.Machine
end

section
/-! CFG is a parameter (10_state.md R20): no operation of the engine changes it, and O18 from that. -/

namespace Sys2Proof.Machine

@[simp] theorem initStep_cfg (s : State) : (initStep s).cfg = s.cfg := by
  obtain ⟨-, e⟩ | ⟨-, e⟩ := initStep_cases s <;> simp [e]

@[simp] theorem pollStatus_cfg (s : State) : (pollStatus s).cfg = s.cfg := rfl

theorem pollTransfer_cfg (ready : Cfg → Byte → Bool) {notReady : State → State}
    (hn : ∀ u, (notReady u).cfg = u.cfg) (s : State) : (pollTransfer ready notReady s).cfg = s.cfg := by
  obtain ⟨-, e⟩ | ⟨-, e⟩ := pollTransfer_cases ready notReady s <;> simp [e, hn]

theorem accessTransmit_cfg {s t : State} (h : accessTransmit s = .next t) : t.cfg = s.cfg := by
  obtain ⟨b, -, ⟨-, rfl⟩ | ⟨-, rfl⟩⟩ := accessTransmit_cases h <;> simp

@[simp] theorem accessReceive_cfg (s : State) : (accessReceive s).cfg = s.cfg := rfl

theorem pollOf_cfg {i : Instr} {s t : State} (h : pollOf i s t) : t.cfg = s.cfg := by
  cases i with
  | init => exact h.elim
  | lsts => exact h ▸ pollStatus_cfg s
  | send | sendr | recv => exact h ▸ pollTransfer_cfg _ hint_cfg s
  | tsendr | trecv => exact h ▸ pollTransfer_cfg _ wouldBlock_cfg s

theorem accessOf_cfg {i : Instr} {s t : State} (h : accessOf i s t) : t.cfg = s.cfg := by
  cases i with
  | init | lsts => exact h.elim
  | send | sendr | tsendr => exact accessTransmit_cfg h
  | recv | trecv => exact h ▸ accessReceive_cfg s

theorem exec_cfg {i : Instr} {s t : State} (h : exec i s = .next t) : t.cfg = s.cfg := by
  obtain ⟨-, rfl⟩ | ⟨-, -, rfl⟩ | ⟨-, hpoll⟩ | ⟨-, hacc⟩ | ⟨-, rfl⟩ := exec_cases h
  · exact accept_cfg _ _ s
  · exact initStep_cfg s
  · exact pollOf_cfg hpoll
  · exact accessOf_cfg hacc
  · rfl

@[simp] theorem acceptIllegal_cfg (w : Word) (s : State) : (acceptIllegal w s).cfg = s.cfg := rfl

theorem engineStep_cfg {s t : State} (h : engineStep s = .next t) : t.cfg = s.cfg := by
  obtain ⟨-, rfl⟩ | ⟨-, ⟨i, -, he⟩ | ⟨-, -, w, -, rfl⟩ | ⟨-, -, -, rfl⟩ | ⟨-, -, -, rfl⟩ | ⟨-, -, -, rfl⟩⟩ :=
    engineStep_cases h
  · exact resetEngine_cfg s
  · exact exec_cfg he
  · exact acceptIllegal_cfg w s
  · rfl
  · exact take_cfg s
  · rfl

/-- Settles O18: no kind of engine step changes CFG, and neither do the host and the device after it. -/
theorem configurationNeverChanges : Obligations.ConfigurationNeverChanges := by
  intro s t h
  obtain ⟨-, u, hu, rfl⟩ := step_cases h
  exact (settle_cfg s u).trans (engineStep_cfg hu)

end Sys2Proof.Machine
end

section
/-! The engine never reads RSTAT or RDATA (10_state.md R24, 44_line_status.md R181): every operation takes states that
differ in these two registers alone to states that differ in them alone, and O46 from that. -/

namespace Sys2Proof.Machine

/-- The state with other response registers. -/
def State.withResponse (st d : Byte) (s : State) : State := { s with rstat := st, rdata := d }

@[simp] theorem withResponse_phase (st d : Byte) (s : State) : (s.withResponse st d).phase = s.phase := rfl
@[simp] theorem withResponse_idx (st d : Byte) (s : State) : (s.withResponse st d).idx = s.idx := rfl
@[simp] theorem withResponse_opr (st d : Byte) (s : State) : (s.withResponse st d).opr = s.opr := rfl
@[simp] theorem withResponse_argr (st d : Byte) (s : State) : (s.withResponse st d).argr = s.argr := rfl
@[simp] theorem withResponse_dev (st d : Byte) (s : State) : (s.withResponse st d).dev = s.dev := rfl
@[simp] theorem withResponse_trace (st d : Byte) (s : State) : (s.withResponse st d).trace = s.trace := rfl

/-- With other response registers before it, the update differs in the response registers after it at most. -/
def ResponseBlind (f : State → State) : Prop :=
  ∀ (s : State) (st d : Byte), ∃ st' d', f (s.withResponse st d) = (f s).withResponse st' d'

/-- The same of a step that may be refused: it answers with other response registers before it too. -/
def ResponseBlindStep (f : State → Host.Outcome State Fault Refusal) : Prop :=
  ∀ (s t : State) (st d : Byte), f s = .next t →
    ∃ st' d', f (s.withResponse st d) = .next (t.withResponse st' d')

theorem ResponseBlind.step {f : State → State} (h : ResponseBlind f) : ResponseBlindStep fun s => .next (f s) := by
  intro s t st d ht
  cases ht
  obtain ⟨st', d', e⟩ := h s st d
  exact ⟨st', d', congrArg _ e⟩

/-! ## The operations: each keeps the response registers as they are, or sets them -/

theorem responseBlind_accept (i : Instr) (p : Phase) : ResponseBlind (accept i p) := fun _ st d => ⟨st, d, rfl⟩

theorem responseBlind_hint : ResponseBlind hint := fun _ st d => ⟨st, d, rfl⟩

theorem responseBlind_wouldBlock : ResponseBlind wouldBlock := fun _ _ _ => ⟨0x01, 0x00, rfl⟩

theorem responseBlind_pollStatus : ResponseBlind pollStatus := fun s _ _ =>
  ⟨0x00, (pollStatus s).rdata, rfl⟩

theorem responseBlind_accessReceive : ResponseBlind accessReceive := fun s _ _ => ⟨0x00, s.dev.rbr, rfl⟩

theorem responseBlind_initStep : ResponseBlind initStep := by
  intro s st d
  by_cases hlt : s.idx.toNat < 7
  · exact ⟨st, d, by rw [initStep_of_lt hlt, initStep_of_lt (s := s.withResponse st d) hlt]; rfl⟩
  · exact ⟨0x00, 0x00, by rw [initStep_of_last hlt, initStep_of_last (s := s.withResponse st d) hlt]; rfl⟩

theorem responseBlind_pollTransfer (ready : Cfg → Byte → Bool) {notReady : State → State}
    (hn : ResponseBlind notReady) : ResponseBlind (pollTransfer ready notReady) := by
  intro s st d
  cases hr : ready s.cfg s.dev.lsr with
  | true => exact ⟨st, d, by rw [pollTransfer_of_ready hr, pollTransfer_of_ready (s := s.withResponse st d) hr]; rfl⟩
  | false =>
    obtain ⟨st', d', e⟩ := hn (log (.read (space s.cfg) (addr s.cfg .lsr) s.dev.lsr) s) st d
    refine ⟨st', d', ?_⟩
    rw [pollTransfer_of_not_ready hr, pollTransfer_of_not_ready (s := s.withResponse st d) hr]
    exact e

theorem responseBlindStep_accessTransmit : ResponseBlindStep accessTransmit := by
  intro s t st d h
  obtain ⟨b, hb, ⟨hlt, rfl⟩ | ⟨hlast, rfl⟩⟩ := accessTransmit_cases h
  · exact ⟨st, d, accessTransmit_of_lt (s := s.withResponse st d) hb hlt⟩
  · exact ⟨0x00, 0x00, accessTransmit_of_last (s := s.withResponse st d) hb hlast⟩

/-! ## exec -/

theorem responseBlindStep_transferCommand (i : Instr) {pollStep : State → State}
    {accessStep : State → Host.Outcome State Fault Refusal} (hpoll : ResponseBlind pollStep)
    (hacc : ResponseBlindStep accessStep) : ResponseBlindStep (transferCommand i pollStep accessStep) := by
  intro s t st d h
  obtain ⟨hp, rfl⟩ | ⟨hp, rfl⟩ | ⟨hp, ht⟩ | ⟨hp, rfl⟩ := transferCommand_cases h
  · rw [transferCommand_idle (s := s.withResponse st d) hp]
    exact (responseBlind_accept i .poll).step s _ st d rfl
  · rw [transferCommand_poll (s := s.withResponse st d) hp]
    exact hpoll.step s _ st d rfl
  · rw [transferCommand_access (s := s.withResponse st d) hp]
    exact hacc s t st d ht
  · exact ⟨st, d, by simp [transferCommand, hp]⟩

theorem responseBlindStep_exec_init : ResponseBlindStep (exec .init) := by
  intro s t st d h
  obtain ⟨hp, rfl⟩ | ⟨hp, -, rfl⟩ | ⟨-, hpoll⟩ | ⟨-, hacc⟩ | ⟨hp, rfl⟩ := exec_cases h
  · rw [exec_idle (s := s.withResponse st d) hp]
    exact (responseBlind_accept .init .init).step s _ st d rfl
  · rw [exec_init_init (s := s.withResponse st d) hp]
    exact responseBlind_initStep.step s _ st d rfl
  · exact hpoll.elim
  · exact hacc.elim
  · exact ⟨st, d, by simp [exec, execInit, hp]⟩

theorem responseBlindStep_exec (i : Instr) : ResponseBlindStep (exec i) := by
  cases i with
  | init => exact responseBlindStep_exec_init
  | lsts =>
    exact responseBlindStep_transferCommand _ responseBlind_pollStatus (fun _ _ _ _ h => by cases h)
  | send | sendr =>
    exact responseBlindStep_transferCommand _ (responseBlind_pollTransfer _ responseBlind_hint)
      responseBlindStep_accessTransmit
  | tsendr =>
    exact responseBlindStep_transferCommand _ (responseBlind_pollTransfer _ responseBlind_wouldBlock)
      responseBlindStep_accessTransmit
  | recv =>
    exact responseBlindStep_transferCommand _ (responseBlind_pollTransfer _ responseBlind_hint)
      responseBlind_accessReceive.step
  | trecv =>
    exact responseBlindStep_transferCommand _ (responseBlind_pollTransfer _ responseBlind_wouldBlock)
      responseBlind_accessReceive.step

/-- Settles O46: the two next states differ in RSTAT and RDATA at most. -/
theorem responseRegistersAreNeverRead : Obligations.ResponseRegistersAreNeverRead := by
  intro i s t st d h
  obtain ⟨st', d', h'⟩ := responseBlindStep_exec i s t st d h
  exact ⟨t.withResponse st' d', h', withResponse_phase _ _ t, withResponse_idx _ _ t, withResponse_opr _ _ t,
    withResponse_argr _ _ t, withResponse_dev _ _ t, withResponse_trace _ _ t⟩

end Sys2Proof.Machine
end

section
/-! The bus stays inside the engine's own accesses (20_memory.md R50, 10_state.md R28): O20 from the events of each kind of
engine step. -/

namespace Sys2Proof.Machine

/-- A command in execution adds one bus transaction, which is the engine's own, and then no other event of the bus. -/
theorem BusyEvents.confined {s t : State} (h : BusyEvents s t) :
    ∃ es, t.trace = s.trace ++ es ∧ ∀ e ∈ es, confined s.cfg e := by
  obtain ⟨e, -, he, ⟨-, ht⟩ | ⟨-, ht⟩ | ⟨-, st, d, ht⟩⟩ := h
  · exact ⟨_, ht, by simpa using he⟩
  · exact ⟨_, ht, by simpa using he⟩
  · exact ⟨_, ht, by simpa using he⟩

theorem exec_confined {i : Instr} {s t : State} (h : exec i s = .next t) :
    ∃ es, t.trace = s.trace ++ es ∧ ∀ e ∈ es, confined s.cfg e := by
  obtain ⟨-, -, ht⟩ | ⟨-, hev⟩ | ⟨-, rfl⟩ := exec_events h
  · exact ⟨_, ht, by simp⟩
  · exact hev.confined
  · exact ⟨[], by simp⟩

theorem engineStep_confined {s t : State} (h : engineStep s = .next t) :
    ∃ es, t.trace = s.trace ++ es ∧ ∀ e ∈ es, confined s.cfg e := by
  obtain ⟨-, rfl⟩ | ⟨-, ⟨i, -, he⟩ | ⟨-, -, w, -, rfl⟩ | ⟨-, -, -, rfl⟩ | ⟨-, -, -, rfl⟩ | ⟨-, -, -, rfl⟩⟩ :=
    engineStep_cases h
  · exact ⟨[.reset], by simp⟩
  · exact exec_confined he
  · exact ⟨[.cmd w, .resp 0x02 0x00], by simp [acceptIllegal, raise, statusIllegal]⟩
  · exact ⟨[], by simp⟩
  · exact ⟨[], by simp⟩
  · exact ⟨[], by simp⟩

/-- Settles O20: each kind of engine step keeps to the engine's own accesses, and the host and the device add no event. -/
theorem transactionsStayInTheWindow : Obligations.TransactionsStayInTheWindow := by
  intro s t h
  obtain ⟨-, u, hu, rfl⟩ := step_cases h
  obtain ⟨es, htr, hes⟩ := engineStep_confined hu
  exact ⟨es, htr, hes⟩

end Sys2Proof.Machine
end

section
/-! Runs forward, step by step: what each step of a command leaves where the host waits for the response (42_sequencer.md
R151 to R156). A state is described by its phase, parameters and host, and by the command in execution or the response. -/

namespace Sys2Proof.Machine

/-! ## The states of a run -/

/-- The engine of parameters c is in phase p, and h is its host. -/
structure At (p : Phase) (c : Cfg) (h : HostSide) (s : State) : Prop where
  phase : s.phase = p
  cfg : s.cfg = c
  host : s.host = h

/-- Command i is latched, and IDX is k. -/
structure Executing (i : Instr) (p : Phase) (k : BitVec 3) (c : Cfg) (h : HostSide) (s : State) : Prop
    extends At p c h s where
  latched : latched i s
  idx : s.idx = k

/-- The engine holds the response (st, d). -/
structure Responding (st d : Byte) (c : Cfg) (h : HostSide) (s : State) : Prop extends At .done c h s where
  rstat : s.rstat = st
  rdata : s.rdata = d

/-- The step from s to t: the engine leaves the device as d, which then moves, and adds the events es. -/
structure Advances (s t : State) (d : Device) (es : List Event) : Prop where
  step : step s = .next t
  dev : t.dev = d.move
  trace : t.trace = s.trace ++ es

/-- The state in which a host is about to present a command. -/
theorem at_idle {s : State} {acts : List HostAct} (hp : s.phase = .idle) (ha : s.host.acts = acts) :
    At .idle s.cfg ⟨acts, s.host.taken⟩ s := ⟨hp, rfl, by rw [← ha]⟩

theorem At.acts_eq {p : Phase} {c : Cfg} {acts : List HostAct} {taken : List Word} {s : State}
    (h : At p c ⟨acts, taken⟩ s) : s.host.acts = acts := congrArg HostSide.acts h.host

theorem At.taken_eq {p : Phase} {c : Cfg} {acts : List HostAct} {taken : List Word} {s : State}
    (h : At p c ⟨acts, taken⟩ s) : s.host.taken = taken := congrArg HostSide.taken h.host

/-- The host has nothing to do but take the response. -/
def HostSide.Waiting (h : HostSide) : Prop := h.acts = [] ∨ ∃ rest, h.acts = .take :: rest

theorem HostSide.Waiting.assertsReset {h : HostSide} (hw : h.Waiting) : h.assertsReset = false := by
  obtain e | ⟨rest, e⟩ := hw <;> simp [HostSide.assertsReset, e]

theorem HostSide.Waiting.actsAfter {h : HostSide} (hw : h.Waiting) {p : Phase} (hp : p ≠ .done) :
    h.actsAfter p = h.acts := by
  obtain e | ⟨rest, e⟩ := hw <;> simp [HostSide.actsAfter, e, hp]

theorem advances_of_engineStep {s u : State} {d : Device} {es : List Event} (hc : s.cfg.ok = true)
    (he : engineStep s = .next u) (hd : u.dev = d) (htr : u.trace = s.trace ++ es) : Advances s (settle s u) d es :=
  ⟨step_of_engineStep hc he, congrArg Device.move hd, htr⟩

/-! ## The accept step and the take step -/

/-- At IDLE the word presented is accepted (R151). -/
theorem At.accept {c : Cfg} {i : Instr} {acts : List HostAct} {taken : List Word} {s : State} (hc : c.ok = true)
    (h : At .idle c ⟨.present (encode i) :: acts, taken⟩ s) :
    ∃ t, Advances s t s.dev [.cmd (encode i)] ∧ Executing i (firstPhase i) 0 c ⟨acts, taken⟩ t := by
  have hr : s.host.assertsReset = false := by simp [HostSide.assertsReset, h.host]
  have hf : fetch s = some i := by
    simp [fetch, HostSide.assertsReset, h.phase, h.host, HostSide.offered, decode_encode, Decoded.instr?]
  have he := (engineStep_of_fetch hr hf).trans (exec_idle h.phase i)
  refine ⟨_, advances_of_engineStep (h.cfg ▸ hc) he rfl rfl, ⟨rfl, h.cfg, ?_⟩, latched_accept i (firstPhase i) s, rfl⟩
  simp [h.host, h.phase, HostSide.actsAfter]

/-- At DONE the response is taken (R156). -/
theorem Responding.take {st d : Byte} {c : Cfg} {rest : List HostAct} {taken : List Word} {s : State}
    (hc : c.ok = true) (h : Responding st d c ⟨.take :: rest, taken⟩ s) :
    ∃ t, Advances s t s.dev [] ∧ At .idle c ⟨rest, taken ++ [wordOf st d]⟩ t := by
  have hr : s.host.assertsReset = false := by simp [HostSide.assertsReset, h.host]
  have he : engineStep s = .next (Machine.take s) := by
    simp [engineStep_done hr h.phase, HostSide.takes, h.host]
  refine ⟨_, advances_of_engineStep (h.cfg ▸ hc) he rfl (List.append_nil _).symm, rfl, h.cfg, ?_⟩
  simp [h.host, h.phase, HostSide.actsAfter, respWord, h.rstat, h.rdata]

/-! ## A step of a command in execution -/

/-- In INIT, POLL and ACCESS the command latched is the command fetched. -/
theorem Executing.fetch {i : Instr} {p : Phase} {k : BitVec 3} {c : Cfg} {h : HostSide} {s : State}
    (hs : Executing i p k c h s) (hp : (p = .init ∧ i = .init) ∨ p = .poll ∨ p = .access) (hw : h.Waiting) :
    fetch s = some i := by
  have hr : s.host.assertsReset = false := hs.host ▸ hw.assertsReset
  have hl : ofOpcode s.opr s.argr = some i := by rw [hs.latched.1, hs.latched.2, ofOpcode_self]
  obtain ⟨rfl, rfl⟩ | rfl | rfl := hp
  · exact fetch_init hr hs.phase
  · rw [fetch_poll hr hs.phase, hl]
  · rw [fetch_access hr hs.phase, hl]

/-- The step of a command in execution, from its meaning; a waiting host does nothing in it. -/
theorem Executing.step_of_exec {i : Instr} {p q : Phase} {k : BitVec 3} {c : Cfg} {h : HostSide} {s u : State}
    {d : Device} {es : List Event} (hc : c.ok = true) (hs : Executing i p k c h s)
    (hp : (p = .init ∧ i = .init) ∨ p = .poll ∨ p = .access) (hw : h.Waiting) (he : exec i s = .next u)
    (hq : u.phase = q) (hhost : u.host = s.host) (hd : u.dev = d) (htr : u.trace = s.trace ++ es) :
    Advances s (settle s u) d es ∧ At q c h (settle s u) := by
  have hstep := (engineStep_of_fetch (hs.host ▸ hw.assertsReset) (hs.fetch hp hw)).trans he
  have hne : p ≠ .done := by
    obtain ⟨rfl, -⟩ | rfl | rfl := hp <;> simp
  refine ⟨advances_of_engineStep (hs.cfg ▸ hc) hstep hd htr, hq, (exec_cfg he).trans hs.cfg, ?_⟩
  simp [hhost, hs.host, hs.phase, hw.actsAfter hne]

/-! ## INIT steps (R153) -/

section
variable {k : BitVec 3} {c : Cfg} {h : HostSide} {s : State}

theorem Executing.initStep_lt (hc : c.ok = true) (hs : Executing .init .init k c h s) (hw : h.Waiting)
    (hk : k.toNat < 7) :
    ∃ t, Advances s t (s.dev.write (initRow k).1 (initRow k).2) [writeEvent c (initRow k).1 (initRow k).2] ∧
      Executing .init .init (k + 1) c h t := by
  obtain rfl := hs.cfg
  obtain rfl := hs.idx
  have he := (exec_init_init hs.phase).trans (congrArg _ (initStep_of_lt hk))
  obtain ⟨ha, hat⟩ := hs.step_of_exec hc (.inl ⟨rfl, rfl⟩) hw he hs.phase rfl rfl rfl
  exact ⟨_, ha, hat, hs.latched, rfl⟩

theorem Executing.initStep_last (hc : c.ok = true) (hs : Executing .init .init k c h s) (hw : h.Waiting)
    (hk : ¬ k.toNat < 7) :
    ∃ t, Advances s t (s.dev.write (initRow k).1 (initRow k).2)
        [writeEvent c (initRow k).1 (initRow k).2, .resp 0x00 0x00] ∧
      Responding 0x00 0x00 c h t := by
  obtain rfl := hs.cfg
  obtain rfl := hs.idx
  have he := (exec_init_init hs.phase).trans (congrArg _ (initStep_of_last hk))
  obtain ⟨ha, hat⟩ := hs.step_of_exec hc (.inl ⟨rfl, rfl⟩) hw he rfl rfl rfl (List.append_assoc _ [_] [_])
  exact ⟨_, ha, hat, rfl, rfl⟩

end

/-! ## Poll steps (R154) -/

theorem firstPhase_eq_poll {i : Instr} (hi : i ≠ .init) : firstPhase i = .poll := by
  cases i with
  | init => exact absurd rfl hi
  | lsts | send | sendr | tsendr | recv | trecv => rfl

/-- The poll step of a command is the one its phase gives. -/
theorem exec_of_pollOf {i : Instr} {s t : State} (hp : s.phase = .poll) (h : pollOf i s t) : exec i s = .next t := by
  cases i with
  | init => exact h.elim
  | lsts | send | sendr | tsendr | recv | trecv =>
    simp only [pollOf] at h
    simp only [exec, execLsts, execSend, execSendr, execTsendr, execRecv, execTrecv, transferCommand_poll hp, h]

/-- A transfer command that reads its readiness bit as set goes on to its access. -/
theorem pollOf_of_ready {i : Instr} {s : State} (hi : isTransmit i.opcode = true ∨ isReceive i.opcode = true)
    (hr : readyFor s.cfg i.opcode s.dev.lsr = true) :
    pollOf i s { log (readEvent s.cfg .lsr s.dev.lsr) s with phase := .access } := by
  cases i with
  | init | lsts => exact absurd hi (by decide)
  | send | sendr | tsendr | recv | trecv => exact (pollTransfer_of_ready hr).symm

/-- A non-blocking transfer command that reads it as clear answers WOULD_BLOCK (60_exceptions.md R211). -/
theorem pollOf_of_not_ready {i : Instr} {s : State} (hi : i.opcode = 0x13 ∨ i.opcode = 0x22)
    (hr : readyFor s.cfg i.opcode s.dev.lsr = false) :
    pollOf i s (wouldBlock (log (readEvent s.cfg .lsr s.dev.lsr) s)) := by
  cases i with
  | init | lsts | send | sendr | recv => simp [Instr.opcode, Instr.mnemonic, Mnemonic.opcode] at hi
  | tsendr | trecv => exact (pollTransfer_of_not_ready hr).symm

section
variable {i : Instr} {k : BitVec 3} {c : Cfg} {h : HostSide} {s : State}

theorem Executing.poll_ready (hc : c.ok = true) (hs : Executing i .poll k c h s) (hw : h.Waiting)
    (hi : isTransmit i.opcode = true ∨ isReceive i.opcode = true) (hr : readyFor c i.opcode s.dev.lsr = true) :
    ∃ t, Advances s t s.dev [readEvent c .lsr s.dev.lsr] ∧ Executing i .access k c h t := by
  obtain rfl := hs.cfg
  have he := exec_of_pollOf hs.phase (pollOf_of_ready hi hr)
  obtain ⟨ha, hat⟩ := hs.step_of_exec hc (.inr (.inl rfl)) hw he rfl rfl rfl rfl
  exact ⟨_, ha, hat, hs.latched, hs.idx⟩

theorem Executing.poll_wouldBlock (hc : c.ok = true) (hs : Executing i .poll k c h s) (hw : h.Waiting)
    (hi : i.opcode = 0x13 ∨ i.opcode = 0x22) (hr : readyFor c i.opcode s.dev.lsr = false) :
    ∃ t, Advances s t s.dev [readEvent c .lsr s.dev.lsr, .resp 0x01 0x00] ∧ Responding 0x01 0x00 c h t := by
  obtain rfl := hs.cfg
  have he := exec_of_pollOf hs.phase (pollOf_of_not_ready hi hr)
  obtain ⟨ha, hat⟩ := hs.step_of_exec hc (.inr (.inl rfl)) hw he rfl rfl rfl (List.append_assoc _ [_] [_])
  exact ⟨_, ha, hat, rfl, rfl⟩

theorem Executing.poll_lsts (hc : c.ok = true) (hs : Executing .lsts .poll k c h s) (hw : h.Waiting) :
    ∃ t, Advances s t s.dev [readEvent c .lsr s.dev.lsr, .resp 0x00 s.dev.lsr] ∧
      Responding 0x00 s.dev.lsr c h t := by
  obtain rfl := hs.cfg
  have he := exec_of_pollOf (i := .lsts) hs.phase (pollStatus_eq s).symm
  obtain ⟨ha, hat⟩ := hs.step_of_exec hc (.inr (.inl rfl)) hw he rfl rfl rfl (List.append_assoc _ [_] [_])
  exact ⟨_, ha, hat, rfl, rfl⟩

/-! ## Access steps (R155) -/

/-- A transmit command that does not expand has one byte to send, its operand (R159). -/
theorem txByte_of_not_expands {opr argr : Byte} (hx : expands opr argr = false) (k : BitVec 3) :
    txByte opr argr k = some argr := by
  simp [txByte, hx]

theorem txCount_of_not_expands {opr argr : Byte} (hx : expands opr argr = false) : txCount opr argr = 1 := by
  simp [txCount, hx]

theorem txByte_of_expands {opr argr : Byte} (hx : expands opr argr = true) (k : BitVec 3) :
    txByte opr argr k = eraseSequence[k.toNat]? := by
  simp [txByte, hx]

theorem txCount_of_expands {opr argr : Byte} (hx : expands opr argr = true) : txCount opr argr = 3 := by
  simp [txCount, hx]

/-- SEND expands for its two special bytes alone (45_transmit.md R187). -/
theorem expands_send_eq_false {b : Byte} (h08 : b ≠ 0x08) (h7F : b ≠ 0x7F) : expands 0x10 b = false :=
  Bool.or_eq_false_iff.mpr ⟨beq_eq_false_iff_ne.mpr h08, beq_eq_false_iff_ne.mpr h7F⟩

theorem expands_send_eq_true {b : Byte} (h : b = 0x08 ∨ b = 0x7F) : expands 0x10 b = true := by
  obtain rfl | rfl := h <;> rfl

theorem Executing.access_write_lt {b : Byte} (hc : c.ok = true) (hs : Executing i .access k c h s) (hw : h.Waiting)
    (hi : isTransmit i.opcode = true) (hb : txByte i.opcode i.operand k = some b)
    (hk : k.toNat + 1 < txCount i.opcode i.operand) :
    ∃ t, Advances s t (s.dev.write .data b) [writeEvent c .data b] ∧ Executing i .poll (k + 1) c h t := by
  obtain rfl := hs.cfg
  obtain rfl := hs.idx
  have he := exec_access_of_isTransmit hs.phase hi
  rw [← hs.latched.1, ← hs.latched.2] at hb hk
  rw [accessTransmit_of_lt hb hk] at he
  obtain ⟨ha, hat⟩ := hs.step_of_exec hc (.inr (.inr rfl)) hw he rfl rfl rfl rfl
  exact ⟨_, ha, hat, hs.latched, rfl⟩

theorem Executing.access_write_last {b : Byte} (hc : c.ok = true) (hs : Executing i .access k c h s) (hw : h.Waiting)
    (hi : isTransmit i.opcode = true) (hb : txByte i.opcode i.operand k = some b)
    (hk : ¬ k.toNat + 1 < txCount i.opcode i.operand) :
    ∃ t, Advances s t (s.dev.write .data b) [writeEvent c .data b, .resp 0x00 0x00] ∧
      Responding 0x00 0x00 c h t := by
  obtain rfl := hs.cfg
  obtain rfl := hs.idx
  have he := exec_access_of_isTransmit hs.phase hi
  rw [← hs.latched.1, ← hs.latched.2] at hb hk
  rw [accessTransmit_of_last hb hk] at he
  obtain ⟨ha, hat⟩ := hs.step_of_exec hc (.inr (.inr rfl)) hw he rfl rfl rfl (List.append_assoc _ [_] [_])
  exact ⟨_, ha, hat, rfl, rfl⟩

theorem Executing.access_read (hc : c.ok = true) (hs : Executing i .access k c h s) (hw : h.Waiting)
    (hi : isReceive i.opcode = true) :
    ∃ t, Advances s t s.dev [readEvent c .data s.dev.rbr, .resp 0x00 s.dev.rbr] ∧
      Responding 0x00 s.dev.rbr c h t := by
  obtain rfl := hs.cfg
  have he := exec_access_of_isReceive hs.phase hi
  rw [accessReceive_eq] at he
  obtain ⟨ha, hat⟩ := hs.step_of_exec hc (.inr (.inr rfl)) hw he rfl rfl rfl (List.append_assoc _ [_] [_])
  exact ⟨_, ha, hat, rfl, rfl⟩

end

end Sys2Proof.Machine
end

section
/-! SIM for the device (20_memory.md R68): what the steps of a run leave in its bytes and its log, and O56 and O57 from
that. -/

namespace Sys2Proof.Machine

/-! ## What SIM sees of a step's events -/

theorem Sim.absorb_write {c : Cfg} (hc : c.ok = true) (m : Sim) (i : RegIndex) (v : Byte) :
    m.absorb c (writeEvent c i v) = m.write i v := by
  simp [Sim.absorb, regAt_addr hc]

@[simp] theorem Sim.absorb_cmd (c : Cfg) (m : Sim) (w : Word) : m.absorb c (.cmd w) = m := rfl
@[simp] theorem Sim.absorb_read (c : Cfg) (m : Sim) (sp : Space) (a : Nat) (v : Byte) :
    m.absorb c (.read sp a v) = m := rfl
@[simp] theorem Sim.absorb_resp (c : Cfg) (m : Sim) (st d : Byte) : m.absorb c (.resp st d) = m := rfl

@[simp] theorem Sim.answering_lsr (m : Sim) (s : State) : (m.answering s).dev.lsr = m.lsr := rfl

theorem At.answering {p : Phase} {c : Cfg} {h : HostSide} {s : State} (hs : At p c h s) (m : Sim) :
    At p c h (m.answering s) := ⟨hs.phase, hs.cfg, hs.host⟩

theorem Executing.answering {i : Instr} {p : Phase} {k : BitVec 3} {c : Cfg} {h : HostSide} {s : State}
    (hs : Executing i p k c h s) (m : Sim) : Executing i p k c h (m.answering s) :=
  ⟨hs.toAt.answering m, hs.latched, hs.idx⟩

theorem Advances.simStep {m : Sim} {s t : State} {d : Device} {es : List Event}
    (h : Advances (m.answering s) t d es) : simStep m s = .next (es.foldl (Sim.absorb s.cfg) m, t) := by
  have htr : t.trace = s.trace ++ es := h.trace
  simp [Machine.simStep, h.step, htr]

/-- The first of the steps, and then the others. -/
theorem Advances.simSteps_succ {m : Sim} {s t : State} {d : Device} {es : List Event}
    (h : Advances (m.answering s) t d es) (n : Nat) :
    simSteps (n + 1) m s = simSteps n (es.foldl (Sim.absorb s.cfg) m) t := by
  simp [simSteps, h.simStep]

section
variable {c : Cfg} {h : HostSide} {s : State} {taken : List Word}

theorem At.simSteps_accept {i : Instr} (hc : c.ok = true) (hs : At .idle c ⟨[.present (encode i)], taken⟩ s) (m : Sim) :
    ∃ t, (∀ n, simSteps (n + 1) m s = simSteps n m t) ∧ Executing i (firstPhase i) 0 c ⟨[], taken⟩ t := by
  obtain ⟨t, ha, ht⟩ := (hs.answering m).accept hc
  exact ⟨t, fun n => by simp [ha.simSteps_succ], ht⟩

/-! ## INIT -/

/-- SIM after several writes. -/
def Sim.writes (m : Sim) (ws : List (RegIndex × Byte)) : Sim := ws.foldl (fun n w => n.write w.1 w.2) m

@[simp] theorem Sim.log_write (m : Sim) (i : RegIndex) (v : Byte) : (m.write i v).log = m.log ++ [(i, v)] := by
  cases i <;> rfl

theorem Sim.log_writes (m : Sim) (ws : List (RegIndex × Byte)) : (m.writes ws).log = m.log ++ ws := by
  induction ws generalizing m with
  | nil => simp [Sim.writes]
  | cons w ws ih => exact (ih (m.write w.1 w.2)).trans (by simp)

/-- The eight rows of the bring-up table (43_init.md R171). -/
def bringUpRows : List (RegIndex × Byte) :=
  [(.ier, 0x00), (.lcr, 0x80), (.data, 0x03), (.ier, 0x00), (.lcr, 0x03), (.fcr, 0xC7), (.mcr, 0x0B), (.ier, 0x01)]

/-- From row k on, the table is row k and the rows after it. -/
theorem drop_bringUpRows (k : BitVec 3) : bringUpRows.drop k.toNat = initRow k :: bringUpRows.drop (k.toNat + 1) := by
  revert k
  decide

/-- From row k on, INIT writes the rest of the table, in n + 1 steps. -/
theorem Executing.simSteps_init (hc : c.ok = true) (hw : h.Waiting) (n : Nat) :
    ∀ (k : BitVec 3) (m : Sim) (s : State), Executing .init .init k c h s → k.toNat + n = 7 →
      ∃ t, simSteps (n + 1) m s = .next (m.writes (bringUpRows.drop k.toNat), t) ∧ t.phase = .done := by
  induction n with
  | zero =>
    intro k m s hs hk
    obtain ⟨t, ha, ht⟩ := (hs.answering m).initStep_last hc hw (by omega)
    refine ⟨t, ?_, ht.phase⟩
    rw [ha.simSteps_succ, drop_bringUpRows k, show k.toNat = 7 from hk]
    simp [simSteps, hs.cfg, Sim.absorb_write hc, Sim.writes, bringUpRows]
  | succ n ih =>
    intro k m s hs hk
    obtain ⟨t, ha, ht⟩ := (hs.answering m).initStep_lt hc hw (by omega)
    have hk1 : (k + 1).toNat = k.toNat + 1 := by bv_omega
    obtain ⟨u, hu, hp⟩ := ih (k + 1) (m.write (initRow k).1 (initRow k).2) t ht (by omega)
    refine ⟨u, ?_, hp⟩
    rw [ha.simSteps_succ, drop_bringUpRows k, ← hk1]
    simpa [hs.cfg, Sim.absorb_write hc, Sim.writes] using hu

/-! ## SEND -/

/-- A poll and an access of a SEND with a further byte to follow: one write in SIM. -/
theorem Executing.simSteps_send_lt {b x : Byte} {k : BitVec 3} {m : Sim} (hc : c.ok = true)
    (hs : Executing (.send b) .poll k c h s) (hw : h.Waiting) (hr : txReady c m.lsr = true)
    (hx : txByte 0x10 b k = some x) (hk : k.toNat + 1 < txCount 0x10 b) :
    ∃ t, (∀ n, simSteps (n + 2) m s = simSteps n (m.write .data x) t) ∧
      Executing (.send b) .poll (k + 1) c h t := by
  obtain ⟨t, ha, ht⟩ := (hs.answering m).poll_ready hc hw (.inl rfl) hr
  obtain ⟨u, hb, hu⟩ := (ht.answering m).access_write_lt hc hw rfl hx hk
  refine ⟨u, fun n => ?_, hu⟩
  have hread : simSteps (n + 2) m s = simSteps (n + 1) m t := ha.simSteps_succ (n + 1)
  rw [hread, hb.simSteps_succ]
  simp [ht.cfg, Sim.absorb_write hc]

/-- A poll and an access of a SEND with no further byte to follow: one write in SIM, and the response. -/
theorem Executing.simSteps_send_last {b x : Byte} {k : BitVec 3} {m : Sim} (hc : c.ok = true)
    (hs : Executing (.send b) .poll k c h s) (hw : h.Waiting) (hr : txReady c m.lsr = true)
    (hx : txByte 0x10 b k = some x) (hk : ¬ k.toNat + 1 < txCount 0x10 b) :
    ∃ t, simSteps 2 m s = .next (m.write .data x, t) ∧ t.phase = .done := by
  obtain ⟨t, ha, ht⟩ := (hs.answering m).poll_ready hc hw (.inl rfl) hr
  obtain ⟨u, hb, hu⟩ := (ht.answering m).access_write_last hc hw rfl hx hk
  refine ⟨u, ?_, hu.phase⟩
  have hread : simSteps 2 m s = simSteps 1 m t := ha.simSteps_succ 1
  rw [hread, hb.simSteps_succ]
  simp [simSteps, ht.cfg, Sim.absorb_write hc]

/-- A SEND that does not expand: one write of its byte. -/
theorem Executing.simSteps_send_once {b : Byte} {m : Sim} (hc : c.ok = true)
    (hs : Executing (.send b) .poll 0 c h s) (hw : h.Waiting) (hr : txReady c m.lsr = true)
    (hx : expands 0x10 b = false) :
    ∃ t, simSteps 2 m s = .next (m.write .data b, t) ∧ t.phase = .done :=
  hs.simSteps_send_last hc hw hr (txByte_of_not_expands hx 0) (by rw [txCount_of_not_expands hx]; decide)

/-- A SEND that expands: the three writes of the erase sequence, each after its own poll (45_transmit.md R187). -/
theorem Executing.simSteps_send_erase {b : Byte} {m : Sim} (hc : c.ok = true)
    (hs : Executing (.send b) .poll 0 c h s) (hw : h.Waiting) (hr : txReady c m.lsr = true)
    (hx : expands 0x10 b = true) :
    ∃ t, simSteps 6 m s = .next (m.writes [(.data, 0x08), (.data, 0x20), (.data, 0x08)], t) ∧ t.phase = .done := by
  have hn : txCount 0x10 b = 3 := txCount_of_expands hx
  have hbyte := txByte_of_expands hx
  obtain ⟨t1, h1, ht1⟩ := hs.simSteps_send_lt hc hw hr (hbyte 0) (by rw [hn]; decide)
  obtain ⟨t2, h2, ht2⟩ := ht1.simSteps_send_lt (m := m.write .data 0x08) hc hw hr (hbyte 1) (by rw [hn]; decide)
  obtain ⟨t3, h3, hp⟩ :=
    ht2.simSteps_send_last (m := (m.write .data 0x08).write .data 0x20) hc hw hr (hbyte 2) (by rw [hn]; decide)
  exact ⟨t3, (h1 4).trans ((h2 2).trans h3), hp⟩

end

/-- Settles O56: the accepted INIT writes the whole table, whose log and last values are those of V37. -/
theorem simRecordsTheBringUp : Obligations.SimRecordsTheBringUp := by
  intro m s hc hp ha
  obtain ⟨t, haccept, ht⟩ := (at_idle hp ha).simSteps_accept (i := .init) hc m
  obtain ⟨u, hinit, hdone⟩ := Executing.simSteps_init hc (.inl rfl) 7 0 m t ht rfl
  exact ⟨m.writes bringUpRows, u, (haccept 8).trans hinit, hdone, Sim.log_writes m bringUpRows, rfl, rfl, rfl, rfl, rfl,
    rfl⟩

/-- Settles O57: the accepted SEND makes one raw send, or the three of the erase sequence. -/
theorem simRecordsTheSentBytes : Obligations.SimRecordsTheSentBytes := by
  intro m s b hc hp ha hr
  obtain ⟨t, haccept, ht⟩ := (at_idle hp ha).simSteps_accept (i := .send b) hc m
  constructor
  · intro h08 h7F
    obtain ⟨u, hsend, hdone⟩ := ht.simSteps_send_once hc (.inl rfl) hr (expands_send_eq_false h08 h7F)
    exact ⟨_, u, (haccept 2).trans hsend, hdone, rfl⟩
  · intro hb
    obtain ⟨u, hsend, hdone⟩ := ht.simSteps_send_erase hc (.inl rfl) hr (expands_send_eq_true hb)
    exact ⟨_, u, (haccept 6).trans hsend, hdone, Sim.log_writes m _⟩

end Sys2Proof.Machine
end

section
/-! Non-blocking transfers under the named device premises (20_memory.md R66): runs of whole commands with their watch, and
O59 and O60 from them. -/

namespace Sys2Proof.Machine

/-! ## A run and its watch -/

/-- k steps lead from s to t, and the watch from w to w'. -/
inductive WatchedRun : Nat → Watch → State → Watch → State → Prop
  | refl (w : Watch) (s : State) : WatchedRun 0 w s w s
  | cons {k : Nat} {w w' : Watch} {s t u : State} (h : step s = .next t) (hr : WatchedRun k (w.after s t) t w' u) :
      WatchedRun (k + 1) w s w' u

theorem WatchedRun.steps_add {k : Nat} {w w' : Watch} {s t : State} (h : WatchedRun k w s w' t) (n : Nat) :
    steps (k + n) s = steps n t := by
  induction h with
  | refl => rw [Nat.zero_add]
  | cons h hr ih => simpa [Nat.succ_add, steps, h] using ih

/-- A premise over a run holds over what follows its first k steps. -/
theorem WatchedRun.alongRun {P : Watch → State → Prop} {k n : Nat} {w w' : Watch} {s t : State}
    (h : WatchedRun k w s w' t) (hp : alongRun P (k + n) w s) : alongRun P n w' t := by
  induction h with
  | refl => rwa [Nat.zero_add] at hp
  | cons h hr ih =>
    rw [Nat.succ_add] at hp
    exact ih (hp.2 _ h)

/-- A run whose first step is known. -/
theorem Advances.watchedRun {k : Nat} {w w' : Watch} {s t u : State} {d : Device} {es : List Event}
    (h : Advances s t d es) (hr : WatchedRun k ((es.foldl (Watch.event s) w).moved s.dev) t w' u) :
    WatchedRun (k + 1) w s w' u :=
  .cons h.step (by rwa [Watch.after_of_trace h.trace])

theorem alongRun_zero {P : Watch → State → Prop} {w : Watch} {s : State} : alongRun P 0 w s ↔ P w s := Iff.rfl

/-- A premise over the step in which a command is accepted, at the state its first poll reads. -/
theorem At.alongRun_accept {P : Watch → State → Prop} {c : Cfg} {i : Instr} {acts : List HostAct} {taken : List Word}
    {w : Watch} {s : State} (hc : c.ok = true) (h : At .idle c ⟨.present (encode i) :: acts, taken⟩ s)
    (hp : alongRun P 1 w s) : ∃ t, t.cfg = c ∧ t.dev = s.dev.move ∧ P (w.moved s.dev) t := by
  obtain ⟨t, ha, ht⟩ := h.accept hc
  exact ⟨t, ht.cfg, ha.dev, alongRun_zero.mp ((ha.watchedRun (.refl _ t)).alongRun hp)⟩

/-! ## The watch over a step -/

@[simp] theorem Watch.moved_txSeen (d : Device) (w : Watch) : (w.moved d).txSeen = w.txSeen := by
  unfold Watch.moved
  split <;> rfl

@[simp] theorem Watch.moved_rxSeen (d : Device) (w : Watch) : (w.moved d).rxSeen = w.rxSeen := by
  unfold Watch.moved
  split <;> rfl

theorem Watch.moved_txHeld {d : Device} {m : DeviceMove} {ms : List DeviceMove} (hm : d.moves = m :: ms)
    (hc : m.consumed = false) (w : Watch) : (w.moved d).txHeld = w.txHeld := by
  simp [Watch.moved, hm, hc]

theorem Watch.moved_rxHeld {d : Device} {m : DeviceMove} {ms : List DeviceMove} (hm : d.moves = m :: ms)
    (hp : m.produced = false) (w : Watch) : (w.moved d).rxHeld = w.rxHeld := by
  simp [Watch.moved, hm, hp]

theorem Device.move_moves (d : Device) : d.move.moves = d.moves.drop 1 := by
  unfold Device.move
  split <;> simp [*]

@[simp] theorem Device.move_dlab (d : Device) : d.move.dlab = d.dlab := congrArg lcrDlab d.move_lcr

/-! ## LSTS -/

/-- LSTS as a whole: three steps, one answer, and a bit read as set has been seen (44_line_status.md R180). -/
theorem At.run_lsts {c : Cfg} {rest : List HostAct} {taken : List Word} {s : State} (hc : c.ok = true)
    (h : At .idle c ⟨.present (encode .lsts) :: .take :: rest, taken⟩ s) (w : Watch) :
    ∃ w' t, WatchedRun 3 w s w' t ∧ At .idle c ⟨rest, taken ++ [wordOf 0x00 s.dev.move.lsr]⟩ t ∧
      (txReady c s.dev.move.lsr = true → w'.txSeen = true) ∧
      (rxReady c s.dev.move.lsr = true → w'.rxSeen = true) := by
  obtain ⟨t1, ha1, ht1⟩ := h.accept hc
  obtain ⟨t2, ha2, ht2⟩ := ht1.poll_lsts hc (.inr ⟨rest, rfl⟩)
  obtain ⟨t3, ha3, ht3⟩ := ht2.take hc
  obtain rfl := ht1.cfg
  rw [ha1.dev] at ha2 ht3
  exact ⟨_, t3, ha1.watchedRun (ha2.watchedRun (ha3.watchedRun (.refl _ t3))), ht3,
    fun htx => by simp [htx], fun hrx => by simp [hrx]⟩

/-! ## Transfers -/

theorem readyFor_of_isTransmit {opr : Byte} (h : isTransmit opr = true) (c : Cfg) (v : Byte) :
    readyFor c opr v = txReady c v := if_pos h

theorem readyFor_of_isReceive {opr : Byte} (h : isReceive opr = true) (c : Cfg) (v : Byte) :
    readyFor c opr v = rxReady c v := by
  obtain rfl | rfl : opr = 0x20 ∨ opr = 0x22 := by simpa [isReceive] using h
  · rfl
  · rfl

section
variable {c : Cfg} {i : Instr} {rest : List HostAct} {taken : List Word} {s : State}

/-- A transfer command whose first poll reads its bit as set is at its access after two steps. -/
theorem At.run_to_access (hc : c.ok = true) (h : At .idle c ⟨.present (encode i) :: .take :: rest, taken⟩ s)
    (hi : isTransmit i.opcode = true ∨ isReceive i.opcode = true) (hr : readyFor c i.opcode s.dev.move.lsr = true)
    (w : Watch) :
    ∃ w' t, (∀ {k w'' u}, WatchedRun k w' t w'' u → WatchedRun (k + 2) w s w'' u) ∧
      Executing i .access 0 c ⟨.take :: rest, taken⟩ t ∧ t.dev = s.dev.move.move := by
  have hf : firstPhase i = .poll := firstPhase_eq_poll (by rintro rfl; revert hi; decide)
  obtain ⟨t1, ha1, ht1⟩ := h.accept hc
  rw [hf] at ht1
  obtain ⟨t2, ha2, ht2⟩ := ht1.poll_ready hc (.inr ⟨rest, rfl⟩) hi (ha1.dev ▸ hr)
  exact ⟨_, t2, fun hrun => ha1.watchedRun (ha2.watchedRun hrun), ht2, by rw [ha2.dev, ha1.dev]⟩

/-- A raw send that finds the transmitter ready, as a whole: four steps; with DLAB clear its byte is then held, unless the
hardware consumes it. -/
theorem At.run_transmit (hc : c.ok = true) (h : At .idle c ⟨.present (encode i) :: .take :: rest, taken⟩ s)
    (hi : isTransmit i.opcode = true) (hx : expands i.opcode i.operand = false)
    (hr : txReady c s.dev.move.lsr = true) (w : Watch) :
    ∃ w' t, WatchedRun 4 w s w' t ∧ At .idle c ⟨rest, taken ++ [wordOf 0x00 0x00]⟩ t ∧
      t.dev.moves = s.dev.moves.drop 4 ∧
      ∀ {m m' ms}, s.dev.dlab = false → s.dev.moves.drop 2 = m :: m' :: ms → m.consumed = false →
        m'.consumed = false → w'.txHeld = true := by
  obtain ⟨w2, t2, hrun, ht2, hd2⟩ := h.run_to_access hc (.inl hi) ((readyFor_of_isTransmit hi c _).trans hr) w
  obtain ⟨t3, ha3, ht3⟩ := ht2.access_write_last hc (.inr ⟨rest, rfl⟩) hi (txByte_of_not_expands hx 0)
    (by rw [txCount_of_not_expands hx]; decide)
  obtain ⟨t4, ha4, ht4⟩ := ht3.take hc
  have hm2 : t2.dev.moves = s.dev.moves.drop 2 := by rw [hd2, Device.move_moves, Device.move_moves, List.drop_drop]
  have hm3 : t3.dev.moves = s.dev.moves.drop 3 := by simp [ha3.dev, Device.move_moves, hm2]
  refine ⟨_, t4, hrun (ha3.watchedRun (ha4.watchedRun (.refl _ t4))), ht4,
    by simp [ha4.dev, Device.move_moves, hm3], fun {m m' ms} hdlab hm hcon hcon' => ?_⟩
  obtain rfl := ht2.cfg
  have hdlab2 : t2.dev.dlab = false := by simpa [hd2] using hdlab
  have hm' : s.dev.moves.drop 3 = m' :: ms := by rw [← List.tail_drop, hm]; rfl
  rw [Watch.moved_txHeld (hm3.trans hm') hcon', List.foldl_nil, Watch.moved_txHeld (hm2.trans hm) hcon]
  simp [Watch.event_writeData hdlab2]

/-- A receive that finds a byte ready, as a whole: four steps; with DLAB clear its byte is then held, unless the hardware
produces another. -/
theorem At.run_receive (hc : c.ok = true) (h : At .idle c ⟨.present (encode i) :: .take :: rest, taken⟩ s)
    (hi : isReceive i.opcode = true) (hr : rxReady c s.dev.move.lsr = true) (w : Watch) :
    ∃ w' t, WatchedRun 4 w s w' t ∧ At .idle c ⟨rest, taken ++ [wordOf 0x00 s.dev.move.move.rbr]⟩ t ∧
      t.dev.moves = s.dev.moves.drop 4 ∧
      ∀ {m m' ms}, s.dev.dlab = false → s.dev.moves.drop 2 = m :: m' :: ms → m.produced = false →
        m'.produced = false → w'.rxHeld = true := by
  obtain ⟨w2, t2, hrun, ht2, hd2⟩ := h.run_to_access hc (.inr hi) ((readyFor_of_isReceive hi c _).trans hr) w
  obtain ⟨t3, ha3, ht3⟩ := ht2.access_read hc (.inr ⟨rest, rfl⟩) hi
  obtain ⟨t4, ha4, ht4⟩ := ht3.take hc
  have hm2 : t2.dev.moves = s.dev.moves.drop 2 := by rw [hd2, Device.move_moves, Device.move_moves, List.drop_drop]
  have hm3 : t3.dev.moves = s.dev.moves.drop 3 := by simp [ha3.dev, Device.move_moves, hm2]
  refine ⟨_, t4, hrun (ha3.watchedRun (ha4.watchedRun (.refl _ t4))), hd2 ▸ ht4,
    by simp [ha4.dev, Device.move_moves, hm3], fun {m m' ms} hdlab hm hpro hpro' => ?_⟩
  obtain rfl := ht2.cfg
  have hdlab2 : t2.dev.dlab = false := by simpa [hd2] using hdlab
  have hm' : s.dev.moves.drop 3 = m' :: ms := by rw [← List.tail_drop, hm]; rfl
  rw [Watch.moved_rxHeld (hm3.trans hm') hpro', List.foldl_nil, Watch.moved_rxHeld (hm2.trans hm) hpro]
  simp [Watch.event_readData hc hdlab2]

/-- A non-blocking transfer that finds its bit clear, as a whole: three steps and WOULD_BLOCK. -/
theorem At.run_wouldBlock (hc : c.ok = true) (h : At .idle c ⟨.present (encode i) :: .take :: rest, taken⟩ s)
    (hi : i.opcode = 0x13 ∨ i.opcode = 0x22) (hr : readyFor c i.opcode s.dev.move.lsr = false) :
    ∃ t, steps 3 s = .next t ∧ At .idle c ⟨rest, taken ++ [wordOf 0x01 0x00]⟩ t := by
  have hf : firstPhase i = .poll := firstPhase_eq_poll (by rintro rfl; revert hi; decide)
  obtain ⟨t1, ha1, ht1⟩ := h.accept hc
  rw [hf] at ht1
  obtain ⟨t2, ha2, ht2⟩ := ht1.poll_wouldBlock hc (.inr ⟨rest, rfl⟩) hi (ha1.dev ▸ hr)
  obtain ⟨t3, ha3, ht3⟩ := ht2.take hc
  exact ⟨t3, by simp [steps, ha1.step, ha2.step, ha3.step], ht3⟩

end

/-- Settles O59: LSTS has seen the bit, so the premise keeps it set for the poll of the transfer. -/
theorem readinessSeenByLstsLasts : Obligations.ReadinessSeenByLstsLasts := by
  intro s v b w rest hc hp ha hv hstable
  subst hv
  obtain ⟨w3, t3, hlsts, ht3, htx, hrx⟩ := (at_idle hp ha).run_lsts hc Watch.start
  have hpoll : alongRun _ 1 w3 t3 := hlsts.alongRun hstable
  constructor
  · rintro rfl hready
    obtain ⟨t4, hcfg, hdev, hkeep, -⟩ := ht3.alongRun_accept (i := .tsendr b) hc hpoll
    have hr : txReady s.cfg t3.dev.move.lsr = true := by
      simpa [hcfg, hdev] using hkeep (by simpa using htx hready)
    obtain ⟨_, t, hsend, ht, -⟩ := ht3.run_transmit (i := .tsendr b) hc rfl rfl hr w3
    exact ⟨t, (hlsts.steps_add 4).trans (hsend.steps_add 0), ht.phase, ht.acts_eq,
      ht.taken_eq.trans (List.append_assoc _ _ _)⟩
  · rintro rfl hready
    obtain ⟨t4, hcfg, hdev, -, hkeep⟩ := ht3.alongRun_accept (i := .trecv) hc hpoll
    have hr : rxReady s.cfg t3.dev.move.lsr = true := by
      simpa [hcfg, hdev] using hkeep (by simpa using hrx hready)
    obtain ⟨_, t, hrecv, ht, -⟩ := ht3.run_receive (i := .trecv) hc rfl hr w3
    exact ⟨t, t3.dev.move.move.rbr, (hlsts.steps_add 4).trans (hrecv.steps_add 0), ht.phase, ht.acts_eq,
      ht.taken_eq.trans (List.append_assoc _ _ _)⟩

/-- Settles O60: the byte accessed is still held at the second poll, so the premise keeps the bit clear for it. -/
theorem accessClearsReadiness : Obligations.AccessClearsReadiness := by
  intro s b b' m1 m2 m3 m4 m5 ms rest hc hp hdlab hmoves
  have hlsr : s.dev.move.lsr = m1.lsr := by simp [Device.move, hmoves]
  have hrbr : s.dev.move.move.rbr = m2.rbr := by simp [Device.move, hmoves]
  have hdrop : s.dev.moves.drop 2 = m3 :: m4 :: m5 :: ms := by simp [hmoves]
  constructor
  · intro ha hready hquiet hclear
    have hquiet3 : m3.consumed = false := hquiet m3 (by simp)
    have hquiet4 : m4.consumed = false := hquiet m4 (by simp)
    have hquiet5 : m5.consumed = false := hquiet m5 (by simp)
    obtain ⟨w4, t4, hsend, ht4, hm4, hheld⟩ :=
      (at_idle hp ha).run_transmit (i := .tsendr b) hc rfl rfl (hlsr ▸ hready) Watch.start
    have hm5 : t4.dev.moves = m5 :: ms := by simp [hm4, hmoves]
    obtain ⟨t5, hcfg, hdev, hnot⟩ := ht4.alongRun_accept (i := .tsendr b') hc (hsend.alongRun hclear)
    have hr : txReady s.cfg t4.dev.move.lsr = false := by
      simpa [hcfg, hdev] using hnot (by rw [Watch.moved_txHeld hm5 hquiet5, hheld hdlab hdrop hquiet3 hquiet4])
    obtain ⟨t, hblock, ht⟩ := ht4.run_wouldBlock (i := .tsendr b') hc (.inl rfl) hr
    exact ⟨t, (hsend.steps_add 3).trans hblock, ht.phase, ht.acts_eq,
      ht.taken_eq.trans (List.append_assoc _ _ _)⟩
  · intro ha hready hquiet hclear
    have hquiet3 : m3.produced = false := hquiet m3 (by simp)
    have hquiet4 : m4.produced = false := hquiet m4 (by simp)
    have hquiet5 : m5.produced = false := hquiet m5 (by simp)
    obtain ⟨w4, t4, hrecv, ht4, hm4, hheld⟩ :=
      (at_idle hp ha).run_receive (i := .trecv) hc rfl (hlsr ▸ hready) Watch.start
    have hm5 : t4.dev.moves = m5 :: ms := by simp [hm4, hmoves]
    obtain ⟨t5, hcfg, hdev, hnot⟩ := ht4.alongRun_accept (i := .trecv) hc (hrecv.alongRun hclear)
    have hr : rxReady s.cfg t4.dev.move.lsr = false := by
      simpa [hcfg, hdev] using hnot (by rw [Watch.moved_rxHeld hm5 hquiet5, hheld hdlab hdrop hquiet3 hquiet4])
    obtain ⟨t, hblock, ht⟩ := ht4.run_wouldBlock (i := .trecv) hc (.inr rfl) hr
    exact ⟨t, (hrecv.steps_add 3).trans hblock, ht.phase, ht.acts_eq,
      hrbr ▸ ht.taken_eq.trans (List.append_assoc _ _ _)⟩

end Sys2Proof.Machine
end

section
/-! The encoding (30_encoding.md R80 to R85, R91): a word decodes to a command exactly when it is the command's word; O2,
and O1 and O3 from it. -/

namespace Sys2Proof.Machine

/-- A legal word's two bytes are the command's opcode and operand, so no bit of it is dropped. -/
theorem encode_of_decode {w : Word} {i : Instr} (h : decode w = .cmd i) : encode i = w := by
  obtain ⟨hof, harg⟩ := decode_cases h
  obtain ⟨hopc, -⟩ := ofOpcode_cases hof
  calc encode i = wordOf (highByte w) (lowByte w) := by rw [encode, ← hopc, harg]
    _ = w := wordOf_highByte_lowByte w

/-- Settles O2. -/
theorem decodeAndEncodeAgree : Obligations.DecodeAndEncodeAgree := fun _ i =>
  ⟨encode_of_decode, fun h => h ▸ decode_encode i⟩

theorem decode_of_bytes {w : Word} {i : Instr} (hopc : highByte w = i.opcode) (harg : lowByte w = i.operand) :
    decode w = .cmd i := by
  rw [← wordOf_highByte_lowByte w, hopc, harg]
  exact decode_encode i

theorem decode_of_ofOpcode_eq_none {w : Word} (h : ofOpcode (highByte w) (lowByte w) = none) :
    decode w = .illegal (.undefinedOpcode (highByte w)) := by
  simp [decode, h]

theorem decode_of_operand_ne {w : Word} {i : Instr} (h : ofOpcode (highByte w) (lowByte w) = some i)
    (harg : i.operand ≠ lowByte w) : decode w = .illegal (.reservedArg (highByte w) (lowByte w)) := by
  simp [decode, h, harg]

/-- The opcode map of R82 by its two classes: an operand in ARG, or ARG 0x00 (R84). -/
theorem opcode_mem_classes (i : Instr) :
    i.opcode ∈ [0x10, 0x11, 0x13] ∨ (i.opcode ∈ [0x01, 0x02, 0x20, 0x22] ∧ i.operand = 0x00) := by
  cases i with
  | send | sendr | tsendr => exact .inl (by simp [Instr.opcode, Instr.mnemonic, Mnemonic.opcode])
  | init | lsts | recv | trecv => exact .inr ⟨by decide, rfl⟩

/-- Settles O1: the legal words by their two bytes, and no command's word is among the others. -/
theorem decodeClassifiesEveryWord : Obligations.DecodeClassifiesEveryWord := by
  refine fun w => ⟨fun h => decode_of_bytes h rfl, fun h => decode_of_bytes h rfl, fun h => decode_of_bytes h rfl,
    decode_of_bytes (i := .init), decode_of_bytes (i := .lsts), decode_of_bytes (i := .recv),
    decode_of_bytes (i := .trecv), fun hop hno => ?_⟩
  cases hd : decode w with
  | illegal why => exact ⟨why, rfl⟩
  | cmd i =>
    obtain rfl := encode_of_decode hd
    rw [highByte_encode] at hop hno
    rw [lowByte_encode] at hno
    exact ((opcode_mem_classes i).elim hop hno).elim

/-- Settles O3: seven words by their bytes, two without a command for their OPC, two with a reserved ARG. -/
theorem specWordsDecode : Obligations.SpecWordsDecode :=
  ⟨decode_encode .init, decode_encode .lsts, decode_encode (.send 0x41), decode_encode (.sendr 0xFF),
    decode_encode (.tsendr 0x00), decode_encode .recv, decode_encode .trecv,
    decode_of_ofOpcode_eq_none (w := 0x0000) (by decide), decode_of_ofOpcode_eq_none (w := 0x1241) (by decide),
    decode_of_operand_ne (w := 0x01FF) (i := .init) (by decide) (by decide),
    decode_of_operand_ne (w := 0x2201) (i := .trecv) (by decide) (by decide)⟩

end Sys2Proof.Machine
end

section
/-! The protocol of the trace (30_encoding.md R81, 42_sequencer.md R151, R160): the events that each kind of engine step
adds lead from PHASE before it to PHASE after it, and O51 from that. -/

namespace Sys2Proof.Machine

theorem busy_of_idle {s : State} (hp : s.phase = .idle) : busy s = false := by simp [busy, hp]

theorem busy_of_done {s : State} (hp : s.phase = .done) : busy s = false := by simp [busy, hp]

/-- Inside a command a bus transaction may follow, and the command goes on. -/
theorem protocolNext_of_isBus {e : Event} (he : e.isBus = true) : protocolNext (some true) e = some true := by
  cases e with
  | read | write => rfl
  | cmd | hint | resp | reset => cases he

@[simp] theorem protocolNext_hint : protocolNext (some true) .hint = some true := rfl

@[simp] theorem protocolNext_resp (st d : Byte) : protocolNext (some true) (.resp st d) = some false := rfl

/-- A reset may follow at any time, and no command is in execution after it. -/
theorem protocolNext_reset (b : Bool) : protocolNext (some b) .reset = some false := by
  cases b <;> rfl

/-- The protocol goes on to t when the events added since s lead from a trace that is busy as s is to one that is busy as t
is. -/
theorem ProtocolKept.append {s t : State} {es : List Event} (h : ProtocolKept s) (ht : t.trace = s.trace ++ es)
    (hes : es.foldl protocolNext (some (busy s)) = some (busy t)) : ProtocolKept t := by
  unfold ProtocolKept at h ⊢
  rw [ht, protocolState_append, h, hes]

/-- A step of a command in execution: one bus transaction, then nothing, a hint, or the response that ends the command. -/
theorem ProtocolKept.of_busyEvents {s t : State} (h : ProtocolKept s) (hb : busy s = true) (hev : BusyEvents s t) :
    ProtocolKept t := by
  obtain ⟨e, he, -, ⟨hbt, ht⟩ | ⟨hbt, ht⟩ | ⟨hdone, st, d, ht⟩⟩ := hev <;> refine h.append ht ?_
  · simp [hb, hbt, protocolNext_of_isBus he]
  · simp [hb, hbt, protocolNext_of_isBus he]
  · simp [hb, busy_of_done hdone, protocolNext_of_isBus he]

theorem ProtocolKept.exec_keeps {i : Instr} {s t : State} (h : ProtocolKept s) (ht : exec i s = .next t) :
    ProtocolKept t := by
  obtain ⟨hp, hbt, htr⟩ | ⟨hb, hev⟩ | ⟨-, rfl⟩ := exec_events ht
  · exact h.append htr (by rw [busy_of_idle hp, hbt]; rfl)
  · exact h.of_busyEvents hb hev
  · exact h

theorem ProtocolKept.resetEngine_keeps {s : State} (h : ProtocolKept s) : ProtocolKept (resetEngine s) :=
  h.append (resetEngine_trace s) (protocolNext_reset (busy s))

/-- An illegal word is a command and its response in one step (60_exceptions.md R212). -/
theorem ProtocolKept.acceptIllegal_keeps {s : State} (h : ProtocolKept s) (hp : s.phase = .idle) (w : Word) :
    ProtocolKept (acceptIllegal w s) :=
  h.append (es := [.cmd w, .resp statusIllegal 0x00]) (by simp [acceptIllegal, raise]) (by rw [busy_of_idle hp]; rfl)

/-- The take step is from DONE to IDLE, with no command in execution in either, and no event (R156). -/
theorem ProtocolKept.take_keeps {s : State} (h : ProtocolKept s) (hp : s.phase = .done) : ProtocolKept (take s) :=
  h.append (es := []) (by simp) (by rw [busy_of_done hp]; rfl)

theorem ProtocolKept.engineStep_keeps {s t : State} (h : ProtocolKept s) (ht : engineStep s = .next t) :
    ProtocolKept t := by
  obtain ⟨-, rfl⟩ | ⟨-, ⟨i, -, he⟩ | ⟨-, hp, w, -, rfl⟩ | ⟨-, -, -, rfl⟩ | ⟨-, hp, -, rfl⟩ | ⟨-, -, -, rfl⟩⟩ :=
    engineStep_cases ht
  · exact h.resetEngine_keeps
  · exact h.exec_keeps he
  · exact h.acceptIllegal_keeps hp w
  · exact h
  · exact h.take_keeps hp
  · exact h

/-- What follows an engine step adds no event and leaves PHASE. -/
theorem protocolKept_settle {s t : State} : ProtocolKept (settle s t) ↔ ProtocolKept t := Iff.rfl

/-- Settles O51: each kind of engine step keeps the protocol, and what follows it does not touch that. -/
theorem stepKeepsCommandProtocol : Obligations.StepKeepsCommandProtocol := by
  intro s t h hstep
  obtain ⟨-, u, hu, rfl⟩ := step_cases hstep
  exact protocolKept_settle.mpr (h.engineStep_keeps hu)

end Sys2Proof.Machine
end

section
/-! Host programs (30_encoding.md R87, R88): the acts that a well-formed line stands for, and O4 and O5 from them. -/

namespace Sys2Proof.Machine

theorem lineActs_without_operand {m : Mnemonic} (hm : m.takesOperand = false) :
    lineActs (.cmd m none) = some (issue (commandWord m 0x00)) := by
  simp [lineActs, AsmLine.wf, hm]

theorem lineActs_byte {m : Mnemonic} {n : Nat} (hm : m.takesOperand = true) (hn : n < 256) :
    lineActs (.cmd m (some (.byte n))) = some (issue (commandWord m (BitVec.ofNat 8 n))) := by
  simp [lineActs, AsmLine.wf, AsmOperand.wf, hm, hn]

theorem lineActs_char {m : Mnemonic} {c : Nat} (hm : m.takesOperand = true) (hc : c < 128) :
    lineActs (.cmd m (some (.char c))) = some (issue (commandWord m (BitVec.ofNat 8 c))) := by
  simp [lineActs, AsmLine.wf, AsmOperand.wf, hm, hc]

/-- Settles O4: each line has an operand exactly when its command takes one, so it issues that command's word. -/
theorem exampleLinesAssemble : Obligations.ExampleLinesAssemble :=
  ⟨lineActs_without_operand rfl, lineActs_without_operand rfl, lineActs_byte rfl (by decide),
    lineActs_char rfl (by decide), lineActs_byte rfl (by decide), lineActs_without_operand rfl,
    lineActs_without_operand rfl⟩

/-- Settles O5: issuing the SEND words of a text is issuing one SEND for each of its bytes. -/
theorem wstrExpandsToSends : Obligations.WstrExpandsToSends := fun text =>
  calc wstrActs text = text.flatMap fun b => issue (encode (.send b)) := List.flatMap_map ..
    _ = text.flatMap fun b => [HostAct.present (wordOf 0x10 b), HostAct.take] := rfl

end Sys2Proof.Machine
end

section
/-! Construction and register access (40_register_access.md R100 to R107): the construction premise as a proposition, the
address rule from it, one bus event for each access, and O13, O15 and O16. -/

namespace Sys2Proof.Machine

/-! ## The construction premise (R104) and the address rule (R103) -/

theorem Cfg.ok_iff (c : Cfg) :
    c.ok = true ↔
      c.premises.genuine = true ∧ c.premises.aligned = true ∧ c.premises.exclusive = true ∧
        c.premises.privileged = true ∧ c.premises.mapped = true ∧ 1 ≤ c.stride ∧
        (c.backend = .pio → c.stride = 1) ∧ c.base + 5 * c.stride < 2 ^ c.aw ∧ c.drBit ≠ c.threBit := by
  simp only [Cfg.ok, Premises.ok, Bool.and_eq_true, Bool.or_eq_true, decide_eq_true_eq, bne_iff_ne, beq_iff_eq,
    and_assoc, ← imp_iff_not_or]

/-- No address wraps: the premise bounds the highest of the six, that of LSR. -/
theorem addr_lt {c : Cfg} (h : c.ok = true) (i : RegIndex) : addr c i < 2 ^ c.aw := by
  obtain ⟨-, -, -, -, -, -, -, htop, -⟩ := (Cfg.ok_iff c).mp h
  calc addr c i ≤ c.base + 5 * c.stride := Nat.add_le_add_left (Nat.mul_le_mul_right _ i.toNat_le) _
    _ < 2 ^ c.aw := htop

theorem addr_strictMono {c : Cfg} (h : c.ok = true) {i j : RegIndex} (hij : i.toNat < j.toNat) : addr c i < addr c j :=
  Nat.add_lt_add_left (Nat.mul_lt_mul_of_pos_right hij (Cfg.ok_stride h)) _

/-- Settles O15: the six addresses by the rule, and under the premise no wrap and a strict rise. -/
theorem addressRule : Obligations.AddressRule :=
  ⟨fun c => by simp [addr, RegIndex.toNat], fun _ i _ h => ⟨addr_lt h i, addr_strictMono h, addr_injective h⟩⟩

/-! ## Where a write lands (20_memory.md R63) -/

/-- With DLAB = 1 indices 0 and 1 are the divisor's bytes. -/
theorem Device.write_of_dlab {d : Device} (h : d.dlab = true) (v : Byte) :
    d.write .data v = { d with dll := v } ∧ d.write .ier v = { d with dlm := v } := by
  simp [Device.write, h]

/-- With DLAB = 0 they are DATA and IER. -/
theorem Device.write_of_not_dlab {d : Device} (h : d.dlab = false) (v : Byte) :
    d.write .data v = { d with thr := v } ∧ d.write .ier v = { d with ier := v } := by
  simp [Device.write, h]

/-- Settles O16: an access logs its one event, a read does nothing else, and a write changes the device as DLAB directs. -/
theorem registerAccessRule : Obligations.RegisterAccessRule :=
  ⟨fun _ _ => rfl, fun _ => ⟨rfl, rfl⟩, fun s i v => ⟨regWrite_trace i v s, rfl⟩,
    fun _ v h => Device.write_of_dlab h v, fun _ v h => Device.write_of_not_dlab h v, fun _ _ => ⟨rfl, rfl, rfl⟩⟩

/-- Settles O13: both constructors are the reset state with their own CFG. -/
theorem constructorsSetConfiguration : Obligations.ConstructorsSetConfiguration := fun _ _ _ _ => ⟨rfl, rfl⟩

end Sys2Proof.Machine
end

section
/-! Refusals (40_register_access.md R105): every refusal of the engine's own step is `noSuchStep`, so that
`preconditionViolated` is step's answer to a violated construction premise and to nothing else; O17. -/

namespace Sys2Proof.Machine

theorem accessTransmit_refused {s : State} {r : Refusal} (h : accessTransmit s = .refused r) : r = .noSuchStep := by
  unfold accessTransmit at h
  split at h
  next => cases h; rfl
  next => split at h <;> cases h

theorem transferCommand_refused {i : Instr} {pollStep : State → State}
    {accessStep : State → Host.Outcome State Fault Refusal} {s : State} {r : Refusal}
    (hacc : accessStep s = .refused r → r = .noSuchStep)
    (h : transferCommand i pollStep accessStep s = .refused r) : r = .noSuchStep := by
  unfold transferCommand at h
  split at h
  next => cases h
  next => cases h; rfl
  next => cases h
  next => exact hacc h
  next => cases h

theorem execInit_refused {s : State} {r : Refusal} (h : execInit s = .refused r) : r = .noSuchStep := by
  unfold execInit at h
  split at h <;> cases h <;> rfl

theorem exec_refused {i : Instr} {s : State} {r : Refusal} (h : exec i s = .refused r) : r = .noSuchStep := by
  cases i with
  | init => exact execInit_refused h
  | lsts =>
    simp only [exec, execLsts] at h
    exact transferCommand_refused (fun e => by cases e; rfl) h
  | send | sendr | tsendr => exact transferCommand_refused accessTransmit_refused h
  | recv | trecv =>
    simp only [exec, execRecv, execTrecv] at h
    exact transferCommand_refused (fun e => by cases e) h

theorem engineStep_refused {s : State} {r : Refusal} (h : engineStep s = .refused r) : r = .noSuchStep := by
  unfold engineStep at h
  split at h
  next => cases h
  next =>
    split at h
    next => exact exec_refused h
    next =>
      split at h
      next => split at h <;> cases h
      next => split at h <;> cases h
      next => cases h; rfl
      next => cases h; rfl
      next => cases h; rfl

theorem step_of_not_ok {s : State} (h : ¬ s.cfg.ok = true) : step s = .refused .preconditionViolated := if_neg h

theorem step_of_ok {s : State} (h : s.cfg.ok = true) : step s = mapNext (settle s) (engineStep s) := if_pos h

theorem mapNext_eq_refused {f : State → State} {o : Host.Outcome State Fault Refusal} {r : Refusal} :
    mapNext f o = .refused r ↔ o = .refused r := by
  cases o <;> simp [mapNext]

theorem step_eq_preconditionViolated_iff (s : State) :
    step s = .refused .preconditionViolated ↔ ¬ s.cfg.ok = true := by
  refine ⟨fun h hok => ?_, step_of_not_ok⟩
  rw [step_of_ok hok, mapNext_eq_refused] at h
  exact absurd (engineStep_refused h) (by simp)

/-- Settles O17: the premise that step tests is R104's, item by item, with the two line-status bits of R6. -/
theorem premiseViolationIsRefused : Obligations.PremiseViolationIsRefused := fun s =>
  (step_eq_preconditionViolated_iff s).trans (not_congr (Cfg.ok_iff s.cfg))

end Sys2Proof.Machine
end

section
/-! One protocol for every backend, base and stride (40_register_access.md R109): a simulation between two engines that
differ in these parameters. Every operation takes mirrored states to mirrored states, and O21 from that. -/

namespace Sys2Proof.Machine

/-! ## Forward rules that the mirrored step needs -/

theorem exec_of_accessOf {i : Instr} {s t : State} (hp : s.phase = .access) (h : accessOf i s t) : exec i s = .next t := by
  cases i with
  | init | lsts => exact h.elim
  | send | sendr | tsendr => exact (exec_access_of_isTransmit hp rfl).trans h
  | recv | trecv => exact (exec_access_of_isReceive hp rfl).trans (congrArg _ h.symm)

/-- A command that has answered holds its response (R156). -/
theorem exec_done {s : State} (hp : s.phase = .done) (i : Instr) : exec i s = .next s := by
  cases i with
  | init => simp [exec, execInit, hp]
  | lsts | send | sendr | tsendr | recv | trecv =>
    simp [exec, execLsts, execSend, execSendr, execTsendr, execRecv, execTrecv, transferCommand, hp]

/-- At IDLE a word that is no command is answered as illegal (R151, 60_exceptions.md R212). -/
theorem engineStep_illegal {s : State} {w : Word} (hr : s.host.assertsReset = false) (hp : s.phase = .idle)
    (hf : fetch s = none) (hw : s.host.offered = some w) : engineStep s = .next (acceptIllegal w s) := by
  simp [engineStep, hr, hf, hp, hw]

/-- At IDLE without a word the engine waits (R151). -/
theorem engineStep_idle_wait {s : State} (hr : s.host.assertsReset = false) (hp : s.phase = .idle)
    (hf : fetch s = none) (hw : s.host.offered = none) : engineStep s = .next s := by
  simp [engineStep, hr, hf, hp, hw]

/-! ## Mirrored states -/

/-- The second state is the first as an engine of parameters c' has it: all else is equal, and since the common past each
access of the engine of parameters c stands retargeted in the second one's trace. -/
def Mirrors (c c' : Cfg) (past : List Event) (s s' : State) : Prop :=
  s.cfg = c ∧
    ∃ es, s.trace = past ++ es ∧ s' = { s with cfg := c', trace := past ++ es.map (retarget c c') }

/-- The update neither reads nor changes CFG and the trace. -/
def CfgTraceBlind (f : State → State) : Prop :=
  ∀ (s : State) (c : Cfg) (tr : List Event), f { s with cfg := c, trace := tr } = { f s with cfg := c, trace := tr }

theorem CfgTraceBlind.cfg_trace {f : State → State} (hf : CfgTraceBlind f) (s : State) :
    (f s).cfg = s.cfg ∧ (f s).trace = s.trace :=
  ⟨(congrArg State.cfg (hf s s.cfg s.trace) :), (congrArg State.trace (hf s s.cfg s.trace) :)⟩

theorem mirrors_self (c' : Cfg) (s : State) : Mirrors s.cfg c' s.trace s { s with cfg := c' } :=
  ⟨rfl, [], by simp, by simp⟩

section
variable {c c' : Cfg} {past : List Event} {s s' t : State}

/-! ## The fields of mirrored states -/

theorem Mirrors.phase_eq (h : Mirrors c c' past s s') : s'.phase = s.phase := by obtain ⟨-, -, -, rfl⟩ := h; rfl
theorem Mirrors.idx_eq (h : Mirrors c c' past s s') : s'.idx = s.idx := by obtain ⟨-, -, -, rfl⟩ := h; rfl
theorem Mirrors.opr_eq (h : Mirrors c c' past s s') : s'.opr = s.opr := by obtain ⟨-, -, -, rfl⟩ := h; rfl
theorem Mirrors.argr_eq (h : Mirrors c c' past s s') : s'.argr = s.argr := by obtain ⟨-, -, -, rfl⟩ := h; rfl
theorem Mirrors.dev_eq (h : Mirrors c c' past s s') : s'.dev = s.dev := by obtain ⟨-, -, -, rfl⟩ := h; rfl
theorem Mirrors.host_eq (h : Mirrors c c' past s s') : s'.host = s.host := by obtain ⟨-, -, -, rfl⟩ := h; rfl
theorem Mirrors.cfg_source (h : Mirrors c c' past s s') : s.cfg = c := h.1
theorem Mirrors.cfg_target (h : Mirrors c c' past s s') : s'.cfg = c' := by obtain ⟨-, -, -, rfl⟩ := h; rfl

theorem Mirrors.fetch_eq (h : Mirrors c c' past s s') : fetch s' = fetch s := by obtain ⟨-, -, -, rfl⟩ := h; rfl

/-! ## Updates and events -/

theorem Mirrors.update_keeps (h : Mirrors c c' past s s') {f : State → State} (hf : CfgTraceBlind f) :
    Mirrors c c' past (f s) (f s') := by
  obtain ⟨hcfg, es, ht, rfl⟩ := h
  obtain ⟨hcfg', ht'⟩ := hf.cfg_trace s
  exact ⟨hcfg'.trans hcfg, es, ht'.trans ht, hf s _ _⟩

theorem Mirrors.log_keeps (h : Mirrors c c' past s s') {e e' : Event} (he : retarget c c' e = e') :
    Mirrors c c' past (log e s) (log e' s') := by
  obtain ⟨hcfg, es, ht, rfl⟩ := h
  exact ⟨hcfg, es ++ [e], by simp [ht], by simp [log, he]⟩

/-! ## The register capability: the one place where CFG shows on the bus -/

theorem Mirrors.regRead_keeps (h : Mirrors c c' past s s') (hc : c.ok = true) (i : RegIndex) :
    Mirrors c c' past (regRead i s).2 (regRead i s').2 :=
  h.log_keeps (by rw [h.cfg_source, h.cfg_target, h.dev_eq, retarget_read c' hc])

theorem Mirrors.regWrite_keeps (h : Mirrors c c' past s s') (hc : c.ok = true) (i : RegIndex) (v : Byte) :
    Mirrors c c' past (regWrite i v s) (regWrite i v s') :=
  (h.update_keeps (f := fun u => { u with dev := u.dev.write i v }) fun _ _ _ => rfl).log_keeps
    (by rw [h.cfg_source, h.cfg_target, retarget_write c' hc])

/-! ## The shared operations -/

theorem Mirrors.respond_keeps (h : Mirrors c c' past s s') (st d : Byte) :
    Mirrors c c' past (respond st d s) (respond st d s') :=
  (h.update_keeps (f := fun u => { u with rstat := st, rdata := d, phase := .done }) fun _ _ _ => rfl).log_keeps rfl

theorem Mirrors.hint_keeps (h : Mirrors c c' past s s') : Mirrors c c' past (hint s) (hint s') := h.log_keeps rfl

theorem Mirrors.wouldBlock_keeps (h : Mirrors c c' past s s') : Mirrors c c' past (wouldBlock s) (wouldBlock s') :=
  h.respond_keeps _ _

theorem Mirrors.latchCommand_keeps (h : Mirrors c c' past s s') (w : Word) :
    Mirrors c c' past (latchCommand w s) (latchCommand w s') :=
  (h.update_keeps (f := fun u => { u with opr := highByte w, argr := lowByte w, idx := 0 }) fun _ _ _ => rfl).log_keeps
    rfl

theorem Mirrors.accept_keeps (h : Mirrors c c' past s s') (i : Instr) (p : Phase) :
    Mirrors c c' past (accept i p s) (accept i p s') :=
  (h.latchCommand_keeps (encode i)).update_keeps (f := fun u => { u with phase := p }) fun _ _ _ => rfl

theorem Mirrors.acceptIllegal_keeps (h : Mirrors c c' past s s') (w : Word) :
    Mirrors c c' past (acceptIllegal w s) (acceptIllegal w s') :=
  (h.latchCommand_keeps w).respond_keeps _ _

theorem Mirrors.take_keeps (h : Mirrors c c' past s s') : Mirrors c c' past (take s) (take s') :=
  h.update_keeps fun _ _ _ => rfl

theorem Mirrors.resetEngine_keeps (h : Mirrors c c' past s s') : Mirrors c c' past (resetEngine s) (resetEngine s') :=
  (h.update_keeps (f := fun u =>
    { u with phase := .idle, idx := 0, opr := 0x00, argr := 0x00, rstat := 0x00, rdata := 0x00 }) fun _ _ _ =>
    rfl).log_keeps rfl

/-! ## The engine's own steps -/

theorem Mirrors.initStep_keeps (h : Mirrors c c' past s s') (hc : c.ok = true) :
    Mirrors c c' past (initStep s) (initStep s') := by
  have hw := h.regWrite_keeps hc (initRow s.idx).1 (initRow s.idx).2
  by_cases hlt : s.idx.toNat < 7
  · rw [initStep_of_lt hlt, initStep_of_lt (h.idx_eq ▸ hlt), h.idx_eq]
    exact hw.update_keeps (f := fun u => { u with idx := s.idx + 1 }) fun _ _ _ => rfl
  · rw [initStep_of_last hlt, initStep_of_last (h.idx_eq ▸ hlt), h.idx_eq]
    exact hw.respond_keeps _ _

theorem Mirrors.pollStatus_keeps (h : Mirrors c c' past s s') (hc : c.ok = true) :
    Mirrors c c' past (pollStatus s) (pollStatus s') := by
  simpa only [pollStatus_eq, regRead_state, Device.answer_lsr, h.dev_eq] using
    (h.regRead_keeps hc .lsr).respond_keeps 0x00 s.dev.lsr

theorem Mirrors.pollTransfer_keeps (h : Mirrors c c' past s s') (hc : c.ok = true) {ready : Cfg → Byte → Bool}
    (hready : ready c' = ready c) {notReady : State → State}
    (hn : ∀ {u u' : State}, Mirrors c c' past u u' → Mirrors c c' past (notReady u) (notReady u')) :
    Mirrors c c' past (pollTransfer ready notReady s) (pollTransfer ready notReady s') := by
  have hread := h.regRead_keeps hc .lsr
  have heq : ready s'.cfg s'.dev.lsr = ready s.cfg s.dev.lsr := by
    rw [h.cfg_target, h.dev_eq, hready, h.cfg_source]
  cases hr : ready s.cfg s.dev.lsr with
  | true =>
    rw [pollTransfer_of_ready hr, pollTransfer_of_ready (heq.trans hr)]
    exact hread.update_keeps (f := fun u => { u with phase := .access }) fun _ _ _ => rfl
  | false =>
    rw [pollTransfer_of_not_ready hr, pollTransfer_of_not_ready (heq.trans hr)]
    exact hn hread

theorem Mirrors.accessTransmit_keeps (h : Mirrors c c' past s s') (hc : c.ok = true) (ht : accessTransmit s = .next t) :
    ∃ t', accessTransmit s' = .next t' ∧ Mirrors c c' past t t' := by
  obtain ⟨b, hb, hcase⟩ := accessTransmit_cases ht
  have hw := h.regWrite_keeps hc .data b
  rw [← h.opr_eq, ← h.argr_eq, ← h.idx_eq] at hb hcase
  obtain ⟨hlt, rfl⟩ | ⟨hlast, rfl⟩ := hcase
  · exact ⟨_, accessTransmit_of_lt hb hlt,
      hw.update_keeps (f := fun u => { u with idx := s'.idx + 1, phase := .poll }) fun _ _ _ => rfl⟩
  · exact ⟨_, accessTransmit_of_last hb hlast, hw.respond_keeps _ _⟩

theorem Mirrors.accessReceive_keeps (h : Mirrors c c' past s s') (hc : c.ok = true) :
    Mirrors c c' past (accessReceive s) (accessReceive s') := by
  simpa only [accessReceive_eq, regRead_state, Device.answer_data, h.dev_eq] using
    (h.regRead_keeps hc .data).respond_keeps 0x00 s.dev.rbr

/-! ## exec -/

theorem Mirrors.pollOf_keeps (h : Mirrors c c' past s s') (hc : c.ok = true) (hrx : rxReady c' = rxReady c)
    (htx : txReady c' = txReady c) {i : Instr} (ht : pollOf i s t) : ∃ t', pollOf i s' t' ∧ Mirrors c c' past t t' := by
  cases i with
  | init => exact ht.elim
  | lsts => exact ⟨_, rfl, ht ▸ h.pollStatus_keeps hc⟩
  | send | sendr => exact ⟨_, rfl, ht ▸ h.pollTransfer_keeps hc htx Mirrors.hint_keeps⟩
  | tsendr => exact ⟨_, rfl, ht ▸ h.pollTransfer_keeps hc htx Mirrors.wouldBlock_keeps⟩
  | recv => exact ⟨_, rfl, ht ▸ h.pollTransfer_keeps hc hrx Mirrors.hint_keeps⟩
  | trecv => exact ⟨_, rfl, ht ▸ h.pollTransfer_keeps hc hrx Mirrors.wouldBlock_keeps⟩

theorem Mirrors.accessOf_keeps (h : Mirrors c c' past s s') (hc : c.ok = true) {i : Instr} (ht : accessOf i s t) :
    ∃ t', accessOf i s' t' ∧ Mirrors c c' past t t' := by
  cases i with
  | init | lsts => exact ht.elim
  | send | sendr | tsendr => exact h.accessTransmit_keeps hc ht
  | recv | trecv => exact ⟨_, rfl, ht ▸ h.accessReceive_keeps hc⟩

theorem Mirrors.exec_keeps (h : Mirrors c c' past s s') (hc : c.ok = true) (hrx : rxReady c' = rxReady c)
    (htx : txReady c' = txReady c) {i : Instr} (ht : exec i s = .next t) :
    ∃ t', exec i s' = .next t' ∧ Mirrors c c' past t t' := by
  obtain ⟨hp, rfl⟩ | ⟨hp, rfl, rfl⟩ | ⟨hp, hpoll⟩ | ⟨hp, hacc⟩ | ⟨hp, rfl⟩ := exec_cases ht <;>
    rw [← h.phase_eq] at hp
  · exact ⟨_, exec_idle hp i, h.accept_keeps _ _⟩
  · exact ⟨_, exec_init_init hp, h.initStep_keeps hc⟩
  · obtain ⟨t', ht', hm⟩ := h.pollOf_keeps hc hrx htx hpoll
    exact ⟨t', exec_of_pollOf hp ht', hm⟩
  · obtain ⟨t', ht', hm⟩ := h.accessOf_keeps hc hacc
    exact ⟨t', exec_of_accessOf hp ht', hm⟩
  · exact ⟨s', exec_done hp i, h⟩

/-! ## The step of engine and host -/

theorem Mirrors.engineStep_keeps (h : Mirrors c c' past s s') (hc : c.ok = true) (hrx : rxReady c' = rxReady c)
    (htx : txReady c' = txReady c) (ht : engineStep s = .next t) :
    ∃ t', engineStep s' = .next t' ∧ Mirrors c c' past t t' := by
  obtain ⟨hr, rfl⟩ | ⟨hr, hcase⟩ := engineStep_cases ht <;> rw [← h.host_eq] at hr
  · exact ⟨_, engineStep_reset hr, h.resetEngine_keeps⟩
  rw [← h.fetch_eq, ← h.phase_eq, ← h.host_eq] at hcase
  obtain ⟨i, hf, he⟩ | ⟨hf, hp, w, hw, rfl⟩ | ⟨hf, hp, hw, rfl⟩ | ⟨-, hp, htk, rfl⟩ | ⟨-, hp, htk, rfl⟩ := hcase
  · obtain ⟨t', ht', hm⟩ := h.exec_keeps hc hrx htx he
    exact ⟨t', (engineStep_of_fetch hr hf).trans ht', hm⟩
  · exact ⟨_, engineStep_illegal hr hp hf hw, h.acceptIllegal_keeps w⟩
  · exact ⟨s', engineStep_idle_wait hr hp hf hw, h⟩
  · exact ⟨_, (engineStep_done hr hp).trans (by rw [if_pos htk]), h.take_keeps⟩
  · exact ⟨s', (engineStep_done hr hp).trans (by simp [htk]), h⟩

end

/-- Settles O21: with the same two line-status bits the two engines' steps stay mirrored, and the host and the device go
on from equal states. -/
theorem backendsTakeTheSameStep : Obligations.BackendsTakeTheSameStep := by
  intro s t c' hc' hdr hthre hstep
  obtain ⟨hc, u, hu, rfl⟩ := step_cases hstep
  have hrx : rxReady c' = rxReady s.cfg := by funext v; rw [rxReady, rxReady, hdr]
  have htx : txReady c' = txReady s.cfg := by funext v; rw [txReady, txReady, hthre]
  obtain ⟨u', hu', -, es, htr, rfl⟩ := (mirrors_self c' s).engineStep_keeps hc hrx htx hu
  exact ⟨es, htr, step_of_engineStep hc' hu'⟩

end Sys2Proof.Machine
end

section
/-! The flag decoders and the divisor table (41_flag_decoders.md). A decoded flag is one bit of the byte and an encoded
flag sets one bit, so a round trip in either direction is settled bit by bit: O22, O23; the table's ten pairs: O24, O25. -/

namespace Sys2Proof.Machine

/-! ## One flag -/

theorem getElem_flagBit (n : Nat) (f : Bool) (k : Nat) (hk : k < 8) : (flagBit n f)[k] = (f && decide (k = n)) := by
  cases f with
  | false => simp [flagBit]
  | true => simp [flagBit, BitVec.getElem_twoPow]

theorem flagBit_knownBit (known b : Byte) (n : Nat) :
    flagBit n (knownBit known b n) = b &&& known &&& BitVec.twoPow 8 n :=
  (BitVec.and_twoPow _ n).symm

theorem knownBit_of_known {known : Byte} {n : Nat} (h : known.getLsbD n = true) (b : Byte) :
    knownBit known b n = b.getLsbD n := by
  simp [knownBit, h]

/-- The reading of a flag as a masked test (R120). -/
theorem getLsbD_iff_and_mask {n : Nat} {mask : Byte} (hn : n < 8) (hm : mask = BitVec.twoPow 8 n) (b : Byte) :
    b.getLsbD n = true ↔ b &&& mask ≠ 0 := by
  have hne : BitVec.twoPow 8 n ≠ 0 := fun h => by
    simpa [hn] using congrArg (BitVec.getLsbD · n) h
  rw [hm, BitVec.and_twoPow]
  split
  next h => exact iff_of_true h hne
  next h => exact iff_of_false h (fun h0 => h0 rfl)

theorem knownBit_iff_and_mask {n : Nat} {known mask : Byte} (hk : known.getLsbD n = true)
    (hm : mask = BitVec.twoPow 8 n) (b : Byte) : knownBit known b n = true ↔ b &&& mask ≠ 0 := by
  rw [knownBit_of_known hk]
  exact getLsbD_iff_and_mask (BitVec.lt_of_getLsbD hk) hm b

/-! ## The trigger field of FCR (R123) -/

theorem decodeFcr_trigger (b : Byte) : (decodeFcr b).trigger = b.extractLsb' 6 2 := by
  have hk : knownFcr.extractLsb' 6 2 = BitVec.allOnes 2 := rfl
  simp only [decodeFcr, BitVec.extractLsb'_and, hk, BitVec.and_allOnes]

theorem decodeFcr_trigger_toNat (b : Byte) : (decodeFcr b).trigger.toNat = b.toNat / 64 := by
  rw [decodeFcr_trigger, BitVec.extractLsb'_toNat, Nat.shiftRight_eq_div_pow]
  omega

/-- The trigger stands above six zero bits. -/
theorem getElem_trigger_append (t : BitVec 2) (k : Nat) (hk : k < 8) :
    (t ++ 0#6 : Byte)[k] = (decide (6 ≤ k) && t.getLsbD (k - 6)) := by
  have h : (t ++ 0#6)[k] = _ := BitVec.getElem_append hk
  rw [h]
  split
  next hlt => simp [hlt]
  next hge => simp [not_lt.mp hge, BitVec.getLsbD_eq_getElem (show k - 6 < 2 by omega)]

theorem extractLsb'_append_zero (b : Byte) : (b.extractLsb' 6 2 ++ 0#6 : Byte) = b &&& 0xC0 := by
  apply BitVec.eq_of_getElem_eq
  intro k hk
  rw [getElem_trigger_append]
  interval_cases k <;> simp

/-! ## Encoding what was decoded: each flag gives back its mask's part of the byte, and the masks joined are the known
bits, by computation -/

theorem encodeFcr_decodeFcr (b : Byte) : encodeFcr (decodeFcr b) = b &&& 0xCF := by
  have ht : (decodeFcr b).trigger ++ (0 : BitVec 6) = b &&& knownFcr &&& 0xC0 := extractLsb'_append_zero _
  rw [encodeFcr, ht]
  simp only [decodeFcr, flagBit_knownBit, ← BitVec.and_or_distrib_left]
  exact BitVec.and_assoc ..

theorem encodeIer_decodeIer (b : Byte) : encodeIer (decodeIer b) = b &&& 0x0F := by
  simp only [encodeIer, decodeIer, flagBit_knownBit, ← BitVec.and_or_distrib_left]
  exact BitVec.and_assoc ..

theorem encodeMcr_decodeMcr (b : Byte) : encodeMcr (decodeMcr b) = b &&& 0x1F := by
  simp only [encodeMcr, decodeMcr, flagBit_knownBit, ← BitVec.and_or_distrib_left]
  exact BitVec.and_assoc ..

theorem encodeMsr_decodeMsr (b : Byte) : encodeMsr (decodeMsr b) = b &&& 0xFF := by
  simp only [encodeMsr, decodeMsr, flagBit_knownBit, ← BitVec.and_or_distrib_left]
  exact BitVec.and_assoc ..

/-! ## Decoding what was encoded: each flag owns its bit -/

theorem decodeLsr_encodeLsr (f : LsrFlags) : decodeLsr (encodeLsr f) = f := by
  simp [decodeLsr, encodeLsr, knownBit, knownLsr, getElem_flagBit]

theorem decodeFcr_encodeFcr_trigger (f : FcrFlags) : (decodeFcr (encodeFcr f)).trigger = f.trigger := by
  rw [decodeFcr_trigger]
  apply BitVec.eq_of_getElem_eq
  intro k hk
  interval_cases k <;> simp [encodeFcr, getElem_flagBit, getElem_trigger_append]

theorem decodeFcr_encodeFcr (f : FcrFlags) : decodeFcr (encodeFcr f) = f :=
  calc decodeFcr (encodeFcr f)
    _ = { f with trigger := (decodeFcr (encodeFcr f)).trigger } := by
      simp [decodeFcr, encodeFcr, knownBit, knownFcr, getElem_flagBit, getElem_trigger_append]
    _ = f := by rw [decodeFcr_encodeFcr_trigger]

theorem decodeIer_encodeIer (f : IerFlags) : decodeIer (encodeIer f) = f := by
  simp [decodeIer, encodeIer, knownBit, knownIer, getElem_flagBit]

theorem decodeMcr_encodeMcr (f : McrFlags) : decodeMcr (encodeMcr f) = f := by
  simp [decodeMcr, encodeMcr, knownBit, knownMcr, getElem_flagBit]

theorem decodeMsr_encodeMsr (f : MsrFlags) : decodeMsr (encodeMsr f) = f := by
  simp [decodeMsr, encodeMsr, knownBit, knownMsr, getElem_flagBit]

/-- Settles O22: the flags' masks are disjoint and make up the known bits; each flag is its mask's bit. -/
theorem flagDecodersRoundTrip : Obligations.FlagDecodersRoundTrip := by
  refine ⟨fun b => (encodeLsr_decodeLsr b).trans BitVec.and_allOnes.symm, decodeLsr_encodeLsr,
    encodeFcr_decodeFcr, decodeFcr_encodeFcr, encodeIer_decodeIer, decodeIer_encodeIer,
    encodeMcr_decodeMcr, decodeMcr_encodeMcr, encodeMsr_decodeMsr, decodeMsr_encodeMsr,
    fun b => ?lsr, fun b => ?fcr, ⟨rfl, rfl, rfl, rfl⟩, fun b => ?ier, fun b => ?mcr, fun b => ?msr⟩
  case fcr =>
    refine ⟨?_, ?_, ?_, ?_, decodeFcr_trigger_toNat b⟩ <;> exact knownBit_iff_and_mask rfl rfl b
  case lsr | msr => refine ⟨?_, ?_, ?_, ?_, ?_, ?_, ?_, ?_⟩ <;> exact knownBit_iff_and_mask rfl rfl b
  case ier => refine ⟨?_, ?_, ?_, ?_⟩ <;> exact knownBit_iff_and_mask rfl rfl b
  case mcr => refine ⟨?_, ?_, ?_, ?_, ?_⟩ <;> exact knownBit_iff_and_mask rfl rfl b

/-! ## The readiness predicates (R131) -/

theorem txReady_of_threBit {c : Cfg} (h : c.threBit = 5) (v : Byte) : txReady c v = v.getLsbD 5 := by
  rw [txReady, h]; rfl

theorem rxReady_of_drBit {c : Cfg} (h : c.drBit = 0) (v : Byte) : rxReady c v = v.getLsbD 0 := by
  rw [rxReady, h]; rfl

/-- Settles O23: each predicate reads one bit of the byte, which the line-status decoder keeps as its own flag. -/
theorem readinessPredicates : Obligations.ReadinessPredicates := by
  refine fun c v => ⟨Iff.rfl, Iff.rfl, fun hthre => ?tx, fun hdr => ?rx⟩
  case tx =>
    rw [txReady_of_threBit hthre]
    exact ⟨getLsbD_iff_and_mask (by decide) rfl v, (knownBit_of_known rfl v).symm⟩
  case rx =>
    rw [rxReady_of_drBit hdr]
    exact ⟨getLsbD_iff_and_mask (by decide) rfl v, (knownBit_of_known rfl v).symm⟩

/-! ## The divisor table (R128 to R130) -/

theorem validate_iff_mem (low high : Byte) : validate low high = true ↔ (low, high) ∈ divisorTable.map Prod.snd := by
  simp [validate, List.any_eq_true, Prod.ext_iff]

theorem divisor_mul_baud : ∀ row ∈ divisorTable, divisor row.2.1 row.2.2 * row.1 = 115200 := by
  decide

/-- Settles O24: `validate` looks the pair up in the table, whose ten pairs are those of R129. -/
theorem validateAcceptsExactlyTenPairs : Obligations.ValidateAcceptsExactlyTenPairs := validate_iff_mem

/-- Settles O25: each row's product by computation, and a row's own pair is found in the table. -/
theorem divisorTimesBaudIsConstant : Obligations.DivisorTimesBaudIsConstant :=
  ⟨rfl, fun row hrow => ⟨divisor_mul_baud row hrow, (validate_iff_mem _ _).2 (List.mem_map_of_mem hrow)⟩⟩

end Sys2Proof.Machine
end

section
/-! Poll before access (42_sequencer.md R155, 70_reset_and_hazards.md R244): what the poll step and the access step of a
fetched command leave, the licence of each of the engine's accesses, and O52 from them. -/

namespace Sys2Proof.Machine

/-! ## All that a poll step and an access step can leave (R154, R155) -/

theorem pollTransfer_leaves (ready : Cfg → Byte → Bool) {notReady : State → State} (s : State)
    (hn : ∀ u, notReady u = hint u ∨ notReady u = wouldBlock u) :
    (ready s.cfg s.dev.lsr = true ∧
        pollTransfer ready notReady s = { log (readEvent s.cfg .lsr s.dev.lsr) s with phase := .access }) ∨
      pollTransfer ready notReady s = hint (log (readEvent s.cfg .lsr s.dev.lsr) s) ∨
      ∃ st d, pollTransfer ready notReady s = respond st d (log (readEvent s.cfg .lsr s.dev.lsr) s) := by
  obtain h | ⟨-, e⟩ := pollTransfer_cases ready notReady s
  · exact .inl h
  · rw [e]
    exact .inr ((hn _).imp_right fun e => ⟨0x01, 0x00, e⟩)

theorem pollOf_cases {i : Instr} {s t : State} (h : pollOf i s t) :
    (readyFor s.cfg i.opcode s.dev.lsr = true ∧
        t = { log (readEvent s.cfg .lsr s.dev.lsr) s with phase := .access }) ∨
      t = hint (log (readEvent s.cfg .lsr s.dev.lsr) s) ∨
      ∃ st d, t = respond st d (log (readEvent s.cfg .lsr s.dev.lsr) s) := by
  cases i with
  | init => exact h.elim
  | lsts => exact .inr (.inr ⟨0x00, s.dev.lsr, h.trans (pollStatus_eq s)⟩)
  | send | sendr => exact h ▸ pollTransfer_leaves txReady s fun _ => .inl rfl
  | tsendr => exact h ▸ pollTransfer_leaves txReady s fun _ => .inr rfl
  | recv => exact h ▸ pollTransfer_leaves rxReady s fun _ => .inl rfl
  | trecv => exact h ▸ pollTransfer_leaves rxReady s fun _ => .inr rfl

theorem accessOf_cases {i : Instr} {s t : State} (h : accessOf i s t) :
    (isTransmit i.opcode = true ∧ ∃ b, t = { regWrite .data b s with idx := s.idx + 1, phase := .poll } ∨
        t = respond 0x00 0x00 (regWrite .data b s)) ∨
      (isReceive i.opcode = true ∧ t = respond 0x00 s.dev.rbr (log (readEvent s.cfg .data s.dev.rbr) s)) := by
  cases i with
  | init | lsts => exact h.elim
  | send | sendr | tsendr =>
    obtain ⟨b, -, hcase⟩ := accessTransmit_cases h
    exact .inl ⟨rfl, b, hcase.imp And.right And.right⟩
  | recv | trecv => exact .inr ⟨rfl, h.trans (accessReceive_eq s)⟩

/-- In POLL and ACCESS the command fetched is one of OPR (R154, R155). -/
theorem opr_eq_opcode_of_fetch {i : Instr} {s : State} (hf : fetch s = some i)
    (hp : s.phase = .poll ∨ s.phase = .access) : s.opr = i.opcode := by
  obtain ⟨-, ⟨e, -⟩ | ⟨e, -⟩ | ⟨-, hi⟩ | ⟨-, hi⟩⟩ := fetch_cases hf
  · simp [e] at hp
  · simp [e] at hp
  · exact (ofOpcode_cases hi).1
  · exact (ofOpcode_cases hi).1

/-! ## The licence of each access -/

section
variable {c : Cfg} {prev : Option Event}

/-- A read of LSR is no data access. -/
theorem licensed_readLsr (hc : c.ok = true) (prev : Option Event) (v : Byte) : licensed c prev (readEvent c .lsr v) :=
  fun e => by cases addr_injective hc e

theorem licensed_readData {r v : Byte} (hp : prev = some (readEvent c .lsr r)) (hr : rxReady c r = true) :
    licensed c prev (readEvent c .data v) := fun _ => ⟨r, hp, hr⟩

theorem licensed_writeData {r v : Byte} (hp : prev = some (readEvent c .lsr r)) (hr : txReady c r = true) :
    licensed c prev (writeEvent c .data v) := fun _ => .inl ⟨r, hp, hr⟩

/-- The one row that names DATA writes the divisor's low byte (43_init.md R171). -/
theorem eq_two_of_initRow_eq_data {k : BitVec 3} (h : (initRow k).1 = .data) : k = 2 := by
  revert k
  decide

theorem licensed_initRow (hc : c.ok = true) {k : BitVec 3} (hp : k = 2 → prev = some (writeEvent c .lcr 0x80)) :
    licensed c prev (writeEvent c (initRow k).1 (initRow k).2) := by
  intro e
  obtain rfl := eq_two_of_initRow_eq_data (addr_injective hc e)
  exact .inr ⟨rfl, hp rfl⟩

end

/-! ## The discipline after each kind of step -/

theorem PollDiscipline.polled {s : State} (h : PollDiscipline s) (hp : s.phase = .access) :
    ∃ r, s.trace.getLast? = some (readEvent s.cfg .lsr r) ∧ readyFor s.cfg s.opr r = true := by
  obtain ⟨-, hpolled, -⟩ := h
  exact hpolled hp

theorem PollDiscipline.divisor_open {s : State} (h : PollDiscipline s) (hp : s.phase = .init) (hk : s.idx = 2) :
    s.trace.getLast? = some (writeEvent s.cfg .lcr 0x80) := by
  obtain ⟨-, -, hdivisor⟩ := h
  exact hdivisor hp hk

/-- Licensed events keep the discipline; where they lead to ACCESS, or to row 2 of INIT, the last of them licenses what
comes next. -/
theorem PollDiscipline.append {s t : State} {es : List Event} (h : PollDiscipline s) (hcfg : t.cfg = s.cfg)
    (htr : t.trace = s.trace ++ es) (hes : licensedTrace s.cfg s.trace.getLast? es)
    (hacc : t.phase = .access →
      ∃ r, es.getLast? = some (readEvent s.cfg .lsr r) ∧ readyFor s.cfg t.opr r = true)
    (hinit : t.phase = .init → t.idx = 2 → es.getLast? = some (writeEvent s.cfg .lcr 0x80)) : PollDiscipline t := by
  obtain ⟨hpast, -, -⟩ := h
  unfold PollDiscipline
  rw [hcfg, htr, licensedTrace_append, List.getLast?_append]
  refine ⟨⟨hpast, by simpa using hes⟩, fun hp => ?_, fun hp hk => ?_⟩
  · obtain ⟨r, hlast, hr⟩ := hacc hp
    exact ⟨r, by rw [hlast]; rfl, hr⟩
  · rw [hinit hp hk]
    rfl

/-- Licensed events that lead to a phase in which no access has to be licensed. -/
theorem PollDiscipline.append_of_phase {s t : State} {es : List Event} (h : PollDiscipline s) (hcfg : t.cfg = s.cfg)
    (htr : t.trace = s.trace ++ es) (hes : licensedTrace s.cfg s.trace.getLast? es)
    (hp : t.phase = .idle ∨ t.phase = .poll ∨ t.phase = .done) : PollDiscipline t :=
  h.append hcfg htr hes (fun e => by simp [e] at hp) (fun e => by simp [e] at hp)

theorem PollDiscipline.accept_keeps {s : State} (h : PollDiscipline s) (i : Instr) :
    PollDiscipline (accept i (firstPhase i) s) := by
  refine h.append rfl (accept_trace i _ s) ⟨trivial, trivial⟩ (fun hp => ?_)
    fun _ (hk : (0 : BitVec 3) = 2) => by cases hk
  cases i <;> cases hp

theorem PollDiscipline.initStep_keeps {s : State} (hc : s.cfg.ok = true) (h : PollDiscipline s)
    (hp : s.phase = .init) : PollDiscipline (initStep s) := by
  have hrow := licensed_initRow hc (h.divisor_open hp)
  obtain ⟨hlt, e⟩ | ⟨-, e⟩ := initStep_cases s <;> rw [e]
  · refine h.append rfl rfl ⟨hrow, trivial⟩ (fun ha => by simp [hp] at ha) fun _ hk => ?_
    have hone : s.idx = 1 := by
      have : s.idx + 1 = 2 := hk
      bv_omega
    rw [hone]
    rfl
  · exact h.append_of_phase rfl (List.append_assoc _ [_] [_]) ⟨hrow, trivial, trivial⟩ (.inr (.inr rfl))

theorem PollDiscipline.pollOf_keeps {i : Instr} {s t : State} (hc : s.cfg.ok = true) (h : PollDiscipline s)
    (hp : s.phase = .poll) (hopr : s.opr = i.opcode) (ht : pollOf i s t) : PollDiscipline t := by
  have hread := licensed_readLsr hc s.trace.getLast? s.dev.lsr
  obtain ⟨hr, rfl⟩ | rfl | ⟨st, d, rfl⟩ := pollOf_cases ht
  · exact h.append rfl rfl ⟨hread, trivial⟩ (fun _ => ⟨_, rfl, hopr ▸ hr⟩) fun hi => by cases hi
  · exact h.append_of_phase rfl (List.append_assoc _ [_] [_]) ⟨hread, trivial, trivial⟩ (.inr (.inl hp))
  · exact h.append_of_phase rfl (List.append_assoc _ [_] [_]) ⟨hread, trivial, trivial⟩ (.inr (.inr rfl))

/-- The access is licensed by the poll just before it, which looked at the bit of the access's own direction. -/
theorem PollDiscipline.accessOf_keeps {i : Instr} {s t : State} (h : PollDiscipline s) (hp : s.phase = .access)
    (hopr : s.opr = i.opcode) (ht : accessOf i s t) : PollDiscipline t := by
  obtain ⟨r, hlast, hr⟩ := h.polled hp
  rw [hopr] at hr
  obtain ⟨hi, b, rfl | rfl⟩ | ⟨hi, rfl⟩ := accessOf_cases ht
  · rw [readyFor_of_isTransmit hi] at hr
    exact h.append_of_phase rfl rfl ⟨licensed_writeData hlast hr, trivial⟩ (.inr (.inl rfl))
  · rw [readyFor_of_isTransmit hi] at hr
    exact h.append_of_phase rfl (List.append_assoc _ [_] [_]) ⟨licensed_writeData hlast hr, trivial, trivial⟩
      (.inr (.inr rfl))
  · rw [readyFor_of_isReceive hi] at hr
    exact h.append_of_phase rfl (List.append_assoc _ [_] [_]) ⟨licensed_readData hlast hr, trivial, trivial⟩
      (.inr (.inr rfl))

theorem PollDiscipline.exec_keeps {i : Instr} {s t : State} (hc : s.cfg.ok = true) (h : PollDiscipline s)
    (hf : fetch s = some i) (ht : exec i s = .next t) : PollDiscipline t := by
  obtain ⟨-, rfl⟩ | ⟨hp, -, rfl⟩ | ⟨hp, hpoll⟩ | ⟨hp, hacc⟩ | ⟨-, rfl⟩ := exec_cases ht
  · exact h.accept_keeps i
  · exact h.initStep_keeps hc hp
  · exact h.pollOf_keeps hc hp (opr_eq_opcode_of_fetch hf (.inl hp)) hpoll
  · exact h.accessOf_keeps hp (opr_eq_opcode_of_fetch hf (.inr hp)) hacc
  · exact h

theorem PollDiscipline.engineStep_keeps {s t : State} (hc : s.cfg.ok = true) (h : PollDiscipline s)
    (ht : engineStep s = .next t) : PollDiscipline t := by
  obtain ⟨-, rfl⟩ | ⟨-, ⟨i, hf, he⟩ | ⟨-, -, w, -, rfl⟩ | ⟨-, -, -, rfl⟩ | ⟨-, -, -, rfl⟩ | ⟨-, -, -, rfl⟩⟩ :=
    engineStep_cases ht
  · exact h.append_of_phase rfl (resetEngine_trace s) ⟨trivial, trivial⟩ (.inl rfl)
  · exact h.exec_keeps hc hf he
  · exact h.append_of_phase rfl (List.append_assoc _ [_] [_]) ⟨trivial, trivial, trivial⟩ (.inr (.inr rfl))
  · exact h
  · exact h.append_of_phase rfl (List.append_nil _).symm trivial (.inl rfl)
  · exact h

/-- What follows an engine step leaves CFG, PHASE, IDX, OPR and the trace. -/
theorem pollDiscipline_settle {s t : State} : PollDiscipline (settle s t) ↔ PollDiscipline t := Iff.rfl

/-- Settles O52: each kind of engine step adds only licensed accesses, and a ready poll licenses the next one. -/
theorem stepKeepsPollBeforeAccess : Obligations.StepKeepsPollBeforeAccess := by
  intro s t h hstep
  obtain ⟨hc, u, hu, rfl⟩ := step_cases hstep
  exact pollDiscipline_settle.mpr (h.engineStep_keeps hc hu)

end Sys2Proof.Machine
end

section
/-! Silence outside commands (42_sequencer.md R160): what each kind of engine step adds to the trace, counted in bus
transactions; O19. -/

namespace Sys2Proof.Machine

theorem assertsReset_eq_false_iff (h : HostSide) : h.assertsReset = false ↔ h.acts.head? ≠ some .reset := by
  simp [HostSide.assertsReset]

theorem busEvents_of_isBus {e : Event} (he : e.isBus = true) : busEvents [e] = [e] := by
  simp [busEvents, he]

/-- A command in execution makes one bus transaction in each of its steps. -/
theorem BusyEvents.one_transaction {s t : State} (h : BusyEvents s t) :
    ∃ es, t.trace = s.trace ++ es ∧ (busEvents es).length = 1 := by
  obtain ⟨e, he, -, ⟨-, ht⟩ | ⟨-, ht⟩ | ⟨-, st, d, ht⟩⟩ := h <;> refine ⟨_, ht, ?_⟩
  · rw [busEvents_of_isBus he]
    rfl
  · rw [← List.singleton_append, busEvents_append, busEvents_of_isBus he]
    rfl
  · rw [← List.singleton_append, busEvents_append, busEvents_of_isBus he]
    rfl

theorem exec_transactions {i : Instr} {s t : State} (h : exec i s = .next t) :
    ∃ es, t.trace = s.trace ++ es ∧ (busEvents es).length = if busy s = true then 1 else 0 := by
  obtain ⟨hp, -, ht⟩ | ⟨hb, hev⟩ | ⟨hp, rfl⟩ := exec_events h
  · exact ⟨_, ht, by simp [busy_of_idle hp]⟩
  · rw [if_pos hb]
    exact hev.one_transaction
  · exact ⟨[], by simp, by simp [busy_of_done hp]⟩

/-- Settles O19: the steps that are not a command's in execution are from IDLE, from DONE, or a reset. -/
theorem busSilentOutsideCommands : Obligations.BusSilentOutsideCommands := by
  intro s t h
  obtain ⟨-, u, hu, rfl⟩ := step_cases h
  obtain ⟨hr, rfl⟩ | ⟨hr, hcase⟩ := engineStep_cases hu
  · have hreset : s.host.acts.head? = some .reset := by simpa [HostSide.assertsReset] using hr
    exact ⟨[.reset], rfl, by simp [hreset]⟩
  have hnr := (assertsReset_eq_false_iff s.host).mp hr
  obtain ⟨i, -, he⟩ | ⟨-, hp, w, -, rfl⟩ | ⟨-, hp, -, rfl⟩ | ⟨-, hp, -, rfl⟩ | ⟨-, hp, -, rfl⟩ := hcase
  · simpa [hnr] using exec_transactions he
  · exact ⟨[.cmd w, .resp statusIllegal 0x00], List.append_assoc _ [_] [_], by simp [busy_of_idle hp]⟩
  · exact ⟨[], by simp, by simp [busy_of_idle hp]⟩
  · exact ⟨[], by simp, by simp [busy_of_done hp]⟩
  · exact ⟨[], by simp, by simp [busy_of_done hp]⟩

end Sys2Proof.Machine
end

section
/-! Frames (42_sequencer.md R151 to R155, 20_memory.md R63): which registers of the engine and of the device a command's step
leaves unchanged; O44 and O45. -/

namespace Sys2Proof.Machine

/-- Settles O44, by the kinds of step: accept, the INIT step, the poll step, the access step, and the held response. -/
theorem registerFrame : Obligations.RegisterFrame := by
  intro i s t h
  obtain ⟨hp, rfl⟩ | ⟨hp, -, rfl⟩ | ⟨hp, hpoll⟩ | ⟨hp, hacc⟩ | ⟨hp, rfl⟩ := exec_cases h
  · simp [hp]
  · obtain ⟨-, e⟩ | ⟨-, e⟩ := initStep_cases s <;> simp [e, hp]
  · obtain ⟨-, rfl⟩ | rfl | ⟨st, d, rfl⟩ := pollOf_cases hpoll <;> simp [hp]
  · obtain ⟨-, b, rfl | rfl⟩ | ⟨-, rfl⟩ := accessOf_cases hacc <;> simp [hp]
  · simp

/-! ## What a write leaves in the device's registers -/

/-- A write changes the register it names, which DLAB chooses at indices 0 and 1, and no other (20_memory.md R63). -/
theorem Device.write_frame (d : Device) (i : RegIndex) (v : Byte) :
    (i ≠ .lcr → (d.write i v).lcr = d.lcr) ∧ (i ≠ .fcr → (d.write i v).fcr = d.fcr) ∧
      (i ≠ .mcr → (d.write i v).mcr = d.mcr) ∧
      (i ≠ .data ∨ d.dlab = false → (d.write i v).dll = d.dll) ∧
      (i ≠ .data ∨ d.dlab = true → (d.write i v).thr = d.thr) ∧
      (i ≠ .ier ∨ d.dlab = false → (d.write i v).dlm = d.dlm) ∧
      (i ≠ .ier ∨ d.dlab = true → (d.write i v).ier = d.ier) := by
  cases i with
  | data | ier => cases hd : d.dlab <;> simp [Device.write, hd]
  | fcr | lcr | mcr | lsr => simp [Device.write]

/-! ## Which rows of the bring-up table name which register (43_init.md R171) -/

theorem initRow_ne_lcr {k : BitVec 3} (h1 : k ≠ 1) (h4 : k ≠ 4) : (initRow k).1 ≠ .lcr := by
  revert k
  decide

theorem initRow_ne_fcr {k : BitVec 3} (h5 : k ≠ 5) : (initRow k).1 ≠ .fcr := by
  revert k
  decide

theorem initRow_ne_mcr {k : BitVec 3} (h6 : k ≠ 6) : (initRow k).1 ≠ .mcr := by
  revert k
  decide

theorem initRow_ne_data {k : BitVec 3} (h2 : k ≠ 2) : (initRow k).1 ≠ .data := mt eq_two_of_initRow_eq_data h2

theorem initRow_ne_ier {k : BitVec 3} (h : k ≠ 0 ∧ k ≠ 3 ∧ k ≠ 7) : (initRow k).1 ≠ .ier := by
  revert k
  decide

/-! ## What a command's step does to the device -/

theorem initStep_dev (s : State) : (initStep s).dev = s.dev.write (initRow s.idx).1 (initRow s.idx).2 := by
  obtain ⟨-, e⟩ | ⟨-, e⟩ := initStep_cases s <;> simp [e]

/-- A transmit command's access writes DATA once, a receive command's leaves the device to its move (R155). -/
theorem accessOf_dev {i : Instr} {s t : State} (h : accessOf i s t) :
    (isTransmit i.opcode = true ∧ ∃ b, t.dev = s.dev.write .data b) ∨
      (isReceive i.opcode = true ∧ t.dev = s.dev) := by
  obtain ⟨hi, b, rfl | rfl⟩ | ⟨hi, rfl⟩ := accessOf_cases h
  · exact .inl ⟨hi, b, rfl⟩
  · exact .inl ⟨hi, b, rfl⟩
  · exact .inr ⟨hi, rfl⟩

theorem exec_dev {i : Instr} {s t : State} (h : exec i s = .next t) :
    (s.phase = .init ∧ t.dev = s.dev.write (initRow s.idx).1 (initRow s.idx).2) ∨
      (s.phase = .access ∧ accessOf i s t) ∨ (s.phase ≠ .init ∧ s.phase ≠ .access ∧ t.dev = s.dev) := by
  obtain ⟨hp, rfl⟩ | ⟨hp, -, rfl⟩ | ⟨hp, hpoll⟩ | ⟨hp, hacc⟩ | ⟨hp, rfl⟩ := exec_cases h
  · exact .inr (.inr (by simp [hp]))
  · exact .inl ⟨hp, initStep_dev s⟩
  · obtain ⟨-, rfl⟩ | rfl | ⟨st, d, rfl⟩ := pollOf_cases hpoll <;> exact .inr (.inr (by simp [hp]))
  · exact .inr (.inl ⟨hp, hacc⟩)
  · exact .inr (.inr (by simp [hp]))

/-- Settles O45: only INIT steps and transmit accesses write, the row's register and DATA, and DLAB directs the write. -/
theorem deviceFrame : Obligations.DeviceFrame := by
  intro i s t h
  obtain ⟨hp, hdev⟩ | ⟨hp, hacc⟩ | ⟨hni, hna, hdev⟩ := exec_dev h
  · refine ⟨fun hni => absurd hp hni, fun ha => by simp [hp] at ha, fun ha => by simp [hp] at ha, fun _ => ?_⟩
    obtain ⟨hlcr, hfcr, hmcr, hdll, hthr, hdlm, hier⟩ := s.dev.write_frame (initRow s.idx).1 (initRow s.idx).2
    rw [hdev]
    exact ⟨fun h1 h4 => hlcr (initRow_ne_lcr h1 h4), fun h5 => hfcr (initRow_ne_fcr h5),
      fun h6 => hmcr (initRow_ne_mcr h6), fun h => hdll (h.imp_left initRow_ne_data),
      fun h => hthr (h.imp_left initRow_ne_data), fun h => hdlm (h.imp_left initRow_ne_ier),
      fun h => hier (h.imp_left initRow_ne_ier)⟩
  · refine ⟨fun _ hna => absurd hp hna, fun _ hi => ?_, fun _ => ?_, fun hi => by simp [hp] at hi⟩ <;>
      obtain ⟨htx, b, hdev⟩ | ⟨-, hdev⟩ := accessOf_dev hacc
    · obtain rfl | rfl := hi <;> cases htx
    · exact hdev
    · obtain ⟨hlcr, hfcr, hmcr, hdll, hthr, hdlm, hier⟩ := s.dev.write_frame .data b
      rw [hdev]
      exact ⟨hier (.inl (by simp)), hfcr (by simp), hlcr (by simp), hmcr (by simp), hdlm (.inl (by simp)),
        fun hd => hthr (.inr hd), fun hd => hdll (.inr hd)⟩
    · simp [hdev]
  · simp [hdev, hni, hna]

end Sys2Proof.Machine
end

section
/-! The engine registers, CFG and the two bytes the device answers determine a command's step (42_sequencer.md R163): in any
other surroundings the step sets the same registers, makes the same writes and adds the same events. O47, and O9 from the
case of another host. -/

namespace Sys2Proof.Machine

/-- The same engine beside another device and another host, with another trace behind it. -/
def State.within (d : Device) (h : HostSide) (tr : List Event) (s : State) : State :=
  { s with dev := d, host := h, trace := tr }

/-- The device after several writes. -/
def Device.writes (d : Device) (ws : List (RegIndex × Byte)) : Device := ws.foldl (fun d w => d.write w.1 w.2) d

/-- `move` is a kind of step, and one of them leads from s to t. Wherever the device answers as it does in s there is one that
makes the same writes, adds the same events and leaves the engine as it is in t. -/
def AnswersDetermine (move : State → State → Prop) (s t : State) : Prop :=
  ∃ ws es, ∀ (d : Device) (h : HostSide) (tr : List Event), d.lsr = s.dev.lsr → d.rbr = s.dev.rbr →
    move (s.within d h tr) (t.within (d.writes ws) h (tr ++ es))

/-! ## Each kind of step -/

theorem answersDetermine_initStep (s : State) : AnswersDetermine (fun u v => initStep u = v) s (initStep s) := by
  by_cases hlt : s.idx.toNat < 7
  · rw [initStep_of_lt hlt]
    exact ⟨[initRow s.idx], [writeEvent s.cfg (initRow s.idx).1 (initRow s.idx).2], fun d h tr _ _ =>
      initStep_of_lt (s := s.within d h tr) hlt⟩
  · rw [initStep_of_last hlt]
    refine ⟨[initRow s.idx], [writeEvent s.cfg (initRow s.idx).1 (initRow s.idx).2, .resp 0x00 0x00],
      fun d h tr _ _ => (initStep_of_last (s := s.within d h tr) hlt).trans ?_⟩
    rw [List.append_cons]
    rfl

theorem answersDetermine_pollStatus (s : State) :
    AnswersDetermine (fun u v => pollStatus u = v) s (pollStatus s) := by
  rw [pollStatus_eq]
  refine ⟨[], [readEvent s.cfg .lsr s.dev.lsr, .resp 0x00 s.dev.lsr], fun d h tr hl _ => (pollStatus_eq _).trans ?_⟩
  rw [List.append_cons, ← hl]
  rfl

/-- With the same byte read the same bit is tested; what follows a clear bit is one more event. -/
theorem answersDetermine_pollTransfer (ready : Cfg → Byte → Bool) {notReady : State → State} {e : Event}
    (hn : ∀ (u : State) (d : Device) (h : HostSide) (tr : List Event),
      notReady (u.within d h tr) = (notReady u).within d h (tr ++ [e])) (s : State) :
    AnswersDetermine (fun u v => pollTransfer ready notReady u = v) s (pollTransfer ready notReady s) := by
  cases hr : ready s.cfg s.dev.lsr with
  | true =>
    rw [pollTransfer_of_ready hr]
    refine ⟨[], [readEvent s.cfg .lsr s.dev.lsr], fun d h tr hl _ => ?_⟩
    rw [← hl] at hr ⊢
    exact pollTransfer_of_ready (s := s.within d h tr) hr
  | false =>
    rw [pollTransfer_of_not_ready hr]
    refine ⟨[], [readEvent s.cfg .lsr s.dev.lsr, e], fun d h tr hl _ => ?_⟩
    rw [← hl] at hr ⊢
    rw [List.append_cons]
    exact (pollTransfer_of_not_ready (s := s.within d h tr) hr).trans
      (hn (log (readEvent s.cfg .lsr d.lsr) s) d h _)

theorem answersDetermine_accessTransmit {s t : State} (ht : accessTransmit s = .next t) :
    AnswersDetermine (fun u v => accessTransmit u = .next v) s t := by
  obtain ⟨b, hb, ⟨hlt, rfl⟩ | ⟨hlast, rfl⟩⟩ := accessTransmit_cases ht
  · exact ⟨[(.data, b)], [writeEvent s.cfg .data b], fun d h tr _ _ =>
      accessTransmit_of_lt (s := s.within d h tr) hb hlt⟩
  · refine ⟨[(.data, b)], [writeEvent s.cfg .data b, .resp 0x00 0x00], fun d h tr _ _ =>
      (accessTransmit_of_last (s := s.within d h tr) hb hlast).trans ?_⟩
    rw [List.append_cons]
    rfl

theorem answersDetermine_accessReceive (s : State) :
    AnswersDetermine (fun u v => accessReceive u = v) s (accessReceive s) := by
  rw [accessReceive_eq]
  refine ⟨[], [readEvent s.cfg .data s.dev.rbr, .resp 0x00 s.dev.rbr], fun d h tr _ hr =>
    (accessReceive_eq _).trans ?_⟩
  rw [List.append_cons, ← hr]
  rfl

/-! ## exec -/

theorem AnswersDetermine.imp {m m' : State → State → Prop} {s t : State} (h : AnswersDetermine m s t)
    (hm : ∀ u v, u.phase = s.phase → m u v → m' u v) : AnswersDetermine m' s t := by
  obtain ⟨ws, es, hstep⟩ := h
  exact ⟨ws, es, fun d h tr hl hr => hm _ _ rfl (hstep d h tr hl hr)⟩

theorem answersDetermine_pollOf {i : Instr} {s t : State} (ht : pollOf i s t) : AnswersDetermine (pollOf i) s t := by
  have symm : ∀ {f : State → State}, AnswersDetermine (fun u v => f u = v) s (f s) →
      AnswersDetermine (fun u v => v = f u) s (f s) := fun h => h.imp fun _ _ _ => Eq.symm
  cases i with
  | init => exact ht.elim
  | lsts => exact ht ▸ symm (answersDetermine_pollStatus s)
  | send | sendr => exact ht ▸ symm (answersDetermine_pollTransfer txReady (fun _ _ _ _ => rfl) s)
  | tsendr => exact ht ▸ symm (answersDetermine_pollTransfer txReady (fun _ _ _ _ => rfl) s)
  | recv => exact ht ▸ symm (answersDetermine_pollTransfer rxReady (fun _ _ _ _ => rfl) s)
  | trecv => exact ht ▸ symm (answersDetermine_pollTransfer rxReady (fun _ _ _ _ => rfl) s)

theorem answersDetermine_accessOf {i : Instr} {s t : State} (ht : accessOf i s t) :
    AnswersDetermine (accessOf i) s t := by
  cases i with
  | init | lsts => exact ht.elim
  | send | sendr | tsendr => exact answersDetermine_accessTransmit ht
  | recv | trecv => exact ht ▸ (answersDetermine_accessReceive s).imp fun _ _ _ => Eq.symm

theorem answersDetermine_exec {i : Instr} {s t : State} (ht : exec i s = .next t) :
    AnswersDetermine (fun u v => exec i u = .next v) s t := by
  obtain ⟨hp, rfl⟩ | ⟨hp, rfl, rfl⟩ | ⟨hp, hpoll⟩ | ⟨hp, hacc⟩ | ⟨hp, rfl⟩ := exec_cases ht
  · exact ⟨[], [.cmd (encode i)], fun d h tr _ _ => exec_idle (s := s.within d h tr) hp i⟩
  · exact (answersDetermine_initStep s).imp fun u v hu hv => hv ▸ exec_init_init (hu.trans hp)
  · exact (answersDetermine_pollOf hpoll).imp fun u v hu hv => exec_of_pollOf (hu.trans hp) hv
  · exact (answersDetermine_accessOf hacc).imp fun u v hu hv => exec_of_accessOf (hu.trans hp) hv
  · refine ⟨[], [], fun d h tr _ _ => ?_⟩
    rw [List.append_nil]
    exact exec_done (s := t.within d h tr) hp i

/-- States of equal CFG and engine registers differ in their surroundings alone. -/
theorem eq_within {s s' : State} (hcfg : s'.cfg = s.cfg) (hphase : s'.phase = s.phase) (hidx : s'.idx = s.idx)
    (hopr : s'.opr = s.opr) (hargr : s'.argr = s.argr) (hrstat : s'.rstat = s.rstat) (hrdata : s'.rdata = s.rdata) :
    s' = s.within s'.dev s'.host s'.trace := by
  cases s'
  simp_all [State.within]

/-- Settles O47: both steps are the one that CFG, the registers and the answers determine, each in its own surroundings. -/
theorem registersAndAnswersDetermineTheStep : Obligations.RegistersAndAnswersDetermineTheStep := by
  intro i s s' t hcfg hphase hidx hopr hargr hrstat hrdata hlsr hrbr ht
  obtain ⟨ws, es, hstep⟩ := answersDetermine_exec ht
  have here : exec i s = .next (t.within (s.dev.writes ws) s.host (s.trace ++ es)) :=
    hstep s.dev s.host s.trace rfl rfl
  have there : exec i (s.within s'.dev s'.host s'.trace) = _ := hstep s'.dev s'.host s'.trace hlsr hrbr
  rw [← eq_within hcfg hphase hidx hopr hargr hrstat hrdata] at there
  rw [ht] at here
  injection here with here
  exact ⟨_, es, there, congrArg State.trace here, rfl, rfl, rfl, rfl, rfl, rfl, rfl⟩

/-! ## Another offer on the command port (R151) -/

/-- The same state with other acts of the host to come. -/
def State.withActs (acts : List HostAct) (s : State) : State := { s with host := { s.host with acts := acts } }

@[simp] theorem withActs_cfg (acts : List HostAct) (s : State) : (s.withActs acts).cfg = s.cfg := rfl
@[simp] theorem withActs_phase (acts : List HostAct) (s : State) : (s.withActs acts).phase = s.phase := rfl

theorem exec_withActs_next {i : Instr} {s t : State} (acts : List HostAct) (ht : exec i s = .next t) :
    exec i (s.withActs acts) = .next (t.withActs acts) := by
  obtain ⟨ws, es, hstep⟩ := answersDetermine_exec ht
  have here : exec i s = .next (t.within (s.dev.writes ws) s.host (s.trace ++ es)) :=
    hstep s.dev s.host s.trace rfl rfl
  rw [ht] at here
  injection here with here
  rw [here]
  exact hstep s.dev { s.host with acts := acts } s.trace rfl rfl

theorem exec_withActs (i : Instr) (acts : List HostAct) (s : State) :
    exec i (s.withActs acts) = mapNext (State.withActs acts) (exec i s) := by
  cases hx : exec i s with
  | next t => exact exec_withActs_next acts hx
  | fault e => cases e
  | refused r =>
    cases hy : exec i (s.withActs acts) with
    | next t =>
      have back := exec_withActs_next s.host.acts hy
      exact absurd (hx.symm.trans back) (by simp)
    | fault e => cases e
    | refused r' => rw [exec_refused hx, exec_refused hy]; rfl

/-- In INIT, POLL and ACCESS there is no step without a command (log 11). -/
theorem engineStep_no_command {s : State} (hr : s.host.assertsReset = false) (hf : fetch s = none)
    (hp : s.phase = .init ∨ s.phase = .poll ∨ s.phase = .access) : engineStep s = .refused .noSuchStep := by
  obtain hp | hp | hp := hp <;> simp [engineStep, hr, hf, hp]

/-- Outside IDLE the engine hears of the host only a reset or a take. -/
theorem engineStep_withActs {s : State} {acts : List HostAct} (hp : s.phase ≠ .idle)
    (hr : s.host.assertsReset = false) (ht : s.host.takes = false)
    (hr' : (s.withActs acts).host.assertsReset = false) (ht' : (s.withActs acts).host.takes = false) :
    engineStep (s.withActs acts) = mapNext (State.withActs acts) (engineStep s) := by
  have running (hp : s.phase = .init ∨ s.phase = .poll ∨ s.phase = .access) :
      engineStep (s.withActs acts) = mapNext (State.withActs acts) (engineStep s) := by
    have hf : fetch (s.withActs acts) = fetch s := by
      obtain hp | hp | hp := hp <;> simp only [fetch, hr, hr', hp, withActs_phase] <;> rfl
    cases hfs : fetch s with
    | some i => rw [engineStep_of_fetch hr' (hf.trans hfs), engineStep_of_fetch hr hfs, exec_withActs]
    | none => rw [engineStep_no_command hr' (hf.trans hfs) hp, engineStep_no_command hr hfs hp]; rfl
  cases hphase : s.phase with
  | idle => exact absurd hphase hp
  | init => exact running (.inl hphase)
  | poll => exact running (.inr (.inl hphase))
  | access => exact running (.inr (.inr hphase))
  | done => rw [engineStep_done hr' hphase, engineStep_done hr hphase, ht, ht']; rfl

/-- A host that offers a word neither resets nor takes, and outside IDLE it goes on offering (R151). -/
theorem HostSide.offered_waits {h : HostSide} {w : Word} (ho : h.offered = some w) :
    h.assertsReset = false ∧ h.takes = false ∧ ∀ {p : Phase}, p ≠ .idle → h.actsAfter p = h.acts := by
  cases ha : h.acts with
  | nil => simp [HostSide.offered, ha] at ho
  | cons a rest =>
    cases a with
    | wait | take | reset => simp [HostSide.offered, ha] at ho
    | present | presentData =>
      exact ⟨by simp [HostSide.assertsReset, ha], by simp [HostSide.takes, ha],
        fun hp => by simp [HostSide.actsAfter, ha, hp]⟩

/-- Settles O9: without reset and take the offer does not enter the engine's step, and the host goes on offering. -/
theorem offerWaitsWhileBusy : Obligations.OfferWaitsWhileBusy := by
  intro s w hp ho
  obtain ⟨hr, ht, hacts⟩ := HostSide.offered_waits ho
  have hsilent : engineStep (s.withActs []) = mapNext (State.withActs []) (engineStep s) :=
    engineStep_withActs hp hr ht rfl rfl
  change step s = mapNext (State.withActs s.host.acts) (step (s.withActs []))
  unfold step
  rw [hsilent, withActs_cfg]
  split
  · cases engineStep s with
    | next u => exact congrArg Host.Outcome.next (by simp [settle, State.withActs, hacts hp])
    | fault e => cases e
    | refused r => rfl
  · rfl

end Sys2Proof.Machine
end

section
/-! Which step is taken (42_sequencer.md R150, R151, R156, R157): the fetched command's, the accept step, the take step and
the reset step, each as one equation; O6, O7, O10 and O11. -/

namespace Sys2Proof.Machine

/-! ## The fetched command -/

theorem step_of_fetch {s : State} {i : Instr} (hc : s.cfg.ok = true) (hf : fetch s = some i) :
    step s = mapNext (settle s) (exec i s) := by
  obtain ⟨hr, -⟩ := fetch_cases hf
  rw [step_of_ok hc, engineStep_of_fetch hr hf]

theorem fetch_idle {s : State} {w : Word} {i : Instr} (hp : s.phase = .idle) (ho : s.host.offered = some w)
    (hw : decode w = .cmd i) : fetch s = some i := by
  obtain ⟨hr, -⟩ := HostSide.offered_waits ho
  simp [fetch, hr, hp, ho, hw, Decoded.instr?]

theorem fetch_of_latched {s : State} {i : Instr} (hr : s.host.assertsReset = false)
    (hp : s.phase = .poll ∨ s.phase = .access) (hl : latched i s) : fetch s = some i := by
  obtain ⟨hopr, hargr⟩ := hl
  have hi : ofOpcode s.opr s.argr = some i := by rw [hopr, hargr, ofOpcode_self]
  obtain hp | hp := hp
  · exact (fetch_poll hr hp).trans hi
  · exact (fetch_access hr hp).trans hi

theorem decode_of_decodeTableWord {n w : Nat} {i : Instr} (h : decodeTableWord n w = some i) :
    decode (tableWord n w) = .cmd i := by
  unfold decodeTableWord at h
  split at h
  next =>
    cases hd : decode (tableWord n w) with
    | cmd j => rw [hd] at h; cases h; rfl
    | illegal e => rw [hd] at h; cases h
  next => cases h

/-- A word placed for fetching is offered at IDLE, so its command is the one fetched (log 21). -/
theorem fetch_withFetchWord {n w : Nat} {i : Instr} (h : decodeTableWord n w = some i) (s : State) :
    fetch (s.withFetchWord n w) = some i :=
  fetch_idle (w := tableWord n w) rfl rfl (decode_of_decodeTableWord h)

/-- Settles O6, clause by clause: what is fetched in each phase, and the step of what is fetched. -/
theorem stepRunsTheFetchedCommand : Obligations.StepRunsTheFetchedCommand :=
  ⟨fun _ _ hc hf => step_of_fetch hc hf,
    fun _ _ _ hp ho hw => fetch_idle hp ho hw,
    fun s _ hnr hp hl => fetch_of_latched ((assertsReset_eq_false_iff s.host).mpr hnr) hp hl,
    fun s hnr hp => fetch_init ((assertsReset_eq_false_iff s.host).mpr hnr) hp,
    fun s _ _ hc hw => step_of_fetch hc (fetch_withFetchWord hw s),
    fun _ _ => rfl⟩

/-! ## Accept -/

theorem firstPhase_eq (i : Instr) : firstPhase i = if i = .init then .init else .poll := by
  split
  next h => rw [h]; rfl
  next h => exact firstPhase_eq_poll h

/-- Settles O7: the accept step latches the two bytes of the command's word. -/
theorem acceptStartsTheCommand : Obligations.AcceptStartsTheCommand := by
  intro i s hp
  rw [exec_idle hp, ← firstPhase_eq, ← highByte_encode, ← lowByte_encode]
  rfl

/-! ## Take and reset -/

/-- Settles O10: at DONE the engine's step is the take step or nothing. -/
theorem responseHeldUntilTaken : Obligations.ResponseHeldUntilTaken := by
  constructor
  · intro s rest hc hp ha
    have hr : s.host.assertsReset = false := by simp [HostSide.assertsReset, ha]
    have ht : s.host.takes = true := by simp [HostSide.takes, ha]
    exact step_of_engineStep hc ((engineStep_done hr hp).trans (by rw [if_pos ht]; rfl))
  · intro s hc hp hnt hnr
    have hr := (assertsReset_eq_false_iff s.host).mpr hnr
    have ht : s.host.takes = false := by simpa [HostSide.takes] using hnt
    have hwait : engineStep s = .next s := (engineStep_done hr hp).trans (by simp [ht])
    exact ⟨settle s s, step_of_engineStep hc hwait, hp, rfl, rfl, rfl, rfl, rfl, rfl, rfl⟩

/-- Settles O11: a reset comes before the phases. -/
theorem resetStepDropsTheCommand : Obligations.ResetStepDropsTheCommand := by
  intro s rest hc ha
  have hr : s.host.assertsReset = true := by simp [HostSide.assertsReset, ha]
  exact step_of_engineStep hc (engineStep_reset hr)

end Sys2Proof.Machine
end

section
/-! The steps of each command as equations on the whole state (42_sequencer.md R153 to R155, R159, R187): O27, O29, O31,
O32, O33, O39 and O40. -/

namespace Sys2Proof.Machine

/-! ## An access and the event after it -/

theorem respond_log (st d : Byte) (e : Event) (s : State) :
    respond st d (log e s) =
      { s with phase := .done, rstat := st, rdata := d, trace := s.trace ++ [e, .resp st d] } := by
  simp [respond, log]

theorem hint_log (e : Event) (s : State) : hint (log e s) = { s with trace := s.trace ++ [e, .hint] } := by
  simp [hint, log]

theorem respond_regWrite (st d : Byte) (i : RegIndex) (v : Byte) (s : State) :
    respond st d (regWrite i v s) =
      { s with phase := .done, rstat := st, rdata := d, dev := s.dev.write i v,
               trace := s.trace ++ [writeEvent s.cfg i v, .resp st d] } :=
  respond_log st d _ { s with dev := s.dev.write i v }

/-! ## INIT -/

/-- Settles O27: rows 0 to 6 lead to the next row, row 7 to the response. -/
theorem initStepWritesItsRow : Obligations.InitStepWritesItsRow := by
  intro s hp
  refine ⟨fun hlt => ?_, fun h7 => ?_⟩ <;> rw [exec_init_init hp]
  · rw [initStep_of_lt hlt]
    rfl
  · rw [initStep_of_last (by simp [h7]), respond_regWrite, h7]
    rfl

/-! ## Poll steps -/

/-- Settles O29: the poll step of LSTS responds with the byte it reads. -/
theorem lstsAnswersTheByteRead : Obligations.LstsAnswersTheByteRead := by
  intro s hp
  rw [exec_of_pollOf (i := .lsts) hp (pollStatus_eq s).symm, respond_log]

/-- A blocking transfer command that reads its readiness bit as clear hints and polls again (R154, R158). -/
theorem pollOf_hint_of_not_ready {i : Instr} {s : State} (hi : i.opcode = 0x10 ∨ i.opcode = 0x11 ∨ i.opcode = 0x20)
    (hr : readyFor s.cfg i.opcode s.dev.lsr = false) :
    pollOf i s (hint (log (readEvent s.cfg .lsr s.dev.lsr) s)) := by
  cases i with
  | init | lsts | tsendr | trecv => simp [Instr.opcode, Instr.mnemonic, Mnemonic.opcode] at hi
  | send | sendr | recv => exact (pollTransfer_of_not_ready hr).symm

section
variable {s : State} {i : Instr}

theorem exec_poll_ready (hp : s.phase = .poll) (hi : isTransmit i.opcode = true ∨ isReceive i.opcode = true)
    (hr : readyFor s.cfg i.opcode s.dev.lsr = true) :
    exec i s = .next { s with phase := .access, trace := s.trace ++ [readEvent s.cfg .lsr s.dev.lsr] } :=
  exec_of_pollOf hp (pollOf_of_ready hi hr)

theorem exec_poll_hint (hp : s.phase = .poll) (hi : i.opcode = 0x10 ∨ i.opcode = 0x11 ∨ i.opcode = 0x20)
    (hr : readyFor s.cfg i.opcode s.dev.lsr = false) :
    exec i s = .next { s with trace := s.trace ++ [readEvent s.cfg .lsr s.dev.lsr, .hint] } := by
  rw [exec_of_pollOf hp (pollOf_hint_of_not_ready hi hr), hint_log]

theorem exec_poll_wouldBlock (hp : s.phase = .poll) (hi : i.opcode = 0x13 ∨ i.opcode = 0x22)
    (hr : readyFor s.cfg i.opcode s.dev.lsr = false) :
    exec i s = .next { s with
      phase := .done, rstat := 0x01, rdata := 0x00,
      trace := s.trace ++ [readEvent s.cfg .lsr s.dev.lsr, .resp 0x01 0x00] } := by
  rw [exec_of_pollOf hp (pollOf_of_not_ready hi hr)]
  exact congrArg _ (respond_log 0x01 0x00 _ s)

end

/-- Settles O31: the bit is OUTPUT_EMPTY, and it alone decides. -/
theorem transmitPollStep : Obligations.TransmitPollStep := by
  intro s b hp
  refine ⟨fun hr i hi => ?_, fun hr => ⟨fun i hi => ?_, exec_poll_wouldBlock (i := .tsendr b) hp (.inl rfl) hr⟩⟩
  · simp only [List.mem_cons, List.not_mem_nil, or_false] at hi
    obtain rfl | rfl | rfl := hi <;> exact exec_poll_ready hp (.inl rfl) hr
  · simp only [List.mem_cons, List.not_mem_nil, or_false] at hi
    obtain rfl | rfl := hi
    · exact exec_poll_hint hp (.inl rfl) hr
    · exact exec_poll_hint hp (.inr (.inl rfl)) hr

/-- Settles O39: the bit is DATA_READY, and it alone decides. -/
theorem receivePollStep : Obligations.ReceivePollStep := by
  intro s hp
  refine ⟨fun hr i hi => ?_, fun hr => ⟨exec_poll_hint (i := .recv) hp (.inr (.inr rfl)) hr,
    exec_poll_wouldBlock (i := .trecv) hp (.inr rfl) hr⟩⟩
  simp only [List.mem_cons, List.not_mem_nil, or_false] at hi
  obtain rfl | rfl := hi <;> exact exec_poll_ready hp (.inr rfl) hr

/-! ## Access steps -/

section
variable {s : State} {i : Instr} {b : Byte} {k : BitVec 3}

/-- A raw send that is not the last: one write of its byte, and the next poll loop. -/
theorem exec_access_write_lt (hp : s.phase = .access) (hl : latched i s) (hidx : s.idx = k)
    (hi : isTransmit i.opcode = true) (hb : txByte i.opcode i.operand k = some b)
    (hk : k.toNat + 1 < txCount i.opcode i.operand) :
    exec i s = .next { s with
      idx := k + 1, phase := .poll,
      dev := if s.dev.lcr.getLsbD 7 then { s.dev with dll := b } else { s.dev with thr := b },
      trace := s.trace ++ [writeEvent s.cfg .data b] } := by
  obtain rfl := hidx
  obtain ⟨hopr, hargr⟩ := hl
  rw [← hopr, ← hargr] at hb hk
  exact (exec_access_of_isTransmit hp hi).trans (accessTransmit_of_lt hb hk)

/-- The last raw send: one write of its byte, and (OK, 0x00). -/
theorem exec_access_write_last (hp : s.phase = .access) (hl : latched i s) (hidx : s.idx = k)
    (hi : isTransmit i.opcode = true) (hb : txByte i.opcode i.operand k = some b)
    (hk : ¬ k.toNat + 1 < txCount i.opcode i.operand) :
    exec i s = .next { s with
      phase := .done, rstat := 0x00, rdata := 0x00,
      dev := if s.dev.lcr.getLsbD 7 then { s.dev with dll := b } else { s.dev with thr := b },
      trace := s.trace ++ [writeEvent s.cfg .data b, .resp 0x00 0x00] } := by
  obtain rfl := hidx
  obtain ⟨hopr, hargr⟩ := hl
  rw [← hopr, ← hargr] at hb hk
  rw [exec_access_of_isTransmit hp hi, accessTransmit_of_last hb hk, respond_regWrite]
  rfl

theorem exec_access_write_once (hp : s.phase = .access) (hl : latched i s) (hi : isTransmit i.opcode = true)
    (hx : expands i.opcode i.operand = false) :
    exec i s = .next { s with
      phase := .done, rstat := 0x00, rdata := 0x00,
      dev := if s.dev.lcr.getLsbD 7 then { s.dev with dll := i.operand } else { s.dev with thr := i.operand },
      trace := s.trace ++ [writeEvent s.cfg .data i.operand, .resp 0x00 0x00] } :=
  exec_access_write_last hp hl rfl hi (txByte_of_not_expands hx s.idx) (by simp [txCount_of_not_expands hx])

end

/-- Settles O32: none of the three commands expands. -/
theorem transmitWritesTheByteOnce : Obligations.TransmitWritesTheByteOnce := by
  intro s b i hp hl hi
  obtain rfl | rfl | ⟨rfl, h08, h7F, -⟩ := hi
  · exact exec_access_write_once hp hl rfl rfl
  · exact exec_access_write_once hp hl rfl rfl
  · exact exec_access_write_once hp hl rfl (expands_send_eq_false h08 h7F)

/-- Settles O33: the three bytes of the erase sequence by IDX, of which the third is the last. -/
theorem sendEraseWritesThreeBytes : Obligations.SendEraseWritesThreeBytes := by
  intro s b hp hl hb
  have hx : expands (Instr.send b).opcode (Instr.send b).operand = true := expands_send_eq_true hb
  have hcount := txCount_of_expands hx
  have hbyte := txByte_of_expands hx
  exact ⟨fun h0 => exec_access_write_lt hp hl h0 rfl (hbyte 0) (by rw [hcount]; decide),
    fun h1 => exec_access_write_lt hp hl h1 rfl (hbyte 1) (by rw [hcount]; decide),
    fun h2 => exec_access_write_last hp hl h2 rfl (hbyte 2) (by rw [hcount]; decide)⟩

/-- Settles O40: the access step of a receive command responds with the byte it reads. -/
theorem receiveAnswersTheByteRead : Obligations.ReceiveAnswersTheByteRead := by
  intro s hp i hi
  have hrx : isReceive i.opcode = true := by
    simp only [List.mem_cons, List.not_mem_nil, or_false] at hi
    obtain rfl | rfl := hi <;> rfl
  rw [exec_access_of_isReceive hp hrx, accessReceive_eq, respond_log]

end Sys2Proof.Machine
end

section
/-! How long a command runs (42_sequencer.md R154, R161; 20_memory.md R66), whatever the host does but reset: the bounded
commands, the poll loop of the blocking ones and the way out of it; O53, O54 and O55. -/

namespace Sys2Proof.Machine

/-! ## One step of a command, and the steps after it -/

theorem step_of_exec {s u : State} {i : Instr} (hc : s.cfg.ok = true) (hf : fetch s = some i) (he : exec i s = .next u) :
    step s = .next (settle s u) := by
  rw [step_of_fetch hc hf, he]
  rfl

theorem steps_succ_of_step {s t : State} (h : step s = .next t) (n : Nat) : steps (n + 1) s = steps n t := by
  simp [steps, h]

theorem noReset_settle {s : State} {n : Nat} (hn : .reset ∉ s.host.acts.take (n + 1)) (u : State) :
    .reset ∉ (settle s u).host.acts.take n :=
  HostSide.noReset_actsAfter s.phase hn

/-! ## INIT -/

/-- From row k on, INIT takes the 8 - k steps that are left of its table (R153). -/
theorem init_terminates (n : Nat) (s : State) (hc : s.cfg.ok = true) (hp : s.phase = .init)
    (hk : s.idx.toNat + n = 7) (hn : .reset ∉ s.host.acts.take (n + 1)) :
    ∃ t, steps (n + 1) s = .next t ∧ t.phase = .done := by
  induction n generalizing s with
  | zero =>
    have he := (exec_init_init hp).trans (congrArg _ (initStep_of_last (by omega)))
    have hstep := step_of_exec hc (fetch_init (HostSide.assertsReset_eq_false hn) hp) he
    exact ⟨_, steps_succ_of_step hstep 0, rfl⟩
  | succ n ih =>
    have he := (exec_init_init hp).trans (congrArg _ (initStep_of_lt (by omega)))
    have hstep := step_of_exec hc (fetch_init (HostSide.assertsReset_eq_false hn) hp) he
    have hk' : (s.idx + 1).toNat + n = 7 := by bv_omega
    rw [steps_succ_of_step hstep]
    exact ih _ hc hp hk' (noReset_settle hn _)

section
variable {s : State} {i : Instr} {n : Nat}

/-! ## A ready poll, which leaves POLL -/

/-- The state after a ready poll of a transfer command. -/
def afterReady (s : State) : State :=
  settle s { s with phase := .access, trace := s.trace ++ [readEvent s.cfg .lsr s.dev.lsr] }

theorem step_ready (hc : s.cfg.ok = true) (hp : s.phase = .poll) (hr : s.host.assertsReset = false) (hl : latched i s)
    (hi : isTransmit i.opcode = true ∨ isReceive i.opcode = true) (hready : readyFor s.cfg i.opcode s.dev.lsr = true) :
    step s = .next (afterReady s) :=
  step_of_exec hc (fetch_of_latched hr (.inl hp) hl) (exec_poll_ready hp hi hready)

/-! ## LSTS and the non-blocking transfers -/

theorem lsts_terminates (hc : s.cfg.ok = true) (hp : s.phase = .poll) (hr : s.host.assertsReset = false)
    (hl : latched .lsts s) : ∃ t, steps 1 s = .next t ∧ t.phase = .done :=
  ⟨_, steps_succ_of_step (step_of_exec hc (fetch_of_latched hr (.inl hp) hl) (lstsAnswersTheByteRead s hp)) 0, rfl⟩

/-- The access step of a command that does not expand ends it (R155). -/
theorem access_terminates (hc : s.cfg.ok = true) (hp : s.phase = .access) (hr : s.host.assertsReset = false)
    (hl : latched i s) (hi : isTransmit i.opcode = true ∨ isReceive i.opcode = true)
    (hx : expands i.opcode i.operand = false) : ∃ t, steps 1 s = .next t ∧ t.phase = .done := by
  have hf := fetch_of_latched hr (.inr hp) hl
  obtain hi | hi := hi
  · exact ⟨_, steps_succ_of_step (step_of_exec hc hf (exec_access_write_once hp hl hi hx)) 0, rfl⟩
  · exact ⟨_, steps_succ_of_step (step_of_exec hc hf (exec_access_of_isReceive hp hi)) 0, rfl⟩

/-- TSENDR and TRECV answer at their one poll, or at the access it leads to (60_exceptions.md R211). -/
theorem nonblocking_terminates (hc : s.cfg.ok = true) (hp : s.phase = .poll) (hn : .reset ∉ s.host.acts.take 2)
    (hl : latched i s) (hi : i.opcode = 0x13 ∨ i.opcode = 0x22) :
    ∃ k t, k ≤ 2 ∧ steps k s = .next t ∧ t.phase = .done := by
  have hreset := HostSide.assertsReset_eq_false hn
  cases hr : readyFor s.cfg i.opcode s.dev.lsr with
  | true =>
    have hdir : isTransmit i.opcode = true ∨ isReceive i.opcode = true := by
      obtain e | e := hi <;> simp [e, isTransmit, isReceive]
    have hx : expands i.opcode i.operand = false := by
      obtain e | e := hi <;> rw [e] <;> rfl
    have hstep := step_ready hc hp hreset hl hdir hr
    have hreset' : (afterReady s).host.assertsReset = false := HostSide.assertsReset_eq_false (noReset_settle hn _)
    obtain ⟨t, ht, hdone⟩ := access_terminates (s := afterReady s) hc rfl hreset' hl hdir hx
    exact ⟨2, t, le_rfl, (steps_succ_of_step hstep 1).trans ht, hdone⟩
  | false =>
    have hstep := step_of_exec hc (fetch_of_latched hreset (.inl hp) hl) (exec_poll_wouldBlock hp hi hr)
    exact ⟨1, _, by omega, steps_succ_of_step hstep 0, rfl⟩

/-! ## The poll loop of the blocking transfers -/

/-- The state after a not-ready poll of a blocking command. -/
def afterSpin (s : State) : State :=
  settle s { s with trace := s.trace ++ [readEvent s.cfg .lsr s.dev.lsr, .hint] }

theorem step_spin (hc : s.cfg.ok = true) (hp : s.phase = .poll) (hr : s.host.assertsReset = false) (hl : latched i s)
    (hi : i.opcode = 0x10 ∨ i.opcode = 0x11 ∨ i.opcode = 0x20) (hnot : readyFor s.cfg i.opcode s.dev.lsr = false) :
    step s = .next (afterSpin s) :=
  step_of_exec hc (fetch_of_latched hr (.inl hp) hl) (exec_poll_hint hp hi hnot)

/-- After the device's move the next poll reads the next planned answer. -/
theorem take_lsrAnswers_of_move {t : State} (hd : t.dev = s.dev.move) (hn : n + 1 ≤ (lsrAnswers s).length) :
    n ≤ (lsrAnswers t).length ∧ (lsrAnswers s).take (n + 1) = s.dev.lsr :: (lsrAnswers t).take n := by
  cases n with
  | zero => simp [lsrAnswers]
  | succ n =>
    cases hm : s.dev.moves with
    | nil => simp [lsrAnswers, hm] at hn
    | cons m ms =>
      rw [Device.move_planned hm] at hd
      simpa [lsrAnswers, hd, hm] using hn

theorem spin (hi : i.opcode = 0x10 ∨ i.opcode = 0x11 ∨ i.opcode = 0x20) (n : Nat) (s : State) (hc : s.cfg.ok = true)
    (hp : s.phase = .poll) (hn : .reset ∉ s.host.acts.take n) (hl : latched i s) (hlen : n ≤ (lsrAnswers s).length)
    (hnot : ∀ v ∈ (lsrAnswers s).take n, readyFor s.cfg i.opcode v = false) :
    ∃ t, steps n s = .next t ∧ t.phase = .poll ∧ t.idx = s.idx ∧ t.opr = s.opr ∧ t.argr = s.argr ∧
      t.rstat = s.rstat ∧ t.rdata = s.rdata ∧ t.trace = s.trace ++ spinEvents s.cfg ((lsrAnswers s).take n) := by
  induction n generalizing s with
  | zero => exact ⟨s, rfl, hp, rfl, rfl, rfl, rfl, rfl, by simp⟩
  | succ n ih =>
    have hstep := step_spin hc hp (HostSide.assertsReset_eq_false hn) hl hi (hnot s.dev.lsr (by simp [lsrAnswers]))
    obtain ⟨hlen', htake⟩ := take_lsrAnswers_of_move (s := s) (t := afterSpin s) rfl hlen
    rw [htake] at hnot ⊢
    obtain ⟨t, ht, hphase, hidx, hopr, hargr, hrstat, hrdata, htr⟩ :=
      ih (afterSpin s) hc hp (noReset_settle hn _) hl hlen' fun v hv => hnot v (List.mem_cons_of_mem _ hv)
    exact ⟨t, (steps_succ_of_step hstep n).trans ht, hphase, hidx, hopr, hargr, hrstat, hrdata,
      htr.trans (List.append_assoc _ [_, _] _)⟩

/-- Where one of the answers to come has the bit set, the poll loop ends at the first one that has (R161). -/
theorem spin_leaves (hi : i.opcode = 0x10 ∨ i.opcode = 0x11 ∨ i.opcode = 0x20) (ms : List DeviceMove) (s : State)
    (hms : s.dev.moves = ms) (hc : s.cfg.ok = true) (hp : s.phase = .poll)
    (hn : .reset ∉ s.host.acts.take (ms.length + 1)) (hl : latched i s)
    (hlive : ∃ v ∈ lsrAnswers s, readyFor s.cfg i.opcode v = true) :
    ∃ k t, k ≤ ms.length + 1 ∧ steps k s = .next t ∧ t.phase = .access := by
  have hdir : isTransmit i.opcode = true ∨ isReceive i.opcode = true := by
    obtain e | e | e := hi <;> simp [e, isTransmit, isReceive]
  induction ms generalizing s with
  | nil =>
    have hready : readyFor s.cfg i.opcode s.dev.lsr = true := by simpa [lsrAnswers, hms] using hlive
    have hstep := step_ready hc hp (HostSide.assertsReset_eq_false hn) hl hdir hready
    exact ⟨1, _, by omega, steps_succ_of_step hstep 0, rfl⟩
  | cons m ms ih =>
    have hr := HostSide.assertsReset_eq_false hn
    cases hready : readyFor s.cfg i.opcode s.dev.lsr with
    | true =>
      exact ⟨1, _, by omega, steps_succ_of_step (step_ready hc hp hr hl hdir hready) 0, rfl⟩
    | false =>
      have hdev : (afterSpin s).dev = _ := Device.move_planned hms
      have hlive' : ∃ v ∈ lsrAnswers (afterSpin s), readyFor s.cfg i.opcode v = true := by
        simpa [lsrAnswers, hms, hdev, hready] using hlive
      obtain ⟨k, t, hk, ht, hacc⟩ :=
        ih (afterSpin s) (congrArg Device.moves hdev) hc hp (noReset_settle hn _) hl hlive'
      exact ⟨k + 1, t, by simpa using hk, (steps_succ_of_step (step_spin hc hp hr hl hi hready) k).trans ht, hacc⟩

end

/-- Settles O53: INIT by its eight rows, LSTS by its one poll, TSENDR and TRECV by one poll and one access. -/
theorem boundedCommandsTerminate : Obligations.BoundedCommandsTerminate := by
  intro s i bound hc hn hl hidx hi
  obtain ⟨rfl, hp, rfl⟩ | ⟨rfl, hp, rfl⟩ | ⟨⟨b, rfl⟩, hp, rfl⟩ | ⟨rfl, hp, rfl⟩ := hi
  · exact ⟨8, (init_terminates 7 s hc hp (by simp [hidx]) hn).imp fun t ht => ⟨le_rfl, ht⟩⟩
  · exact ⟨1, (lsts_terminates hc hp (HostSide.assertsReset_eq_false hn) hl).imp fun t ht => ⟨le_rfl, ht⟩⟩
  · exact nonblocking_terminates hc hp hn hl (.inl rfl)
  · exact nonblocking_terminates hc hp hn hl (.inr rfl)

/-- The blocking commands by their opcodes. -/
theorem opcode_of_blocking {i : Instr} {b : Byte} (hi : i = .send b ∨ i = .sendr b ∨ i = .recv) :
    i.opcode = 0x10 ∨ i.opcode = 0x11 ∨ i.opcode = 0x20 := by
  obtain rfl | rfl | rfl := hi
  · exact .inl rfl
  · exact .inr (.inl rfl)
  · exact .inr (.inr rfl)

/-- Settles O54: one not-ready poll after another. -/
theorem blockingCommandSpins : Obligations.BlockingCommandSpins := by
  intro s i b n hc hp hn hl hi hlen hnot
  exact spin (opcode_of_blocking hi) n s hc hp hn hl hlen (hl.1 ▸ hnot)

theorem length_lsrAnswers (s : State) : (lsrAnswers s).length = s.dev.moves.length + 1 := by
  simp [lsrAnswers]

/-- Settles O55: the liveness premise of the command's direction is that one of its answers has its bit set. -/
theorem blockingCommandLeavesPollWhenLive : Obligations.BlockingCommandLeavesPollWhenLive := by
  intro s i b hc hp hn hl hi
  rw [length_lsrAnswers] at hn ⊢
  obtain ⟨rfl | rfl, hlive⟩ | ⟨rfl, hlive⟩ := hi
  · exact spin_leaves (.inl rfl) _ s rfl hc hp hn hl hlive
  · exact spin_leaves (.inr (.inl rfl)) _ s rfl hc hp hn hl hlive
  · exact spin_leaves (.inr (.inr rfl)) _ s rfl hc hp hn hl hlive

end Sys2Proof.Machine
end

section
/-! INIT as a whole (43_init.md R170 to R172): the rows left of the bring-up table, step by step, and the registers that the
eight writes leave, whatever the device held before and answers in between; O26 and O28. -/

namespace Sys2Proof.Machine

/-- Settles O26: `initRow`, row by row. -/
theorem bringUpTable : Obligations.BringUpTable := ⟨rfl, rfl, rfl, rfl, rfl, rfl, rfl, rfl⟩

/-! ## The registers as written -/

/-- What was last written to the device's registers (10_state.md R41): the device without what it answers now and later. -/
def Device.written (d : Device) : Device := { d with lsr := 0, rbr := 0, moves := [], tick := 0 }

@[simp] theorem Device.written_move (d : Device) : d.move.written = d.written := by
  unfold Device.move
  cases d.moves <;> rfl

@[simp] theorem Device.written_write (d : Device) (i : RegIndex) (v : Byte) :
    (d.write i v).written = d.written.write i v := by
  cases i with
  | data | ier => exact apply_ite Device.written (d.dlab = true) _ _
  | fcr | lcr | mcr | lsr => rfl

@[simp] theorem Device.writes_nil (d : Device) : d.writes [] = d := rfl
@[simp] theorem Device.writes_cons (d : Device) (w : RegIndex × Byte) (ws : List (RegIndex × Byte)) :
    d.writes (w :: ws) = (d.write w.1 w.2).writes ws := rfl

/-- Rows 1 and 4 set and clear DLAB, so rows 2 and 3 write the divisor. Row 0 writes IER or the divisor's high byte, as DLAB
was before INIT, and rows 3 and 7 write both again. -/
theorem Device.writes_bringUpRows (d : Device) :
    d.writes bringUpRows =
      { d with ier := 0x01, fcr := 0xC7, lcr := 0x03, mcr := 0x0B, dll := 0x03, dlm := 0x00 } := by
  cases h : d.lcr[7] with
  | false | true => simp [bringUpRows, Device.write, Device.dlab, lcrDlab, h]

/-! ## The run -/

/-- From row k on, INIT writes the rest of the table in n + 1 steps, and responds in the last of them. -/
theorem Executing.steps_init {c : Cfg} {h : HostSide} (hc : c.ok = true) (hw : h.Waiting) (n : Nat) (k : BitVec 3)
    (s : State) (hs : Executing .init .init k c h s) (hk : k.toNat + n = 7) :
    ∃ t, (∀ m, steps (m + (n + 1)) s = steps m t) ∧ Responding 0x00 0x00 c h t ∧
      t.dev.written = s.dev.written.writes (bringUpRows.drop k.toNat) ∧
      t.trace = s.trace ++
        ((bringUpRows.drop k.toNat).map (fun row => writeEvent c row.1 row.2) ++ [.resp 0x00 0x00]) := by
  induction n generalizing k s with
  | zero =>
    obtain ⟨t, ha, ht⟩ := hs.initStep_last hc hw (by omega)
    have hrest : bringUpRows.drop (k.toNat + 1) = [] := by rw [show k.toNat = 7 from hk]; rfl
    refine ⟨t, fun m => steps_succ_of_step ha.step m, ht, ?_, ?_⟩
    · simp [ha.dev, drop_bringUpRows k, hrest]
    · simp [ha.trace, drop_bringUpRows k, hrest]
  | succ n ih =>
    obtain ⟨u, ha, hu⟩ := hs.initStep_lt hc hw (by omega)
    have hk1 : (k + 1).toNat = k.toNat + 1 := by bv_omega
    obtain ⟨t, hrun, ht, hdev, htrace⟩ := ih (k + 1) u hu (by omega)
    rw [hk1] at hdev htrace
    refine ⟨t, fun m => (steps_succ_of_step ha.step (m + (n + 1))).trans (hrun m), ht, ?_, ?_⟩
    · simp [hdev, ha.dev, drop_bringUpRows k]
    · simp [htrace, ha.trace, drop_bringUpRows k]

/-- Settles O28: the accept step, the eight rows of the table, and the take step; only the rows write. -/
theorem initBringsUpTheDevice : Obligations.InitBringsUpTheDevice := by
  intro s rest hc hp ha
  obtain ⟨t1, haccept, ht1⟩ := (at_idle hp ha).accept (i := .init) hc
  obtain ⟨t2, hinit, ht2, hdev, htrace⟩ := Executing.steps_init hc (.inr ⟨rest, rfl⟩) 7 0 t1 ht1 rfl
  obtain ⟨t, htake, ht⟩ := ht2.take hc
  have hrun : steps 10 s = .next t :=
    calc steps 10 s = steps 9 t1 := steps_succ_of_step haccept.step 9
      _ = steps 1 t2 := hinit 1
      _ = .next t := steps_succ_of_step htake.step 0
  have htrace' : t.trace = s.trace ++ (.cmd 0x0100 ::
      (bringUpRows.map (fun row => writeEvent s.cfg row.1 row.2) ++ [.resp 0x00 0x00])) := by
    rw [htake.trace, htrace, haccept.trace, List.append_nil, List.append_assoc]
    rfl
  have hwritten : t.dev.written = s.dev.written.writes bringUpRows := by
    rw [htake.dev, Device.written_move, hdev, haccept.dev, Device.written_move]
    rfl
  rw [Device.writes_bringUpRows] at hwritten
  injection hwritten with _ _ hthr hier hfcr hlcr hmcr hdll hdlm
  exact ⟨t, hrun, ht.phase, ht.acts_eq, ht.taken_eq, htrace', hier, hlcr, hdll, hdlm, hfcr, hmcr, hthr⟩

end Sys2Proof.Machine
end

section
/-! LSTS as a whole (44_line_status.md R180): O30. -/

namespace Sys2Proof.Machine

/-- Settles O30: the accept step, the poll step, which reads what the device holds after its move at the accept step, and
the take step. -/
theorem lstsMakesOneRead : Obligations.LstsMakesOneRead := by
  intro s v rest hc hp ha hv
  subst hv
  obtain ⟨t1, haccept, ht1⟩ := (at_idle hp ha).accept (i := .lsts) hc
  obtain ⟨t2, hpoll, ht2⟩ := ht1.poll_lsts hc (.inr ⟨rest, rfl⟩)
  obtain ⟨t, htake, ht⟩ := ht2.take hc
  rw [haccept.dev] at hpoll ht
  have hrun : steps 3 s = .next t :=
    calc steps 3 s = steps 2 t1 := steps_succ_of_step haccept.step 2
      _ = steps 1 t2 := steps_succ_of_step hpoll.step 1
      _ = .next t := steps_succ_of_step htake.step 0
  have htrace : t.trace =
      s.trace ++ [.cmd 0x0200, readEvent s.cfg .lsr s.dev.move.lsr, .resp 0x00 s.dev.move.lsr] := by
    rw [htake.trace, hpoll.trace, haccept.trace, List.append_nil, List.append_assoc]
    rfl
  exact ⟨t, hrun, ht.phase, ht.acts_eq, ht.taken_eq, htrace⟩

end Sys2Proof.Machine
end

section
/-! Runs with the events they add (42_sequencer.md R154 to R156): the poll loop, the accesses and the response of a
transfer command, for a device whose moves are planned. -/

namespace Sys2Proof.Machine

/-! ## Runs -/

/-- k steps lead from s to t and add the events es. -/
structure Runs (k : Nat) (s t : State) (es : List Event) : Prop where
  steps : steps k s = .next t
  trace : t.trace = s.trace ++ es

theorem steps_add {k : Nat} {s t : State} (h : steps k s = .next t) (n : Nat) : steps (k + n) s = steps n t := by
  induction k generalizing s with
  | zero => cases h; rw [Nat.zero_add]
  | succ k ih =>
    cases hs : step s with
    | next u =>
      rw [steps_succ_of_step hs] at h
      rw [Nat.succ_add, steps_succ_of_step hs]
      exact ih h
    | fault e => cases e
    | refused r => simp [Machine.steps, hs] at h

theorem Runs.refl (s : State) : Runs 0 s s [] := ⟨rfl, (List.append_nil _).symm⟩

theorem Runs.append {k n : Nat} {s t u : State} {es fs : List Event} (h : Runs k s t es) (hr : Runs n t u fs) :
    Runs (k + n) s u (es ++ fs) :=
  ⟨(steps_add h.steps n).trans hr.steps, by rw [hr.trace, h.trace, List.append_assoc]⟩

/-- A run whose first step is known. -/
theorem Advances.runs {k : Nat} {s t u : State} {d : Device} {es fs : List Event} (h : Advances s t d es)
    (hr : Runs k t u fs) : Runs (k + 1) s u (es ++ fs) :=
  ⟨(steps_succ_of_step h.step k).trans hr.steps, by rw [hr.trace, h.trace, List.append_assoc]⟩

/-! ## The device's plan -/

/-- The device has just moved, and its plan before that move was `plan`. -/
def Moved (plan : List DeviceMove) (s : State) : Prop := ∃ d : Device, d.moves = plan ∧ s.dev = d.move

theorem Advances.moved {s t : State} {d : Device} {es : List Event} (h : Advances s t d es) : Moved d.moves t :=
  ⟨d, rfl, h.dev⟩

section
variable {m : DeviceMove} {ms plan : List DeviceMove} {s : State}

theorem Moved.lsr (h : Moved (m :: ms) s) : s.dev.lsr = m.lsr := by
  obtain ⟨d, hd, hs⟩ := h
  rw [hs, Device.move_planned hd]

theorem Moved.rbr (h : Moved (m :: ms) s) : s.dev.rbr = m.rbr := by
  obtain ⟨d, hd, hs⟩ := h
  rw [hs, Device.move_planned hd]

theorem Moved.moves (h : Moved plan s) : s.dev.moves = plan.tail := by
  obtain ⟨d, rfl, hs⟩ := h
  rw [hs, Device.move_moves, List.drop_one]

/-- A step that writes nothing goes on in the plan. -/
theorem Moved.advances {t : State} {es : List Event} (h : Moved (m :: ms) s) (ha : Advances s t s.dev es) :
    Moved ms t := by
  have hms : s.dev.moves = ms := h.moves
  exact hms ▸ ha.moved

end

/-! ## The poll loop -/

section
variable {i : Instr} {k : BitVec 3} {c : Cfg} {h : HostSide} {s : State} {n ms : List DeviceMove} {r : DeviceMove}
  {b : Byte} {rest : List HostAct} {taken : List Word}

theorem Executing.poll_hint (hc : c.ok = true) (hs : Executing i .poll k c h s) (hw : h.Waiting)
    (hi : i.opcode = 0x10 ∨ i.opcode = 0x11 ∨ i.opcode = 0x20) (hr : readyFor c i.opcode s.dev.lsr = false) :
    ∃ t, Advances s t s.dev [readEvent c .lsr s.dev.lsr, .hint] ∧ Executing i .poll k c h t := by
  obtain rfl := hs.cfg
  have he := exec_of_pollOf hs.phase (pollOf_hint_of_not_ready hi hr)
  obtain ⟨ha, hat⟩ := hs.step_of_exec hc (.inr (.inl rfl)) hw he hs.phase rfl rfl (List.append_assoc _ [_] [_])
  exact ⟨_, ha, hat, hs.latched, hs.idx⟩

/-- Every blocking command makes a transfer. -/
theorem isTransfer_of_blocking (hi : i.opcode = 0x10 ∨ i.opcode = 0x11 ∨ i.opcode = 0x20) :
    isTransmit i.opcode = true ∨ isReceive i.opcode = true := by
  obtain e | e | e := hi <;> simp [e, isTransmit, isReceive]

/-- So does every non-blocking one. -/
theorem isTransfer_of_nonblocking (hi : i.opcode = 0x13 ∨ i.opcode = 0x22) :
    isTransmit i.opcode = true ∨ isReceive i.opcode = true := by
  obtain e | e := hi <;> simp [e, isTransmit, isReceive]

/-- The poll loop of a blocking command: the polls n that find the bit clear, and the poll r that finds it set. -/
theorem Executing.runs_to_access (hc : c.ok = true) (hs : Executing i .poll k c h s) (hw : h.Waiting)
    (hi : i.opcode = 0x10 ∨ i.opcode = 0x11 ∨ i.opcode = 0x20) (hm : Moved (n ++ r :: ms) s)
    (hn : ∀ m ∈ n, readyFor c i.opcode m.lsr = false) (hr : readyFor c i.opcode r.lsr = true) :
    ∃ t, Runs (n.length + 1) s t (spinEvents c (n.map (·.lsr)) ++ [readEvent c .lsr r.lsr]) ∧
      Executing i .access k c h t ∧ Moved ms t := by
  induction n generalizing s with
  | nil =>
    obtain ⟨t, ha, ht⟩ := hs.poll_ready hc hw (isTransfer_of_blocking hi) (hm.lsr ▸ hr)
    rw [hm.lsr] at ha
    exact ⟨t, ha.runs (.refl t), ht, hm.advances ha⟩
  | cons m n ih =>
    obtain ⟨u, ha, hu⟩ := hs.poll_hint hc hw hi (hm.lsr ▸ hn m (by simp))
    rw [hm.lsr] at ha
    obtain ⟨t, hrun, ht, hmt⟩ := ih hu (hm.advances ha) fun m' hm' => hn m' (List.mem_cons_of_mem _ hm')
    exact ⟨t, ha.runs hrun, ht, hmt⟩

/-! ## The last access and the response, taken at once -/

theorem Executing.runs_last_write (hc : c.ok = true) (hs : Executing i .access k c ⟨.take :: rest, taken⟩ s)
    (hi : isTransmit i.opcode = true) (hb : txByte i.opcode i.operand k = some b)
    (hk : ¬ k.toNat + 1 < txCount i.opcode i.operand) :
    ∃ t, Runs 2 s t [writeEvent c .data b, .resp 0x00 0x00] ∧ At .idle c ⟨rest, taken ++ [0x0000]⟩ t ∧
      t.dev.moves = s.dev.moves.drop 2 := by
  obtain ⟨u, ha, hu⟩ := hs.access_write_last hc (.inr ⟨rest, rfl⟩) hi hb hk
  obtain ⟨t, htake, ht⟩ := hu.take hc
  exact ⟨t, ha.runs (htake.runs (.refl t)), ht, by simp [htake.dev, ha.dev, Device.move_moves]⟩

theorem Executing.runs_only_write (hc : c.ok = true) (hs : Executing i .access k c ⟨.take :: rest, taken⟩ s)
    (hi : isTransmit i.opcode = true) (hx : expands i.opcode i.operand = false) :
    ∃ t, Runs 2 s t [writeEvent c .data i.operand, .resp 0x00 0x00] ∧ At .idle c ⟨rest, taken ++ [0x0000]⟩ t ∧
      t.dev.moves = s.dev.moves.drop 2 :=
  hs.runs_last_write hc hi (txByte_of_not_expands hx k) (by simp [txCount_of_not_expands hx])

theorem Executing.runs_read (hc : c.ok = true) (hs : Executing i .access k c ⟨.take :: rest, taken⟩ s)
    (hi : isReceive i.opcode = true) :
    ∃ t, Runs 2 s t [readEvent c .data s.dev.rbr, .resp 0x00 s.dev.rbr] ∧
      At .idle c ⟨rest, taken ++ [wordOf 0x00 s.dev.rbr]⟩ t := by
  obtain ⟨u, ha, hu⟩ := hs.access_read hc (.inr ⟨rest, rfl⟩) hi
  obtain ⟨t, htake, ht⟩ := hu.take hc
  exact ⟨t, ha.runs (htake.runs (.refl t)), ht⟩

/-! ## From the command's offer to its access or its WOULD_BLOCK -/

theorem At.accept_transfer {acts : List HostAct} (hc : c.ok = true)
    (hs : At .idle c ⟨.present (encode i) :: acts, taken⟩ s)
    (hi : isTransmit i.opcode = true ∨ isReceive i.opcode = true) :
    ∃ t, Advances s t s.dev [.cmd (encode i)] ∧ Executing i .poll 0 c ⟨acts, taken⟩ t := by
  have hf : firstPhase i = .poll := firstPhase_eq_poll (by rintro rfl; revert hi; decide)
  exact hf ▸ hs.accept hc

/-- A blocking command that is offered. -/
theorem At.runs_to_access (hc : c.ok = true) (hs : At .idle c ⟨.present (encode i) :: .take :: rest, taken⟩ s)
    (hi : i.opcode = 0x10 ∨ i.opcode = 0x11 ∨ i.opcode = 0x20) (hm : s.dev.moves = n ++ r :: ms)
    (hn : ∀ m ∈ n, readyFor c i.opcode m.lsr = false) (hr : readyFor c i.opcode r.lsr = true) :
    ∃ t, Runs (n.length + 2) s t
        (.cmd (encode i) :: (spinEvents c (n.map (·.lsr)) ++ [readEvent c .lsr r.lsr])) ∧
      Executing i .access 0 c ⟨.take :: rest, taken⟩ t ∧ Moved ms t := by
  obtain ⟨u, ha, hu⟩ := hs.accept_transfer hc (isTransfer_of_blocking hi)
  obtain ⟨t, hrun, ht, hmt⟩ := hu.runs_to_access hc (.inr ⟨rest, rfl⟩) hi (hm ▸ ha.moved) hn hr
  exact ⟨t, ha.runs hrun, ht, hmt⟩

/-- A transfer command whose first poll finds its bit set. -/
theorem At.runs_ready (hc : c.ok = true) (hs : At .idle c ⟨.present (encode i) :: .take :: rest, taken⟩ s)
    (hi : isTransmit i.opcode = true ∨ isReceive i.opcode = true) (hr : readyFor c i.opcode s.dev.move.lsr = true) :
    ∃ t, Runs 2 s t [.cmd (encode i), readEvent c .lsr s.dev.move.lsr] ∧
      Executing i .access 0 c ⟨.take :: rest, taken⟩ t ∧ t.dev = s.dev.move.move := by
  obtain ⟨u, ha, hu⟩ := hs.accept_transfer hc hi
  obtain ⟨t, hpoll, ht⟩ := hu.poll_ready hc (.inr ⟨rest, rfl⟩) hi (ha.dev ▸ hr)
  rw [ha.dev] at hpoll
  exact ⟨t, ha.runs (hpoll.runs (.refl t)), ht, hpoll.dev⟩

/-- A non-blocking command whose poll finds its bit clear, from its offer to the take of its WOULD_BLOCK. -/
theorem At.runs_wouldBlock (hc : c.ok = true) (hs : At .idle c ⟨.present (encode i) :: .take :: rest, taken⟩ s)
    (hi : i.opcode = 0x13 ∨ i.opcode = 0x22) (hr : readyFor c i.opcode s.dev.move.lsr = false) :
    ∃ t, Runs 3 s t [.cmd (encode i), readEvent c .lsr s.dev.move.lsr, .resp 0x01 0x00] ∧
      At .idle c ⟨rest, taken ++ [0x0100]⟩ t ∧ t.dev = s.dev.move.move.move := by
  obtain ⟨u, ha, hu⟩ := hs.accept_transfer hc (isTransfer_of_nonblocking hi)
  obtain ⟨v, hpoll, hv⟩ := hu.poll_wouldBlock hc (.inr ⟨rest, rfl⟩) hi (ha.dev ▸ hr)
  rw [ha.dev] at hpoll
  obtain ⟨t, htake, ht⟩ := hv.take hc
  exact ⟨t, ha.runs (hpoll.runs (htake.runs (.refl t))), ht, by rw [htake.dev, hpoll.dev]⟩

end

end Sys2Proof.Machine
end

section
/-! The transmit commands as a whole (45_transmit.md R185 to R188): O34, O35 and O36. -/

namespace Sys2Proof.Machine

section
variable {i : Instr} {k : BitVec 3} {c : Cfg} {h : HostSide} {s : State} {n ms : List DeviceMove} {r x : DeviceMove}
  {b y : Byte} {rest : List HostAct} {taken : List Word}

/-- The poll loop and the write of a blocking command's last byte, and its response. -/
theorem Executing.runs_send_last (hc : c.ok = true) (hs : Executing i .poll k c ⟨.take :: rest, taken⟩ s)
    (hi : i.opcode = 0x10 ∨ i.opcode = 0x11) (hm : Moved (n ++ r :: ms) s) (hn : ∀ m ∈ n, txReady c m.lsr = false)
    (hr : txReady c r.lsr = true) (hy : txByte i.opcode i.operand k = some y)
    (hk : ¬ k.toNat + 1 < txCount i.opcode i.operand) :
    ∃ t, Runs (n.length + 3) s t
        (spinEvents c (n.map (·.lsr)) ++ [readEvent c .lsr r.lsr, writeEvent c .data y, .resp 0x00 0x00]) ∧
      At .idle c ⟨rest, taken ++ [0x0000]⟩ t ∧ t.dev.moves = ms.drop 3 := by
  have htx : isTransmit i.opcode = true := by obtain e | e := hi <;> rw [e] <;> rfl
  have hready (v : Byte) : readyFor c i.opcode v = txReady c v := readyFor_of_isTransmit htx c v
  obtain ⟨u, hpolls, hu, hmu⟩ := hs.runs_to_access hc (.inr ⟨rest, rfl⟩) (hi.imp_right .inl) hm
    (fun m hm => (hready m.lsr).trans (hn m hm)) ((hready r.lsr).trans hr)
  obtain ⟨t, hwrite, ht, hmt⟩ := hu.runs_last_write hc htx hy hk
  refine ⟨t, ?_, ht, by simp [hmt, hmu.moves]⟩
  simpa using hpolls.append hwrite

/-- A blocking raw send, from its offer to the take of its response. -/
theorem At.runs_send (hc : c.ok = true) (hs : At .idle c ⟨.present (encode i) :: .take :: rest, taken⟩ s)
    (hi : i.opcode = 0x10 ∨ i.opcode = 0x11) (hx : expands i.opcode i.operand = false)
    (hm : s.dev.moves = n ++ r :: ms) (hn : ∀ m ∈ n, txReady c m.lsr = false) (hr : txReady c r.lsr = true) :
    ∃ t, Runs (n.length + 4) s t
        (.cmd (encode i) :: (spinEvents c (n.map (·.lsr)) ++
          [readEvent c .lsr r.lsr, writeEvent c .data i.operand, .resp 0x00 0x00])) ∧
      At .idle c ⟨rest, taken ++ [0x0000]⟩ t ∧ t.dev.moves = ms.drop 3 := by
  obtain ⟨u, haccept, hu⟩ := hs.accept_transfer hc (isTransfer_of_blocking (hi.imp_right .inl))
  obtain ⟨t, hsend, ht⟩ := hu.runs_send_last hc hi (hm ▸ haccept.moved) hn hr (txByte_of_not_expands hx 0)
    (by simp [txCount_of_not_expands hx])
  exact ⟨t, haccept.runs hsend, ht⟩

/-! ## SEND of a byte that expands -/

/-- The poll loop and the write of a SEND with a further byte to follow; the device's move x at the write is not
polled. -/
theorem Executing.runs_send_lt (hc : c.ok = true) (hs : Executing (.send b) .poll k c h s) (hw : h.Waiting)
    (hm : Moved (n ++ r :: x :: ms) s) (hn : ∀ m ∈ n, txReady c m.lsr = false) (hr : txReady c r.lsr = true)
    (hy : txByte (Instr.send b).opcode (Instr.send b).operand k = some y)
    (hk : k.toNat + 1 < txCount (Instr.send b).opcode (Instr.send b).operand) :
    ∃ t, Runs (n.length + 2) s t
        (spinEvents c (n.map (·.lsr)) ++ [readEvent c .lsr r.lsr, writeEvent c .data y]) ∧
      Executing (.send b) .poll (k + 1) c h t ∧ Moved ms t := by
  obtain ⟨u, hpolls, hu, hmu⟩ := hs.runs_to_access hc hw (.inl rfl) hm hn hr
  obtain ⟨t, hwrite, ht⟩ := hu.access_write_lt hc hw rfl hy hk
  refine ⟨t, ?_, ht, ?_⟩
  · simpa using hpolls.append (hwrite.runs (.refl t))
  · simpa [hmu.moves] using hwrite.moved

/-- The three raw sends of the erase sequence, from the command's offer to the take of its one response. -/
theorem At.runs_send_erase {n1 n2 n3 : List DeviceMove} {r1 r2 r3 x1 x2 : DeviceMove} (hc : c.ok = true)
    (hs : At .idle c ⟨.present (encode (.send b)) :: .take :: rest, taken⟩ s) (hx : expands 0x10 b = true)
    (hm : s.dev.moves = n1 ++ r1 :: x1 :: (n2 ++ r2 :: x2 :: (n3 ++ r3 :: ms)))
    (hn : ∀ m ∈ n1 ++ n2 ++ n3, txReady c m.lsr = false) (hr : ∀ m ∈ [r1, r2, r3], txReady c m.lsr = true) :
    ∃ t, Runs (n1.length + n2.length + n3.length + 8) s t
        ([.cmd (encode (.send b))] ++
          spinEvents c (n1.map (·.lsr)) ++ [readEvent c .lsr r1.lsr, writeEvent c .data 0x08] ++
          spinEvents c (n2.map (·.lsr)) ++ [readEvent c .lsr r2.lsr, writeEvent c .data 0x20] ++
          spinEvents c (n3.map (·.lsr)) ++
          [readEvent c .lsr r3.lsr, writeEvent c .data 0x08, .resp 0x00 0x00]) ∧
      At .idle c ⟨rest, taken ++ [0x0000]⟩ t ∧ t.dev.moves = ms.drop 3 := by
  have hcount : txCount (Instr.send b).opcode (Instr.send b).operand = 3 := txCount_of_expands hx
  have hbyte := txByte_of_expands hx
  have hw : HostSide.Waiting ⟨.take :: rest, taken⟩ := .inr ⟨rest, rfl⟩
  obtain ⟨t0, h0, ht0⟩ := hs.accept_transfer hc (.inl rfl)
  obtain ⟨t1, h1, ht1, hm1⟩ := ht0.runs_send_lt hc hw (hm ▸ h0.moved)
    (fun m h => hn m (by simp [h])) (hr r1 (by simp)) (hbyte 0) (by rw [hcount]; decide)
  obtain ⟨t2, h2, ht2, hm2⟩ := ht1.runs_send_lt hc hw hm1
    (fun m h => hn m (by simp [h])) (hr r2 (by simp)) (hbyte 1) (by rw [hcount]; decide)
  obtain ⟨t, h3, ht, hmt⟩ := ht2.runs_send_last hc (.inl rfl) hm2
    (fun m h => hn m (by simp [h])) (hr r3 (by simp)) (hbyte 2) (by rw [hcount]; decide)
  have hrun := h0.runs ((h1.append h2).append h3)
  have hlen : n1.length + n2.length + n3.length + 8 =
      n1.length + 2 + (n2.length + 2) + (n3.length + 3) + 1 := by omega
  refine ⟨t, ?_, ht, hmt⟩
  rw [hlen]
  simpa only [List.append_assoc] using hrun

end

/-- Settles O34: the accept step and the one poll, and then the write and its response, or WOULD_BLOCK. -/
theorem tsendrSendsOrWouldBlock : Obligations.TsendrSendsOrWouldBlock := by
  intro s b v rest hc hp ha hv
  subst hv
  have hs := at_idle hp ha
  constructor
  · intro hr
    obtain ⟨u, hpoll, hu, -⟩ := hs.runs_ready (i := .tsendr b) hc (.inl rfl) hr
    obtain ⟨t, hwrite, ht, -⟩ := hu.runs_only_write hc rfl rfl
    have hrun := hpoll.append hwrite
    exact ⟨t, hrun.steps, ht.phase, ht.acts_eq, ht.taken_eq, hrun.trace⟩
  · intro hr
    obtain ⟨t, hrun, ht, hdev⟩ := hs.runs_wouldBlock (i := .tsendr b) hc (.inl rfl) hr
    exact ⟨t, hrun.steps, ht.phase, ht.acts_eq, ht.taken_eq, hrun.trace, by simp [hdev], by simp [hdev]⟩

/-- Settles O35: SENDR never expands, and SEND does so for its two special bytes alone. -/
theorem blockingSendWaitsThenWritesOnce : Obligations.BlockingSendWaitsThenWritesOnce := by
  intro s b w n r ms rest hc hp ha hwb hm hn hr
  have hi : ∃ i : Instr, w = encode i ∧ i.operand = b ∧ (i.opcode = 0x10 ∨ i.opcode = 0x11) ∧
      expands i.opcode i.operand = false := by
    obtain rfl | ⟨rfl, h08, h7F⟩ := hwb
    · exact ⟨.sendr b, rfl, rfl, .inr rfl, rfl⟩
    · exact ⟨.send b, rfl, rfl, .inl rfl, expands_send_eq_false h08 h7F⟩
  obtain ⟨i, rfl, rfl, hop, hx⟩ := hi
  obtain ⟨t, hrun, ht, -⟩ := (at_idle hp ha).runs_send hc hop hx hm hn hr
  exact ⟨t, hrun.steps, ht.phase, ht.acts_eq, ht.taken_eq, by simp [hrun.trace]⟩

/-- Settles O36: SEND expands for both bytes. -/
theorem sendEraseIsThreeRawSends : Obligations.SendEraseIsThreeRawSends := by
  intro s b n1 n2 n3 r1 r2 r3 x1 x2 ms rest hc hp ha hb hm hn hr
  have hplan : s.dev.moves = n1 ++ r1 :: x1 :: (n2 ++ r2 :: x2 :: (n3 ++ r3 :: ms)) := by simp [hm]
  have hword : encode (.send b) = wordOf 0x10 b := rfl
  obtain ⟨t, hrun, ht, -⟩ := (at_idle hp ha).runs_send_erase hc (expands_send_eq_true hb) hplan hn hr
  exact ⟨t, hrun.steps, ht.phase, ht.acts_eq, ht.taken_eq, by simp [hrun.trace, hword]⟩

end Sys2Proof.Machine
end

section
/-! A text to a device that is always ready (45_transmit.md R190): one SEND after another; O37. -/

namespace Sys2Proof.Machine

/-- The next k moves of the device are planned, and the transmitter is ready after each. -/
def KeepsReady (c : Cfg) (k : Nat) (d : Device) : Prop :=
  k ≤ d.moves.length ∧ ∀ m ∈ d.moves.take k, txReady c m.lsr = true

/-- The first of the moves and the others. -/
theorem KeepsReady.split {c : Cfg} {j k : Nat} {d : Device} (h : KeepsReady c (j + k) d) :
    KeepsReady c j d ∧ ∀ {e : Device}, e.moves = d.moves.drop j → KeepsReady c k e := by
  obtain ⟨hlen, hready⟩ := h
  rw [List.take_add] at hready
  refine ⟨⟨by omega, fun m hm => hready m (List.mem_append_left _ hm)⟩, fun he => ?_⟩
  unfold KeepsReady
  rw [he, List.length_drop]
  exact ⟨by omega, fun m hm => hready m (List.mem_append_right _ hm)⟩

/-- The steps that a SEND of b takes, from its offer to the take of its response, when it never waits. -/
def sendSteps (b : Byte) : Nat := if b = 0x08 ∨ b = 0x7F then 8 else 4

section
variable {c : Cfg} {b : Byte} {s : State} {acts : List HostAct} {taken : List Word}

theorem At.runs_send_ready_erase (hc : c.ok = true)
    (hs : At .idle c ⟨.present (encode (.send b)) :: .take :: acts, taken⟩ s) (hb : b = 0x08 ∨ b = 0x7F)
    (hk : KeepsReady c 8 s.dev) :
    ∃ t es, Runs 8 s t es ∧ At .idle c ⟨acts, taken ++ [0x0000]⟩ t ∧ t.dev.moves = s.dev.moves.drop 8 ∧
      dataWrites c es = eraseSequence := by
  obtain ⟨hlen, hready⟩ := hk
  obtain ⟨r1, x1, r2, x2, r3, ms, hm⟩ :
      ∃ r1 x1 r2 x2 r3 ms, s.dev.moves = r1 :: x1 :: r2 :: x2 :: r3 :: ms := by
    rcases hd : s.dev.moves with _ | ⟨r1, _ | ⟨x1, _ | ⟨r2, _ | ⟨x2, _ | ⟨r3, ms⟩⟩⟩⟩⟩ <;> simp [hd] at hlen ⊢
  rw [hm] at hready
  have hr : ∀ m ∈ [r1, r2, r3], txReady c m.lsr = true := by
    simpa using ⟨hready r1 (by simp), hready r2 (by simp), hready r3 (by simp)⟩
  obtain ⟨t, hrun, ht, hmt⟩ := hs.runs_send_erase (n1 := []) (n2 := []) (n3 := []) hc (expands_send_eq_true hb) hm
    (by simp) hr
  exact ⟨t, _, hrun, ht, by rw [hmt, hm]; rfl, by simp [eraseSequence]⟩

theorem At.runs_send_ready_once (hc : c.ok = true)
    (hs : At .idle c ⟨.present (encode (.send b)) :: .take :: acts, taken⟩ s) (hx : expands 0x10 b = false)
    (hk : KeepsReady c 4 s.dev) :
    ∃ t es, Runs 4 s t es ∧ At .idle c ⟨acts, taken ++ [0x0000]⟩ t ∧ t.dev.moves = s.dev.moves.drop 4 ∧
      dataWrites c es = [b] := by
  obtain ⟨hlen, hready⟩ := hk
  obtain ⟨r, ms, hm⟩ := List.exists_cons_of_length_pos (l := s.dev.moves) (by omega)
  obtain ⟨t, hrun, ht, hmt⟩ := hs.runs_send (n := []) hc (.inl rfl) hx hm (by simp) (hready r (by simp [hm]))
  exact ⟨t, _, hrun, ht, by rw [hmt, hm]; rfl, by simp [Instr.operand]⟩

theorem At.runs_send_ready (hc : c.ok = true)
    (hs : At .idle c ⟨.present (encode (.send b)) :: .take :: acts, taken⟩ s) (hk : KeepsReady c (sendSteps b) s.dev) :
    ∃ t es, Runs (sendSteps b) s t es ∧ At .idle c ⟨acts, taken ++ [0x0000]⟩ t ∧
      t.dev.moves = s.dev.moves.drop (sendSteps b) ∧ dataWrites c es = sendBytes b := by
  by_cases hb : b = 0x08 ∨ b = 0x7F
  · have hsteps : sendSteps b = 8 := if_pos hb
    have hbytes : sendBytes b = eraseSequence := if_pos hb
    rw [hsteps] at hk ⊢
    rw [hbytes]
    exact hs.runs_send_ready_erase hc hb hk
  · have hsteps : sendSteps b = 4 := if_neg hb
    have hbytes : sendBytes b = [b] := if_neg hb
    obtain ⟨h08, h7F⟩ := not_or.mp hb
    rw [hsteps] at hk ⊢
    rw [hbytes]
    exact hs.runs_send_ready_once hc (expands_send_eq_false h08 h7F) hk

/-- A text, byte by byte. -/
theorem At.runs_wstr (hc : c.ok = true) (text : List Byte) (hs : At .idle c ⟨wstrActs text ++ acts, taken⟩ s)
    (hk : KeepsReady c (text.map sendSteps).sum s.dev) :
    ∃ t es, Runs (text.map sendSteps).sum s t es ∧ At .idle c ⟨acts, taken ++ text.map fun _ => 0x0000⟩ t ∧
      dataWrites c es = text.flatMap sendBytes := by
  induction text generalizing s taken with
  | nil => exact ⟨s, [], .refl s, by simpa [wstrActs, wstrWords] using hs, rfl⟩
  | cons b text ih =>
    rw [List.map_cons, List.sum_cons] at hk ⊢
    obtain ⟨hfirst, hothers⟩ := hk.split
    obtain ⟨u, es, hsend, hu, hmu, hes⟩ := hs.runs_send_ready hc hfirst
    obtain ⟨t, fs, htext, ht, hfs⟩ := ih hu (hothers hmu)
    exact ⟨t, es ++ fs, hsend.append htext, by simpa using ht, by simp [hes, hfs]⟩

end

/-- Settles O37: each byte's SEND in turn, for a device whose planned moves keep it ready. -/
theorem wstrWritesTheTextInOrder : Obligations.WstrWritesTheTextInOrder := by
  intro s text n rest hc hp ha hn hlen hready
  subst hn
  obtain ⟨t, es, hrun, ht, hes⟩ := (at_idle hp ha).runs_wstr hc text ⟨hlen, hready⟩
  exact ⟨t, hrun.steps, ht.phase, ht.acts_eq, ht.taken_eq,
    by rw [hrun.trace, dataWrites_append, hes]; rfl⟩

end Sys2Proof.Machine
end

section
/-! A blocking transfer is its non-blocking one repeated until it answers OK (45_transmit.md R191): both poll the same
line-status bytes and then make the same access; O38 and O58. -/

namespace Sys2Proof.Machine

/-! ## The polls of the two runs -/

theorem busEvents_spinEvents (c : Cfg) (vs : List Byte) : busEvents (spinEvents c vs) = vs.map (readEvent c .lsr) := by
  induction vs with
  | nil => rfl
  | cons v vs ih => simp [ih]

/-- The acts of a host that issues a command k times. -/
def repeatedly (k : Nat) (i : Instr) : List HostAct := (List.replicate k (issue (encode i))).flatten

/-- A plan of failing attempts, each with its poll's answer and what the device does while the response is pending. -/
def attempts (ps : List (DeviceMove × DeviceMove × DeviceMove)) : List DeviceMove :=
  ps.flatMap fun p => [p.1, p.2.1, p.2.2]

section
variable {i : Instr} {c : Cfg} {s : State} {n ms : List DeviceMove} {pauses : List (DeviceMove × DeviceMove)}
  {r : DeviceMove} {acts : List HostAct} {taken : List Word}

/-- Attempts that all answer WOULD_BLOCK. -/
theorem At.runs_attempts (hc : c.ok = true) (hi : i.opcode = 0x13 ∨ i.opcode = 0x22)
    (ps : List (DeviceMove × DeviceMove × DeviceMove)) (hs : At .idle c ⟨repeatedly ps.length i ++ acts, taken⟩ s)
    (hm : s.dev.moves = attempts ps ++ ms) (hn : ∀ p ∈ ps, readyFor c i.opcode p.1.lsr = false) :
    ∃ t es, Runs (3 * ps.length) s t es ∧ At .idle c ⟨acts, taken ++ List.replicate ps.length 0x0100⟩ t ∧
      t.dev.moves = ms ∧ busEvents es = (ps.map Prod.fst).map fun m => readEvent c .lsr m.lsr := by
  induction ps generalizing s taken with
  | nil => exact ⟨s, [], .refl s, by simpa [repeatedly] using hs, hm, rfl⟩
  | cons p ps ih =>
    have hplan : s.dev.moves = p.1 :: p.2.1 :: p.2.2 :: (attempts ps ++ ms) := hm
    have hlsr : s.dev.move.lsr = p.1.lsr := by rw [Device.move_planned hplan]
    obtain ⟨u, hrun, hu, hdev⟩ := hs.runs_wouldBlock hc hi (hlsr ▸ hn p (by simp))
    have hmu : u.dev.moves = attempts ps ++ ms := by simp [hdev, Device.move_moves, hplan]
    obtain ⟨t, es, hrest, ht, hmt, hes⟩ := ih hu hmu fun q hq => hn q (List.mem_cons_of_mem _ hq)
    have hsteps : 3 * (p :: ps).length = 3 + 3 * ps.length := by rw [List.length_cons]; omega
    rw [hlsr] at hrun
    exact ⟨t, _, hsteps ▸ hrun.append hrest, by simpa [List.replicate_succ] using ht, hmt, by simp [hes]⟩

theorem repeatedly_succ (k : Nat) (i : Instr) (acts : List HostAct) :
    repeatedly (k + 1) i ++ acts = repeatedly k i ++ .present (encode i) :: .take :: acts := by
  simp [repeatedly, issue, List.replicate_succ']

/-- The attempts of a non-blocking command, up to the access of the first that finds its bit set. -/
theorem At.runs_repeated_to_access (hc : c.ok = true) (hi : i.opcode = 0x13 ∨ i.opcode = 0x22)
    (hs : At .idle c ⟨repeatedly (n.length + 1) i ++ acts, taken⟩ s) (hlen : pauses.length = n.length)
    (hm : s.dev.moves = attempts (n.zip pauses) ++ r :: ms) (hn : ∀ m ∈ n, readyFor c i.opcode m.lsr = false)
    (hr : readyFor c i.opcode r.lsr = true) :
    ∃ t es, Runs (3 * n.length + 2) s t es ∧
      Executing i .access 0 c ⟨.take :: acts, taken ++ List.replicate n.length 0x0100⟩ t ∧ Moved ms t ∧
      busEvents es = (n.map fun m => readEvent c .lsr m.lsr) ++ [readEvent c .lsr r.lsr] := by
  have hzip : (n.zip pauses).length = n.length := by simp [hlen]
  have hfst : (n.zip pauses).map Prod.fst = n := List.map_fst_zip hlen.ge
  rw [repeatedly_succ, ← hzip] at hs
  obtain ⟨u, es, hblocked, hu, hmu, hes⟩ := hs.runs_attempts hc hi _ hm fun p hp => hn p.1 (List.of_mem_zip hp).1
  have hlsr : u.dev.move.lsr = r.lsr := by rw [Device.move_planned hmu]
  obtain ⟨t, hready, ht, hdev⟩ := hu.runs_ready hc (isTransfer_of_nonblocking hi) (hlsr ▸ hr)
  rw [hzip] at hblocked ht
  refine ⟨t, _, hblocked.append hready, ht, ⟨u.dev.move, by rw [Device.move_planned hmu], hdev⟩, ?_⟩
  rw [busEvents_append, hes, hfst, hlsr]
  rfl

end

/-- Settles O38: the polls of the two runs are the same reads, and each run ends with the one write of b. -/
theorem sendrIsTsendrRepeated : Obligations.SendrIsTsendrRepeated := by
  intro s s' b n pauses r ms ms' rest rest' hc hcfg hp hp' ha ha' hm hlen hm' hn hr
  obtain ⟨t, hrun, ht, -⟩ := (at_idle hp ha).runs_send (i := .sendr b) hc (.inr rfl) rfl hm hn hr
  obtain ⟨u', es', hpolls', hu', -, hes'⟩ :=
    (hcfg ▸ at_idle hp' ha').runs_repeated_to_access (i := .tsendr b) hc (.inl rfl) hlen hm' hn hr
  obtain ⟨t', hwrite', ht', -⟩ := hu'.runs_only_write hc rfl rfl
  have hrun' := hpolls'.append hwrite'
  exact ⟨t, t', _, _, hrun.steps, hrun'.steps, hrun.trace, hrun'.trace,
    by simp [hes', busEvents_spinEvents, Instr.operand], ht.taken_eq, ht'.taken_eq⟩

/-- Settles O58: the polls of the two runs are the same reads, and each run ends with the one read of the byte of x. -/
theorem recvIsTrecvRepeated : Obligations.RecvIsTrecvRepeated := by
  intro s s' n pauses r x ms ms' rest rest' hc hcfg hp hp' ha ha' hm hlen hm' hn hr
  obtain ⟨u, hpolls, hu, hmu⟩ := (at_idle hp ha).runs_to_access (i := .recv) hc (.inr (.inr rfl)) hm hn hr
  obtain ⟨t, hread, ht⟩ := hu.runs_read hc rfl
  obtain ⟨u', es', hpolls', hu', hmu', hes'⟩ :=
    (hcfg ▸ at_idle hp' ha').runs_repeated_to_access (i := .trecv) hc (.inr rfl) hlen hm' hn hr
  obtain ⟨t', hread', ht'⟩ := hu'.runs_read hc rfl
  rw [hmu.rbr] at hread ht
  rw [hmu'.rbr] at hread' ht'
  have hrun := hpolls.append hread
  have hrun' := hpolls'.append hread'
  exact ⟨t, t', _, _, hrun.steps, hrun'.steps, hrun.trace, hrun'.trace, by simp [hes', busEvents_spinEvents],
    ht.taken_eq, ht'.taken_eq⟩

end Sys2Proof.Machine
end

section
/-! The receive commands as a whole (46_receive.md R200 to R202): O41, O42 and O43. -/

namespace Sys2Proof.Machine

/-! ## RECV and TRECV as runs (R200, R201) -/

/-- Settles O41: the poll loop up to its ready poll, and then the one read and its response. -/
theorem recvWaitsThenReadsOnce : Obligations.RecvWaitsThenReadsOnce := by
  intro s n r x ms rest hc hp ha hm hn hr
  obtain ⟨u, hpolls, hu, hmu⟩ := (at_idle hp ha).runs_to_access (i := .recv) hc (.inr (.inr rfl)) hm hn hr
  obtain ⟨t, hread, ht⟩ := hu.runs_read hc rfl
  rw [hmu.rbr] at hread ht
  have hrun := hpolls.append hread
  have hword : encode .recv = 0x2000 := rfl
  exact ⟨t, hrun.steps, ht.phase, ht.acts_eq, ht.taken_eq, by simp [hrun.trace, hword]⟩

/-- Settles O42: the accept step and the one poll, and then the read and its response, or WOULD_BLOCK. -/
theorem trecvReadsOrWouldBlock : Obligations.TrecvReadsOrWouldBlock := by
  intro s v d rest hc hp ha hv hd
  subst hv hd
  have hs := at_idle hp ha
  constructor
  · intro hr
    obtain ⟨u, hpoll, hu, hdev⟩ := hs.runs_ready (i := .trecv) hc (.inr rfl) hr
    obtain ⟨t, hread, ht⟩ := hu.runs_read hc rfl
    rw [hdev] at hread ht
    have hrun := hpoll.append hread
    exact ⟨t, hrun.steps, ht.phase, ht.acts_eq, ht.taken_eq, hrun.trace⟩
  · intro hr
    obtain ⟨t, hrun, ht, -⟩ := hs.runs_wouldBlock (i := .trecv) hc (.inr rfl) hr
    exact ⟨t, hrun.steps, ht.phase, ht.acts_eq, ht.taken_eq, hrun.trace⟩

/-! ## Line errors (R202) -/

/-- The same state beside a device that answers v for its line status. -/
def State.withLsr (v : Byte) (s : State) : State := { s with dev := { s.dev with lsr := v } }

/-- The poll step of a receive command is the same for every line-status byte of the same DATA_READY bit, but for
the byte its read returns: it leaves the registers of u and adds the read and then es. -/
theorem exec_receive_poll_withLsr {i : Instr} {s : State} (hi : i = .recv ∨ i = .trecv) (hp : s.phase = .poll) :
    ∃ (u : State) (es : List Event), ∀ w, rxReady s.cfg w = rxReady s.cfg s.dev.lsr →
      exec i (s.withLsr w) = .next { u.withLsr w with trace := s.trace ++ readEvent s.cfg .lsr w :: es } := by
  have poll (w : Byte) := receivePollStep (s.withLsr w) hp
  cases hr : rxReady s.cfg s.dev.lsr with
  | true =>
    refine ⟨{ s with phase := .access }, [], fun w hw => ?_⟩
    obtain ⟨ready, -⟩ := poll w
    exact ready hw i (by simpa using hi)
  | false =>
    obtain rfl | rfl := hi
    · refine ⟨s, [.hint], fun w hw => ?_⟩
      obtain ⟨-, notReady⟩ := poll w
      obtain ⟨hrecv, -⟩ := notReady hw
      exact hrecv
    · refine ⟨{ s with phase := .done, rstat := 0x01, rdata := 0x00 }, [.resp 0x01 0x00], fun w hw => ?_⟩
      obtain ⟨-, notReady⟩ := poll w
      obtain ⟨-, htrecv⟩ := notReady hw
      exact htrecv

/-- Settles O43: the step taken and the step with v in its place are one poll step, for two bytes of the same bit. -/
theorem receiveIgnoresLineErrors : Obligations.ReceiveIgnoresLineErrors := by
  intro s t v i hi hp hv ht
  obtain ⟨u, es, hstep⟩ := exec_receive_poll_withLsr hi hp
  have here : exec i s = _ := hstep s.dev.lsr rfl
  rw [ht] at here
  cases here
  exact ⟨es, rfl, hstep v hv⟩

end Sys2Proof.Machine
end

section
/-! The answer to an illegal word (60_exceptions.md R212): O8. -/

namespace Sys2Proof.Machine

/-- The one step of an illegal word: the word latched and recorded, then the response ILLEGAL with 0x00 (R151, R212). -/
theorem acceptIllegal_eq (w : Word) (s : State) :
    acceptIllegal w s = { s with
      opr := highByte w, argr := lowByte w, idx := 0, phase := .done, rstat := 0x02, rdata := 0x00,
      trace := s.trace ++ [.cmd w, .resp 0x02 0x00] } := by
  have htrace : (acceptIllegal w s).trace = s.trace ++ [.cmd w, .resp 0x02 0x00] :=
    List.append_assoc s.trace [.cmd w] [.resp 0x02 0x00]
  rw [← htrace]
  rfl

/-- At IDLE an illegal word on the command port fetches no command (R150). -/
theorem fetch_idle_illegal {s : State} {w : Word} {why : Illegal} (hp : s.phase = .idle)
    (ho : s.host.offered = some w) (hw : decode w = .illegal why) : fetch s = none := by
  obtain ⟨hr, -⟩ := HostSide.offered_waits ho
  simp [fetch, hr, hp, ho, hw, Decoded.instr?]

/-- Settles O8: a host that offers does not reset, and a word that fetches no command is answered in its accept step. -/
theorem illegalWordIsAnswered : Obligations.IllegalWordIsAnswered := by
  intro s w why hc hp ho hw
  obtain ⟨hr, -⟩ := HostSide.offered_waits ho
  have hanswer : engineStep s = .next (acceptIllegal w s) :=
    engineStep_illegal hr hp (fetch_idle_illegal hp ho hw) ho
  rw [step_of_engineStep hc hanswer, acceptIllegal_eq]

end Sys2Proof.Machine
end
